-- ==== Sys2Proof/Word.lean ====
section
/-! DEFINITION. The fixed-size words of FWCORE: the 32-bit word, which is both the unit of storage of
an operand (spec/10_state.md R10) and the size of a command (spec/30_encoding.md R50), the byte of
the operand store (spec/20_memory.md R32), and the number of an operand register. -/

namespace Sys2Proof

/-- A 32-bit word: one `Words[i]` of an operand (R10), a command word (R50), STATUS (R16) or FCMD (R19). -/
abbrev Word := BitVec 32

/-- One byte of the operand store (R32). -/
abbrev Byte := BitVec 8

/-- The number of an operand register, `x0` to `x15` (spec/10_state.md R11, spec/30_encoding.md R52). -/
abbrev Reg := Fin 16

/-- The sixteen-bit immediate `imm16 = w[15:0]` (spec/30_encoding.md R53). -/
abbrev Imm16 := BitVec 16

end Sys2Proof
end

