-- ==== Sys2Proof/Config.lean ====
section
/-! DEFINITION. What is fixed when a block is built: its width N (spec/00_scope.md R3, R4). A `Width`
cannot be built with an N that is not a multiple of 32 or lies outside 32..32768. -/

namespace Sys2Proof

/-- The width parameter N of one block, held as its number of words W = N/32 (R3, R4). The two
bounds are 32 ≤ N ≤ 32768; N is a multiple of 32 by construction. -/
structure Width where
  /-- W, the document's `NumWords`. -/
  words : Nat
  pos : 1 ≤ words
  le : words ≤ 1024
  deriving DecidableEq, Repr

/-- N, the number of bits of every operand register (R3). -/
def Width.bits (w : Width) : Nat := 32 * w.words

/-- NB = N/8, the number of bytes of every operand register (R4). -/
def Width.bytes (w : Width) : Nat := 4 * w.words

/-- Building a block of width N, refused (`none`) unless N is a multiple of 32 from 32 to 32768
(R3; spec/93_implementation_defined.md I7). -/
def Width.ofBits? (n : Nat) : Option Width :=
  if h : n % 32 = 0 ∧ 32 ≤ n ∧ n ≤ 32768 then some ⟨n / 32, by omega, by omega⟩ else none

/-- DESIGN CHOICE (notes/assumptions/1.md): the width of the one block `State.reset` describes, N = 128,
the first of the document's typical widths (R3). Every definition and every statement of the model
is for an arbitrary `Width`; this constant is used by `State.reset` alone. -/
def Config.width : Width := ⟨4, by decide, by decide⟩

end Sys2Proof
end

