-- ==== Sys2Proof/Machine/State.lean ====
section
/-! DEFINITION. The whole state of FWCORE (spec/10_state.md): sixteen operand registers, the fields of STATUS
and FCMD, and nothing else (R22). Around this `Block` the machine's `State` holds what the spec says
is not state of the block but parameter and input of an execution, as plain data: the width N of the
block, the host's transactions that are still to come, and the results the host has been given. -/

namespace Sys2Proof.Machine

/-- The fault code STATUS.FCODE: 0, 1 or 2, never 3 (spec/10_state.md R18; spec/60_exceptions.md R160). -/
inductive FCode where
  /-- Code 0: the block is not faulted. -/
  | none
  /-- Code 1. -/
  | divisionByZero
  /-- Code 2. -/
  | illegalCommand
  deriving DecidableEq, Repr

/-- The two synchronous exceptions (R160). -/
inductive Exc where
  | divisionByZero
  | illegalCommand
  deriving DecidableEq, Repr

/-- The architectural state of a block whose operand registers have `n` bits. -/
structure Block (n : Nat) where
  /-- `x0` to `x15` (R11); none is hardwired (R12). -/
  regs : Vector (BitVec n) 16
  /-- STATUS.EQ, bit 0 (R16, R17). -/
  eqFlag : Bool
  /-- STATUS.LT, bit 1 (R16, R17). -/
  ltFlag : Bool
  /-- STATUS.FCODE, bits 9:8 (R16, R18). The other bits of STATUS are hardwired to 0. -/
  fcode : FCode
  /-- FCMD, the command word that raised the fault FCODE records (R19). -/
  fcmd : Word
  deriving DecidableEq, Repr

/-! ## What the host hands in and gets back -/

/-- The element widths of host data access (spec/20_memory.md R33). -/
inductive ElemWidth where
  | w8 | w16 | w32 | w64
  deriving DecidableEq, Repr

/-- e/8, the number of bytes of an element. -/
def ElemWidth.bytes : ElemWidth → Nat
  | .w8 => 1
  | .w16 => 2
  | .w32 => 4
  | .w64 => 8

/-- e, the number of bits of an element. -/
abbrev ElemWidth.bits (e : ElemWidth) : Nat := 8 * e.bytes

/-- The fill of bytes beyond storage in RdElem (spec/20_memory.md R36). -/
inductive Fill where
  | zero | sign
  deriving DecidableEq, Repr

/-- The sixteen values a Reset leaves in the operand registers: the free input of Reset that R24 asks
for. A block of width N keeps each modulo 2^N, so every N-bit value is possible in every register, and
nothing constrains them (notes/assumptions/3.md). -/
abbrev Draw := Vector Nat 16

/-- The seven host transactions (spec/20_memory.md R31). Values outside the arguments' domains are not
transactions (spec/93_implementation_defined.md I15); an element index `k` of any size is one. -/
inductive Transaction where
  /-- `Reset`; the draw is no argument the host gives, but the free input of R24. -/
  | reset (draw : Draw)
  /-- `Issue(w)`. -/
  | issue (w : Word)
  /-- `WrElem(r, e, k, v)`. -/
  | wrElem (r : Reg) (e : ElemWidth) (k : Nat) (v : BitVec e.bits)
  /-- `RdElem(r, e, k, fill)`. -/
  | rdElem (r : Reg) (e : ElemWidth) (k : Nat) (fill : Fill)
  /-- `RdStatus()`. -/
  | rdStatus
  /-- `RdFcmd()`. -/
  | rdFcmd
  /-- `ClrFault()`. -/
  | clrFault
  deriving DecidableEq, Repr

/-- The result of a read transaction (R31): all that a host observes (spec/70_reset_and_hazards.md R187). -/
inductive Reply where
  | elem (e : ElemWidth) (v : BitVec e.bits)
  | status (v : Word)
  | fcmd (v : Word)
  deriving DecidableEq, Repr

/-! ## The machine's state -/

/-- A block together with the parameter and the inputs of its execution. -/
structure State where
  /-- The parameter N (spec/00_scope.md R3): fixed when the block is built, changed by no step. -/
  width : Width
  /-- The architectural state. -/
  block : Block width.bits
  /-- The transactions the host has yet to present, the next one first (R31). -/
  pending : List Transaction
  /-- The results returned to the host so far, the oldest first (R187). -/
  replies : List Reply
  deriving DecidableEq, Repr

/-- Reasons for which the machine stops with a fault: there are none. "Every transaction in every state
has exactly one outcome" (spec/93_implementation_defined.md, end of section 2), and the block's own
faults, DivisionByZero and IllegalCommand, are next states that record a code in FCODE (R163). -/
inductive Fault : Type
  deriving DecidableEq, Repr

/-- Reasons for which the machine refuses an instruction. -/
inductive Refusal where
  /-- Raised by an arm of `exec` whose instruction has no meaning yet; no arm raises it. Safe: the
  machine stops where the hardware goes on. -/
  | notModelled (mnemonic : String)
  deriving DecidableEq, Repr

/-! ## Reset -/

/-- The architectural state after a Reset with the given draw (spec/10_state.md R23, R24). -/
def Block.afterReset (n : Nat) (draw : Draw) : Block n where
  regs := ⟨⟨draw.toList.map (BitVec.ofNat n)⟩, by simp⟩
  eqFlag := false
  ltFlag := false
  fcode := .none
  fcmd := 0

/-- The machine right after the first Reset of an execution (spec/70_reset_and_hazards.md R180), for a block
of any width and for any draw: no transaction is pending and none has been answered. -/
def State.afterReset (w : Width) (draw : Draw) : State where
  width := w
  block := Block.afterReset w.bits draw
  pending := []
  replies := []

/-- The machine right after reset. DESIGN CHOICE (notes/assumptions/2.md): R24 leaves the operand registers
unspecified; this one state has zero in each, and no statement rests on those zeros.
`State.afterReset` is the state after reset for every width and every draw. -/
def State.reset : State := State.afterReset Config.width (Vector.replicate 16 0)

end Sys2Proof.Machine
end

