-- ==== Sys2Proof/Machine/Operands.lean ====
section
/-! DEFINITION. The notation of the spec over N-bit values (spec/00_scope.md R5, R6): the unsigned and the
signed reading of a value, truncation and extension to N bits, words and bytes of a value, and the
extension of the immediate (spec/30_encoding.md R53). Everything is for an arbitrary width `n`. -/

namespace Sys2Proof.Machine

variable {n : Nat}

/-- `U(v)`, the unsigned integer of a value (R5). -/
abbrev uval (v : BitVec n) : Nat := v.toNat

/-- `S(v)`, the two's-complement integer of a value (R5). -/
abbrev sval (v : BitVec n) : Int := v.toInt

/-- `trunc_N(k)`, the N-bit value `v` with `U(v) = k mod 2^N` (R6). -/
def trunc (n : Nat) (k : Int) : BitVec n := BitVec.ofInt n k

/-- `zext_N(v)`, the N-bit value whose unsigned value is `U(v)` (R6). -/
def zext (n : Nat) {m : Nat} (v : BitVec m) : BitVec n := trunc n (uval v)

/-- `sext_N(v)`, the N-bit value whose signed value is `S(v)` (R6). -/
def sext (n : Nat) {m : Nat} (v : BitVec m) : BitVec n := trunc n (sval v)

/-- `neg_N(v) = trunc_N(U(~v) + 1)` (R6). -/
def negate (v : BitVec n) : BitVec n := trunc n (uval (~~~v) + 1)

/-- The sign bit of the signed view, bit N−1 (spec/00_scope.md R7). -/
def signBit (v : BitVec n) : Bool := v.getLsbD (n - 1)

/-- The N-bit value with every bit 1. -/
def ones (n : Nat) : BitVec n := trunc n (-1)

/-- `word(v, i) = v[32i+31 : 32i]`, the document's `Words[i]`; 0 beyond the top word (R5, spec/41_shift.md R87). -/
def wordOf (v : BitVec n) (i : Nat) : Word := v.extractLsb' (32 * i) 32

/-- `byte(v, p) = v[8p+7 : 8p]` (R5). -/
def byteOf (v : BitVec n) (p : Nat) : Byte := v.extractLsb' (8 * p) 8

/-- `byte(x, p) <- b`: the value with byte `p` replaced and every other bit kept. -/
def setByte (v : BitVec n) (p : Nat) (b : Byte) : BitVec n :=
  (v &&& ~~~(BitVec.ofNat n 0xFF <<< (8 * p))) ||| (BitVec.ofNat n b.toNat <<< (8 * p))

/-- The number of a list of bytes, least significant first (spec/20_memory.md R38). -/
def ofBytes : List Byte → Nat
  | [] => 0
  | b :: bs => b.toNat + 2 ^ 8 * ofBytes bs

/-- The number of a list of words, least significant first (spec/10_state.md R10). -/
def ofWords : List Word → Nat
  | [] => 0
  | d :: ds => d.toNat + 2 ^ 32 * ofWords ds

/-- `imm16` as an unsigned number: shift and rotate amounts, byte counts (spec/30_encoding.md R53). -/
def immU (imm : Imm16) : Nat := uval imm

end Sys2Proof.Machine
end

