-- ==== Sys2Proof/Machine/Flags.lean ====
section
/-! DEFINITION. STATUS and the two condition flags: the layout of STATUS (spec/10_state.md R16), the fault code
numbers (spec/60_exceptions.md R160), the unsigned and the signed comparison that give EQ and LT
(spec/45_compare.md R125, R126), and the six relations a host derives from them (spec/10_state.md R17). -/

namespace Sys2Proof.Machine

variable {n : Nat}

/-- The number of a fault code in STATUS[9:8] (R160). -/
def FCode.number : FCode → Nat
  | .none => 0
  | .divisionByZero => 1
  | .illegalCommand => 2

/-- `code(E)`, the fault code of an exception (R160). -/
def Exc.code : Exc → FCode
  | .divisionByZero => .divisionByZero
  | .illegalCommand => .illegalCommand

/-- STATUS as the host reads it: bit 0 EQ, bit 1 LT, bits 9:8 FCODE, every other bit 0 (R16). -/
def Block.status (b : Block n) : Word :=
  BitVec.ofNat 32 (b.eqFlag.toNat + 2 * b.ltFlag.toNat + 2 ^ 8 * b.fcode.number)

/-- The block is faulted: FCODE ≠ 0 (R18). -/
def Block.faulted (b : Block n) : Bool := b.fcode != .none

/-- The pair (EQ, LT) of an unsigned compare (R125). -/
def compareU (a b : BitVec n) : Bool × Bool := (uval a == uval b, decide (uval a < uval b))

/-- The pair (EQ, LT) of a signed compare (R126). -/
def compareS (a b : BitVec n) : Bool × Bool := (sval a == sval b, decide (sval a < sval b))

/-- Write both condition flags (R17). -/
def Block.setFlags (b : Block n) (f : Bool × Bool) : Block n := { b with eqFlag := f.1, ltFlag := f.2 }

/-- The document's six comparison operators. -/
inductive Relation where
  | eq | ne | lt | le | gt | ge
  deriving DecidableEq, Repr

/-- How a host derives a relation of the compared registers from a value of STATUS (R17). -/
def Relation.ofStatus (r : Relation) (status : Word) : Bool :=
  let eq := status.getLsbD 0
  let lt := status.getLsbD 1
  match r with
  | .eq => eq
  | .ne => !eq
  | .lt => lt
  | .le => lt || eq
  | .gt => !lt && !eq
  | .ge => !lt

end Sys2Proof.Machine
end

