-- ==== Sys2Proof/Machine/Ops.lean ====
section
/-! DEFINITION. The named operations on the state: reading and writing an operand register (spec/10_state.md
R11 to R14), reading and writing elements of the operand store (spec/20_memory.md R32 to R40), taking
a fault and leaving the faulted condition (spec/60_exceptions.md R163, R167), Reset
(spec/70_reset_and_hazards.md R180), and answering the host. -/

namespace Sys2Proof.Machine

variable {n : Nat}

/-! ## Operand registers -/

/-- `x[r]`, the value of an operand register. -/
def Block.reg (b : Block n) (r : Reg) : BitVec n := b.regs[r]

/-- `x[r] <- v`, a write of all N bits of one register (R12, R14). -/
def Block.setReg (b : Block n) (r : Reg) (v : BitVec n) : Block n := { b with regs := b.regs.set r v }

/-! ## Faults -/

/-- `raise E(w)`: record the code and the command word, and write nothing else (R163). -/
def Block.raise (b : Block n) (e : Exc) (w : Word) : Block n := { b with fcode := e.code, fcmd := w }

/-- `ClrFault()`: leave the faulted condition, and write nothing else (R167). -/
def Block.clearFault (b : Block n) : Block n := { b with fcode := .none, fcmd := 0 }

/-! ## The operand store -/

/-- The byte at address (r, p) of the operand store; `none` beyond storage, p ≥ NB (R32). -/
def Block.byteAt (b : Block n) (r : Reg) (p : Nat) : Option Byte :=
  if p < n / 8 then some (byteOf (b.reg r) p) else none

/-- The byte that stands for a byte beyond storage (R36). -/
def Block.fillByte (b : Block n) (r : Reg) : Fill → Byte
  | .zero => 0x00
  | .sign => if signBit (b.reg r) then 0xFF else 0x00

/-- The bytes `MemRead((r, p), count, fill)` returns, least significant first (R36). -/
def Block.readBytes (b : Block n) (r : Reg) (p count : Nat) (fill : Fill) : List Byte :=
  (List.range count).map fun j => (b.byteAt r (p + j)).getD (b.fillByte r fill)

/-- `MemRead((r, p), count, fill)` (R36). -/
def Block.memRead (b : Block n) (r : Reg) (p count : Nat) (fill : Fill) : BitVec (8 * count) :=
  BitVec.ofNat (8 * count) (ofBytes (b.readBytes r p count fill))

/-- The value of a register after its bytes p to p+count−1 were written with those of `v`, the bytes
beyond storage dropped (R35). -/
def putBytes (x : BitVec n) (p : Nat) {m : Nat} (v : BitVec m) : Nat → BitVec n
  | 0 => x
  | count + 1 =>
    let y := putBytes x p v count
    if p + count < n / 8 then setByte y (p + count) (byteOf v count) else y

/-- `MemWrite((r, p), count, v)` (R35). -/
def Block.memWrite (b : Block n) (r : Reg) (p count : Nat) (v : BitVec (8 * count)) : Block n :=
  b.setReg r (putBytes (b.reg r) p v count)

/-! ## The machine's state -/

/-- The state with another architectural state; width, pending transactions and replies are kept. -/
def State.withBlock (s : State) (b : Block s.width.bits) : State := ⟨s.width, b, s.pending, s.replies⟩

/-- The outcome of a command that leaves the block as `b`. -/
def done (s : State) (b : Block s.width.bits) : Host.Outcome State Fault Refusal := .next (s.withBlock b)

/-- Give the host the result of a read transaction (R31). -/
def State.answer (s : State) (r : Reply) : State := { s with replies := s.replies ++ [r] }

/-- `Issue(w)` of an illegal word, and the outcome of a command that has no legal encoding: raise
IllegalCommand and do nothing else (R162). -/
def illegal (s : State) (w : Word) : Host.Outcome State Fault Refusal :=
  done s (s.block.raise .illegalCommand w)

/-! ## What a host or a statement can see of a state, free of its width -/

/-- `U(x[r])`. -/
def State.uReg (s : State) (r : Reg) : Nat := uval (s.block.reg r)

/-- `S(x[r])`. -/
def State.sReg (s : State) (r : Reg) : Int := sval (s.block.reg r)

/-- `x[r][i]`, false for i ≥ N. -/
def State.bitAt (s : State) (r : Reg) (i : Nat) : Bool := (s.block.reg r).getLsbD i

/-- The byte at address (r, p) of the operand store, `none` beyond storage. -/
def State.byteAt (s : State) (r : Reg) (p : Nat) : Option Byte := s.block.byteAt r p

/-- STATUS as the host reads it. -/
def State.status (s : State) : Word := s.block.status

/-- FCMD. -/
def State.fcmd (s : State) : Word := s.block.fcmd

/-- The level indication `fault = (STATUS.FCODE ≠ 0)` the block offers to the platform (R169). -/
def State.faulted (s : State) : Bool := s.block.faulted

end Sys2Proof.Machine
end

