-- ==== Sys2Proof/Machine/AddSub.lean ====
section
/-! DEFINITION. ADD, SUB, INC, DEC, NEG (spec/42_addsub.md R90 to R94, R96): the exact result, truncated to N
bits; no flag is written and nothing is raised. -/

namespace Sys2Proof.Machine

/-- ADD rd, ra, rb (R90). -/
def execAdd (rd ra rb : Reg) (s : State) : Host.Outcome State Fault Refusal :=
  done s (s.block.setReg rd (trunc _ ((uval (s.block.reg ra) : Int) + uval (s.block.reg rb))))

/-- SUB rd, ra, rb (R91). -/
def execSub (rd ra rb : Reg) (s : State) : Host.Outcome State Fault Refusal :=
  done s (s.block.setReg rd (trunc _ ((uval (s.block.reg ra) : Int) - uval (s.block.reg rb))))

/-- INC rd, ra (R92). -/
def execInc (rd ra : Reg) (s : State) : Host.Outcome State Fault Refusal :=
  done s (s.block.setReg rd (trunc _ ((uval (s.block.reg ra) : Int) + 1)))

/-- DEC rd, ra (R93). -/
def execDec (rd ra : Reg) (s : State) : Host.Outcome State Fault Refusal :=
  done s (s.block.setReg rd (trunc _ ((uval (s.block.reg ra) : Int) - 1)))

/-- NEG rd, ra (R94). -/
def execNeg (rd ra : Reg) (s : State) : Host.Outcome State Fault Refusal :=
  done s (s.block.setReg rd (negate (s.block.reg ra)))

end Sys2Proof.Machine
end

