-- ==== Sys2Proof/Machine/Bitwise.lean ====
section
/-! DEFINITION. AND, OR, XOR, NOT (spec/40_bitwise.md R70 to R73). -/

namespace Sys2Proof.Machine

/-- AND rd, ra, rb (R70). -/
def execAnd (rd ra rb : Reg) (s : State) : Host.Outcome State Fault Refusal :=
  done s (s.block.setReg rd (s.block.reg ra &&& s.block.reg rb))

/-- OR rd, ra, rb (R71). -/
def execOr (rd ra rb : Reg) (s : State) : Host.Outcome State Fault Refusal :=
  done s (s.block.setReg rd (s.block.reg ra ||| s.block.reg rb))

/-- XOR rd, ra, rb (R72). -/
def execXor (rd ra rb : Reg) (s : State) : Host.Outcome State Fault Refusal :=
  done s (s.block.setReg rd (s.block.reg ra ^^^ s.block.reg rb))

/-- NOT rd, ra (R73). -/
def execNot (rd ra : Reg) (s : State) : Host.Outcome State Fault Refusal :=
  done s (s.block.setReg rd (~~~s.block.reg ra))

end Sys2Proof.Machine
end

