-- ==== Sys2Proof/Machine/Compare.lean ====
section
/-! DEFINITION. CMPU and CMPS (spec/45_compare.md R125, R126): they write EQ and LT, both, always. -/

namespace Sys2Proof.Machine

/-- CMPU ra, rb (R125). -/
def execCmpu (ra rb : Reg) (s : State) : Host.Outcome State Fault Refusal :=
  done s (s.block.setFlags (compareU (s.block.reg ra) (s.block.reg rb)))

/-- CMPS ra, rb (R126). -/
def execCmps (ra rb : Reg) (s : State) : Host.Outcome State Fault Refusal :=
  done s (s.block.setFlags (compareS (s.block.reg ra) (s.block.reg rb)))

end Sys2Proof.Machine
end

