-- ==== Sys2Proof/Syntax.lean ====
section
/-! DEFINITION. The 37 commands of FWCORE, one constructor per row of spec/opcode_table.json, in the
table's order, with the operands in the assembler order of spec/30_encoding.md R54 (so the quotient
destination `rd` and the remainder destination `re` stand first in DIVREMU and DIVREMS). -/

namespace Sys2Proof

/-- A command (spec/30_encoding.md R54). -/
inductive Instr where
  -- bitwise (spec/40_bitwise.md)
  | and (rd ra rb : Reg)
  | or (rd ra rb : Reg)
  | xor (rd ra rb : Reg)
  | not (rd ra : Reg)
  -- shifts (spec/41_shift.md)
  | shl (rd ra rb : Reg)
  | shr (rd ra rb : Reg)
  | sar (rd ra rb : Reg)
  | shli (rd ra : Reg) (imm : Imm16)
  | shri (rd ra : Reg) (imm : Imm16)
  | sari (rd ra : Reg) (imm : Imm16)
  -- add, subtract, increment, decrement, negate (spec/42_addsub.md)
  | add (rd ra rb : Reg)
  | sub (rd ra rb : Reg)
  | inc (rd ra : Reg)
  | dec (rd ra : Reg)
  | neg (rd ra : Reg)
  -- multiply (spec/43_multiply.md)
  | mulu (rd ra rb : Reg)
  | muls (rd ra rb : Reg)
  -- divide and remainder (spec/44_divide.md)
  | divu (rd ra rb : Reg)
  | remu (rd ra rb : Reg)
  | divremu (rd re ra rb : Reg)
  | divs (rd ra rb : Reg)
  | rems (rd ra rb : Reg)
  | divrems (rd re ra rb : Reg)
  -- compare (spec/45_compare.md)
  | cmpu (ra rb : Reg)
  | cmps (ra rb : Reg)
  -- construction and extension (spec/46_convert_construct.md)
  | clr (rd : Reg)
  | mov (rd ra : Reg)
  | liu (rd : Reg) (imm : Imm16)
  | lis (rd : Reg) (imm : Imm16)
  | extz (rd ra : Reg) (imm : Imm16)
  | exts (rd ra : Reg) (imm : Imm16)
  | mkmin (rd : Reg)
  | mkmax (rd : Reg)
  -- rotate and bit scan (spec/47_derived_bitops.md)
  | ror (rd ra rb : Reg)
  | fhb (rd ra : Reg)
  | flb (rd ra : Reg)
  | rori (rd ra : Reg) (imm : Imm16)
  deriving DecidableEq, Repr

end Sys2Proof
end

