-- ==== Sys2Proof/WellFormed.lean ====
section
/-! DEFINITION. Which commands have a legal encoding. The fields of `Instr` hold only what an encoding can
hold, so two checks remain (spec/30_encoding.md R55, R56): the destinations of DIVREMU and DIVREMS
differ (spec/44_divide.md R116), and the byte count of EXTZ and EXTS is not zero (spec/46_convert_construct.md
R134, R135). -/

namespace Sys2Proof

/-- DIVREMU or DIVREMS with `rd = re` (R116). -/
def Instr.equalDestinations : Instr → Bool
  | .divremu rd re _ _ | .divrems rd re _ _ => rd == re
  | .and .. | .or .. | .xor .. | .not .. | .shl .. | .shr .. | .sar .. | .shli .. | .shri .. | .sari ..
  | .add .. | .sub .. | .inc .. | .dec .. | .neg .. | .mulu .. | .muls .. | .divu .. | .remu ..
  | .divs .. | .rems .. | .cmpu .. | .cmps .. | .clr .. | .mov .. | .liu .. | .lis .. | .extz ..
  | .exts .. | .mkmin .. | .mkmax .. | .ror .. | .fhb .. | .flb .. | .rori .. => false

/-- EXTZ or EXTS with `imm16 = 0` (R55). -/
def Instr.zeroByteCount : Instr → Bool
  | .extz _ _ imm | .exts _ _ imm => imm == 0
  | .and .. | .or .. | .xor .. | .not .. | .shl .. | .shr .. | .sar .. | .shli .. | .shri .. | .sari ..
  | .add .. | .sub .. | .inc .. | .dec .. | .neg .. | .mulu .. | .muls .. | .divu .. | .remu ..
  | .divremu .. | .divs .. | .rems .. | .divrems .. | .cmpu .. | .cmps .. | .clr .. | .mov .. | .liu ..
  | .lis .. | .mkmin .. | .mkmax .. | .ror .. | .fhb .. | .flb .. | .rori .. => false

/-- The command has a legal encoding (R55). -/
def Instr.wellFormed (i : Instr) : Bool := !i.equalDestinations && !i.zeroByteCount

end Sys2Proof
end

