-- ==== Sys2Proof/Decode.lean ====
section
/-! DEFINITION. Decoding and encoding of command words (spec/30_encoding.md R50 to R56). Decoding is total
on 32-bit words: it gives the one command a word stands for, or rejects the word under the name of
the class of illegal words (R56) it falls in. The encoder is written from the same table. -/

namespace Sys2Proof

/-- The value of the field of a command word that starts at bit `lo` and has `len` bits, `w[lo+len-1:lo]`
(spec/00_scope.md R5). -/
def bits (w : Word) (lo len : Nat) : Nat := w.toNat / 2 ^ lo % 2 ^ len

/-- The opcode `w[31:24]`, the same in every format (R50). -/
def opcodeOf (w : Word) : Nat := bits w 24 8

/-- The register named by the four-bit field that starts at bit `lo` (R52). -/
def regAt (w : Word) (lo : Nat) : Reg := ⟨bits w lo 4, Nat.mod_lt _ (by decide)⟩

/-- `rd = w[23:20]`, the destination (R52). -/
def rdOf (w : Word) : Reg := regAt w 20
/-- `ra = w[19:16]`, the first source (R52). -/
def raOf (w : Word) : Reg := regAt w 16
/-- `rb = w[15:12]`, the second source (R52). -/
def rbOf (w : Word) : Reg := regAt w 12
/-- `re = w[11:8]`, the second destination (R52). -/
def reOf (w : Word) : Reg := regAt w 8
/-- `imm16 = w[15:0]` (R53). -/
def immOf (w : Word) : Imm16 := BitVec.ofNat 16 (bits w 0 16)

/-- The seven formats (R51). -/
inductive Format where
  | reg3 | reg4 | reg2 | reg1 | cmp2 | imm2 | imm1
  deriving DecidableEq, Repr

/-- The fixed-bit mask of a format: a one in every bit the format fixes (R51). -/
def Format.mask : Format → Word
  | .reg3 => 0xFF000FFF
  | .reg4 => 0xFF0000FF
  | .reg2 => 0xFF00FFFF
  | .reg1 => 0xFF0FFFFF
  | .cmp2 => 0xFFF00FFF
  | .imm2 => 0xFF000000
  | .imm1 => 0xFF0F0000

/-- The classes of illegal command words (R56). -/
inductive Illegal where
  /-- `w[31:24]` is not one of the 37 opcodes. -/
  | unassignedOpcode
  /-- The opcode is assigned and a must-be-zero bit of its format is one. -/
  | mustBeZero
  /-- DIVREMU or DIVREMS with `rd = re`. -/
  | equalDestinations
  /-- EXTZ or EXTS with `imm16 = 0`. -/
  | zeroByteCount
  deriving DecidableEq, Repr

/-- The opcode map (R54): the format of an opcode, and the command it selects with the fields read
from `w`; `none` for the other 219 values of the opcode. -/
def commandAt (w : Word) : Nat → Option (Format × Instr)
  | 0x10 => some (.reg3, .and (rdOf w) (raOf w) (rbOf w))
  | 0x11 => some (.reg3, .or (rdOf w) (raOf w) (rbOf w))
  | 0x12 => some (.reg3, .xor (rdOf w) (raOf w) (rbOf w))
  | 0x13 => some (.reg2, .not (rdOf w) (raOf w))
  | 0x20 => some (.reg3, .shl (rdOf w) (raOf w) (rbOf w))
  | 0x21 => some (.reg3, .shr (rdOf w) (raOf w) (rbOf w))
  | 0x22 => some (.reg3, .sar (rdOf w) (raOf w) (rbOf w))
  | 0x28 => some (.imm2, .shli (rdOf w) (raOf w) (immOf w))
  | 0x29 => some (.imm2, .shri (rdOf w) (raOf w) (immOf w))
  | 0x2A => some (.imm2, .sari (rdOf w) (raOf w) (immOf w))
  | 0x30 => some (.reg3, .add (rdOf w) (raOf w) (rbOf w))
  | 0x31 => some (.reg3, .sub (rdOf w) (raOf w) (rbOf w))
  | 0x32 => some (.reg2, .inc (rdOf w) (raOf w))
  | 0x33 => some (.reg2, .dec (rdOf w) (raOf w))
  | 0x34 => some (.reg2, .neg (rdOf w) (raOf w))
  | 0x40 => some (.reg3, .mulu (rdOf w) (raOf w) (rbOf w))
  | 0x41 => some (.reg3, .muls (rdOf w) (raOf w) (rbOf w))
  | 0x50 => some (.reg3, .divu (rdOf w) (raOf w) (rbOf w))
  | 0x51 => some (.reg3, .remu (rdOf w) (raOf w) (rbOf w))
  | 0x52 => some (.reg4, .divremu (rdOf w) (reOf w) (raOf w) (rbOf w))
  | 0x54 => some (.reg3, .divs (rdOf w) (raOf w) (rbOf w))
  | 0x55 => some (.reg3, .rems (rdOf w) (raOf w) (rbOf w))
  | 0x56 => some (.reg4, .divrems (rdOf w) (reOf w) (raOf w) (rbOf w))
  | 0x60 => some (.cmp2, .cmpu (raOf w) (rbOf w))
  | 0x61 => some (.cmp2, .cmps (raOf w) (rbOf w))
  | 0x70 => some (.reg1, .clr (rdOf w))
  | 0x71 => some (.reg2, .mov (rdOf w) (raOf w))
  | 0x72 => some (.imm1, .liu (rdOf w) (immOf w))
  | 0x73 => some (.imm1, .lis (rdOf w) (immOf w))
  | 0x74 => some (.imm2, .extz (rdOf w) (raOf w) (immOf w))
  | 0x75 => some (.imm2, .exts (rdOf w) (raOf w) (immOf w))
  | 0x76 => some (.reg1, .mkmin (rdOf w))
  | 0x77 => some (.reg1, .mkmax (rdOf w))
  | 0x80 => some (.reg3, .ror (rdOf w) (raOf w) (rbOf w))
  | 0x81 => some (.reg2, .fhb (rdOf w) (raOf w))
  | 0x82 => some (.reg2, .flb (rdOf w) (raOf w))
  | 0x88 => some (.imm2, .rori (rdOf w) (raOf w) (immOf w))
  | _ => none

/-- Decoding (R55): the command `w` stands for, or the class of illegal words it falls in. -/
def decode (w : Word) : Except Illegal Instr :=
  match commandAt w (opcodeOf w) with
  | none => .error .unassignedOpcode
  | some (f, i) =>
    if w &&& f.mask ≠ BitVec.ofNat 32 (opcodeOf w * 2 ^ 24) then .error .mustBeZero
    else if i.equalDestinations then .error .equalDestinations
    else if i.zeroByteCount then .error .zeroByteCount
    else .ok i

/-! ## The encoder -/

/-- A word of format REG3 (R51). -/
def reg3 (op : Nat) (rd ra rb : Reg) : Word :=
  BitVec.ofNat 32 (op * 2 ^ 24 + rd.val * 2 ^ 20 + ra.val * 2 ^ 16 + rb.val * 2 ^ 12)
/-- A word of format REG4 (R51). -/
def reg4 (op : Nat) (rd ra rb re : Reg) : Word :=
  BitVec.ofNat 32
    (op * 2 ^ 24 + rd.val * 2 ^ 20 + ra.val * 2 ^ 16 + rb.val * 2 ^ 12 + re.val * 2 ^ 8)
/-- A word of format REG2 (R51). -/
def reg2 (op : Nat) (rd ra : Reg) : Word :=
  BitVec.ofNat 32 (op * 2 ^ 24 + rd.val * 2 ^ 20 + ra.val * 2 ^ 16)
/-- A word of format REG1 (R51). -/
def reg1 (op : Nat) (rd : Reg) : Word := BitVec.ofNat 32 (op * 2 ^ 24 + rd.val * 2 ^ 20)
/-- A word of format CMP2 (R51). -/
def cmp2 (op : Nat) (ra rb : Reg) : Word :=
  BitVec.ofNat 32 (op * 2 ^ 24 + ra.val * 2 ^ 16 + rb.val * 2 ^ 12)
/-- A word of format IMM2 (R51). -/
def imm2 (op : Nat) (rd ra : Reg) (imm : Imm16) : Word :=
  BitVec.ofNat 32 (op * 2 ^ 24 + rd.val * 2 ^ 20 + ra.val * 2 ^ 16 + imm.toNat)
/-- A word of format IMM1 (R51). -/
def imm1 (op : Nat) (rd : Reg) (imm : Imm16) : Word :=
  BitVec.ofNat 32 (op * 2 ^ 24 + rd.val * 2 ^ 20 + imm.toNat)

/-- The command word of a command, from the opcode map and the formats (R51, R54). -/
def encode : Instr → Word
  | .and rd ra rb => reg3 0x10 rd ra rb
  | .or rd ra rb => reg3 0x11 rd ra rb
  | .xor rd ra rb => reg3 0x12 rd ra rb
  | .not rd ra => reg2 0x13 rd ra
  | .shl rd ra rb => reg3 0x20 rd ra rb
  | .shr rd ra rb => reg3 0x21 rd ra rb
  | .sar rd ra rb => reg3 0x22 rd ra rb
  | .shli rd ra imm => imm2 0x28 rd ra imm
  | .shri rd ra imm => imm2 0x29 rd ra imm
  | .sari rd ra imm => imm2 0x2A rd ra imm
  | .add rd ra rb => reg3 0x30 rd ra rb
  | .sub rd ra rb => reg3 0x31 rd ra rb
  | .inc rd ra => reg2 0x32 rd ra
  | .dec rd ra => reg2 0x33 rd ra
  | .neg rd ra => reg2 0x34 rd ra
  | .mulu rd ra rb => reg3 0x40 rd ra rb
  | .muls rd ra rb => reg3 0x41 rd ra rb
  | .divu rd ra rb => reg3 0x50 rd ra rb
  | .remu rd ra rb => reg3 0x51 rd ra rb
  | .divremu rd re ra rb => reg4 0x52 rd ra rb re
  | .divs rd ra rb => reg3 0x54 rd ra rb
  | .rems rd ra rb => reg3 0x55 rd ra rb
  | .divrems rd re ra rb => reg4 0x56 rd ra rb re
  | .cmpu ra rb => cmp2 0x60 ra rb
  | .cmps ra rb => cmp2 0x61 ra rb
  | .clr rd => reg1 0x70 rd
  | .mov rd ra => reg2 0x71 rd ra
  | .liu rd imm => imm1 0x72 rd imm
  | .lis rd imm => imm1 0x73 rd imm
  | .extz rd ra imm => imm2 0x74 rd ra imm
  | .exts rd ra imm => imm2 0x75 rd ra imm
  | .mkmin rd => reg1 0x76 rd
  | .mkmax rd => reg1 0x77 rd
  | .ror rd ra rb => reg3 0x80 rd ra rb
  | .fhb rd ra => reg2 0x81 rd ra
  | .flb rd ra => reg2 0x82 rd ra
  | .rori rd ra imm => imm2 0x88 rd ra imm

/-- What the decoder reads from a word given as a number, bit 0 the least significant. A command is one
32-bit word, handed over as a number (R38, R50), so there is no byte order to undo. -/
def decodeTableWord (nbits w : Nat) : Option Instr :=
  match decode (BitVec.ofNat 32 (w % 2 ^ nbits)) with
  | .ok i => some i
  | .error _ => none

end Sys2Proof
end

