-- ==== Sys2Proof/Machine/Construct.lean ====
section
/-! DEFINITION. CLR, MOV, LIU, LIS, EXTZ, EXTS, MKMIN, MKMAX (spec/46_convert_construct.md R130 to R137). -/

namespace Sys2Proof.Machine

variable {n : Nat}

/-- The zero extension of the low `nb` bytes of a value, or the value itself for nb ≥ NB (R134). -/
def extendZero (a : BitVec n) (nb : Nat) : BitVec n := zext n (a.extractLsb' 0 (8 * min nb (n / 8)))

/-- The sign extension of the low `nb` bytes of a value, or the value itself for nb ≥ NB (R135). -/
def extendSign (a : BitVec n) (nb : Nat) : BitVec n := sext n (a.extractLsb' 0 (8 * min nb (n / 8)))

/-- The signed minimum, exactly bit N−1 set (R136). -/
def minValue (n : Nat) : BitVec n := trunc n ((2 ^ (n - 1) : Nat) : Int)

/-- The signed maximum, 2^(N−1) − 1 (R137). -/
def maxValue (n : Nat) : BitVec n := trunc n ((2 ^ (n - 1) - 1 : Nat) : Int)

/-- CLR rd (R130). -/
def execClr (rd : Reg) (s : State) : Host.Outcome State Fault Refusal :=
  done s (s.block.setReg rd 0)

/-- MOV rd, ra (R131). -/
def execMov (rd ra : Reg) (s : State) : Host.Outcome State Fault Refusal :=
  done s (s.block.setReg rd (s.block.reg ra))

/-- LIU rd, imm16 (R132). -/
def execLiu (rd : Reg) (imm : Imm16) (s : State) : Host.Outcome State Fault Refusal :=
  done s (s.block.setReg rd (zext _ imm))

/-- LIS rd, imm16 (R133). -/
def execLis (rd : Reg) (imm : Imm16) (s : State) : Host.Outcome State Fault Refusal :=
  done s (s.block.setReg rd (sext _ imm))

/-- EXTZ rd, ra, imm16 (R134). With imm16 = 0 it is an illegal command (spec/30_encoding.md R55). -/
def execExtz (rd ra : Reg) (imm : Imm16) (s : State) : Host.Outcome State Fault Refusal :=
  if imm = 0 then illegal s (encode (.extz rd ra imm))
  else done s (s.block.setReg rd (extendZero (s.block.reg ra) (immU imm)))

/-- EXTS rd, ra, imm16 (R135). With imm16 = 0 it is an illegal command (spec/30_encoding.md R55). -/
def execExts (rd ra : Reg) (imm : Imm16) (s : State) : Host.Outcome State Fault Refusal :=
  if imm = 0 then illegal s (encode (.exts rd ra imm))
  else done s (s.block.setReg rd (extendSign (s.block.reg ra) (immU imm)))

/-- MKMIN rd (R136). -/
def execMkmin (rd : Reg) (s : State) : Host.Outcome State Fault Refusal :=
  done s (s.block.setReg rd (minValue _))

/-- MKMAX rd (R137). -/
def execMkmax (rd : Reg) (s : State) : Host.Outcome State Fault Refusal :=
  done s (s.block.setReg rd (maxValue _))

end Sys2Proof.Machine
end

