-- ==== Sys2Proof/Machine/Multiply.lean ====
section
/-! DEFINITION. MULU and MULS (spec/43_multiply.md R100, R101): the low N bits of the product. -/

namespace Sys2Proof.Machine

variable {n : Nat}

/-- The unsigned product modulo 2^N (R100). -/
def mulU (a b : BitVec n) : BitVec n := trunc n ((uval a * uval b : Nat) : Int)

/-- The magnitude of a value in the signed view, read as unsigned (R101, spec/44_divide.md R121). -/
def magnitude (a : BitVec n) : BitVec n := if signBit a then negate a else a

/-- The document's negate, multiply, negate-back pattern (R101). -/
def mulS (a b : BitVec n) : BitVec n :=
  let p := mulU (magnitude a) (magnitude b)
  if signBit a ^^ signBit b then negate p else p

/-- MULU rd, ra, rb (R100). -/
def execMulu (rd ra rb : Reg) (s : State) : Host.Outcome State Fault Refusal :=
  done s (s.block.setReg rd (mulU (s.block.reg ra) (s.block.reg rb)))

/-- MULS rd, ra, rb (R101). -/
def execMuls (rd ra rb : Reg) (s : State) : Host.Outcome State Fault Refusal :=
  done s (s.block.setReg rd (mulS (s.block.reg ra) (s.block.reg rb)))

end Sys2Proof.Machine
end

