-- ==== Sys2Proof/Machine/Divide.lean ====
section
/-! DEFINITION. DIVU, REMU, DIVREMU, DIVS, REMS, DIVREMS (spec/44_divide.md R110 to R117, R121, R122). The
command word a fault records is the encoding of the command: a command word and the command it
stands for determine each other (notes/assumptions/7.md). -/

namespace Sys2Proof.Machine

variable {n : Nat}

/-- `udivrem_N(a, b)`, the pair of quotient and remainder; evaluated for U(b) ≠ 0 only (R110). -/
def udivrem (a b : BitVec n) : BitVec n × BitVec n :=
  (trunc n ((uval a / uval b : Nat) : Int), trunc n ((uval a % uval b : Nat) : Int))

/-- `sdivrem_N(a, b)` by the negate-compute-renegate pattern; evaluated for U(b) ≠ 0 only (R121). -/
def sdivrem (a b : BitVec n) : BitVec n × BitVec n :=
  let (uq, ur) := udivrem (magnitude a) (magnitude b)
  (if signBit a ^^ signBit b then negate uq else uq, if signBit a then negate ur else ur)

/-- The test each division command makes first: with a zero divisor it raises DivisionByZero with its
own command word `w` and writes nothing else, otherwise it leaves the block as `b` (R122). -/
def unlessZero (s : State) (w : Word) (rb : Reg) (b : Block s.width.bits) :
    Host.Outcome State Fault Refusal :=
  if uval (s.block.reg rb) = 0 then done s (s.block.raise .divisionByZero w) else done s b

/-- DIVU rd, ra, rb (R111). -/
def execDivu (rd ra rb : Reg) (s : State) : Host.Outcome State Fault Refusal :=
  unlessZero s (encode (.divu rd ra rb)) rb
    (s.block.setReg rd (udivrem (s.block.reg ra) (s.block.reg rb)).1)

/-- REMU rd, ra, rb (R112). -/
def execRemu (rd ra rb : Reg) (s : State) : Host.Outcome State Fault Refusal :=
  unlessZero s (encode (.remu rd ra rb)) rb
    (s.block.setReg rd (udivrem (s.block.reg ra) (s.block.reg rb)).2)

/-- DIVREMU rd, re, ra, rb (R113). With rd = re it is an illegal command (R116). -/
def execDivremu (rd re ra rb : Reg) (s : State) : Host.Outcome State Fault Refusal :=
  let qr := udivrem (s.block.reg ra) (s.block.reg rb)
  if rd = re then illegal s (encode (.divremu rd re ra rb))
  else unlessZero s (encode (.divremu rd re ra rb)) rb ((s.block.setReg rd qr.1).setReg re qr.2)

/-- DIVS rd, ra, rb (R114). -/
def execDivs (rd ra rb : Reg) (s : State) : Host.Outcome State Fault Refusal :=
  unlessZero s (encode (.divs rd ra rb)) rb
    (s.block.setReg rd (sdivrem (s.block.reg ra) (s.block.reg rb)).1)

/-- REMS rd, ra, rb (R115). -/
def execRems (rd ra rb : Reg) (s : State) : Host.Outcome State Fault Refusal :=
  unlessZero s (encode (.rems rd ra rb)) rb
    (s.block.setReg rd (sdivrem (s.block.reg ra) (s.block.reg rb)).2)

/-- DIVREMS rd, re, ra, rb (R117). With rd = re it is an illegal command (R116). -/
def execDivrems (rd re ra rb : Reg) (s : State) : Host.Outcome State Fault Refusal :=
  let qr := sdivrem (s.block.reg ra) (s.block.reg rb)
  if rd = re then illegal s (encode (.divrems rd re ra rb))
  else unlessZero s (encode (.divrems rd re ra rb)) rb ((s.block.setReg rd qr.1).setReg re qr.2)

end Sys2Proof.Machine
end

