-- ==== Sys2Proof/Machine/Shift.lean ====
section
/-! DEFINITION. SHL, SHR, SAR, SHLI, SHRI, SARI (spec/41_shift.md R80 to R86, R89). -/

namespace Sys2Proof.Machine

variable {n : Nat}

/-- `shl_N(a, s)` (R80). -/
def shiftLeft (a : BitVec n) (s : Nat) : BitVec n :=
  if s < n then trunc n ((uval a * 2 ^ s : Nat) : Int) else 0

/-- `shr_N(a, s)` (R80). -/
def shiftRight (a : BitVec n) (s : Nat) : BitVec n :=
  if s < n then trunc n ((uval a / 2 ^ s : Nat) : Int) else 0

/-- `ones_high(v)`: bits N−1 down to N−v are 1 and all others 0 (R80). -/
def onesHigh (n v : Nat) : BitVec n := trunc n ((2 ^ n - 2 ^ (n - v) : Nat) : Int)

/-- `sar_N(a, s)` (R80). -/
def shiftArith (a : BitVec n) (s : Nat) : BitVec n :=
  if signBit a then shiftRight a s ||| onesHigh n (min s n) else shiftRight a s

/-- SHL rd, ra, rb (R81); the amount is the unsigned value of the whole register rb (R89). -/
def execShl (rd ra rb : Reg) (s : State) : Host.Outcome State Fault Refusal :=
  done s (s.block.setReg rd (shiftLeft (s.block.reg ra) (uval (s.block.reg rb))))

/-- SHR rd, ra, rb (R82). -/
def execShr (rd ra rb : Reg) (s : State) : Host.Outcome State Fault Refusal :=
  done s (s.block.setReg rd (shiftRight (s.block.reg ra) (uval (s.block.reg rb))))

/-- SAR rd, ra, rb (R83). -/
def execSar (rd ra rb : Reg) (s : State) : Host.Outcome State Fault Refusal :=
  done s (s.block.setReg rd (shiftArith (s.block.reg ra) (uval (s.block.reg rb))))

/-- SHLI rd, ra, imm16 (R84). -/
def execShli (rd ra : Reg) (imm : Imm16) (s : State) : Host.Outcome State Fault Refusal :=
  done s (s.block.setReg rd (shiftLeft (s.block.reg ra) (immU imm)))

/-- SHRI rd, ra, imm16 (R85). -/
def execShri (rd ra : Reg) (imm : Imm16) (s : State) : Host.Outcome State Fault Refusal :=
  done s (s.block.setReg rd (shiftRight (s.block.reg ra) (immU imm)))

/-- SARI rd, ra, imm16 (R86). -/
def execSari (rd ra : Reg) (imm : Imm16) (s : State) : Host.Outcome State Fault Refusal :=
  done s (s.block.setReg rd (shiftArith (s.block.reg ra) (immU imm)))

end Sys2Proof.Machine
end

