-- ==== Sys2Proof/Machine/RotateScan.lean ====
section
/-! DEFINITION. ROR, RORI, FHB, FLB (spec/47_derived_bitops.md R145 to R148). -/

namespace Sys2Proof.Machine

variable {n : Nat}

/-- The rotation right by `amount` bits, the amount reduced modulo N (R145). -/
def rotateRight (a : BitVec n) (amount : Nat) : BitVec n :=
  let r := amount % n
  if r = 0 then a else shiftRight a r ||| shiftLeft a (n - r)

/-- The largest i < k with `v[i] = 1` (`fhb`, spec/00_scope.md R6). -/
def highestBelow (v : BitVec n) : Nat → Option Nat
  | 0 => none
  | k + 1 => if v.getLsbD k then some k else highestBelow v k

/-- The smallest i < k with `v[i] = 1` (`flb`, spec/00_scope.md R6). -/
def lowestBelow (v : BitVec n) : Nat → Option Nat
  | 0 => none
  | k + 1 =>
    match lowestBelow v k with
    | some i => some i
    | none => if v.getLsbD k then some k else none

/-- A bit index as an N-bit unsigned integer, all ones for "no bit set" (R147, R148). -/
def indexOrOnes (n : Nat) : Option Nat → BitVec n
  | some i => trunc n i
  | none => ones n

/-- ROR rd, ra, rb (R145); the amount is the unsigned value of the whole register rb. -/
def execRor (rd ra rb : Reg) (s : State) : Host.Outcome State Fault Refusal :=
  done s (s.block.setReg rd (rotateRight (s.block.reg ra) (uval (s.block.reg rb))))

/-- RORI rd, ra, imm16 (R146). -/
def execRori (rd ra : Reg) (imm : Imm16) (s : State) : Host.Outcome State Fault Refusal :=
  done s (s.block.setReg rd (rotateRight (s.block.reg ra) (immU imm)))

/-- FHB rd, ra (R147). -/
def execFhb (rd ra : Reg) (s : State) : Host.Outcome State Fault Refusal :=
  done s (s.block.setReg rd (indexOrOnes _ (highestBelow (s.block.reg ra) s.width.bits)))

/-- FLB rd, ra (R148). -/
def execFlb (rd ra : Reg) (s : State) : Host.Outcome State Fault Refusal :=
  done s (s.block.setReg rd (indexOrOnes _ (lowestBelow (s.block.reg ra) s.width.bits)))

end Sys2Proof.Machine
end

