-- ==== Sys2Proof/Machine/Dispatch.lean ====
section
/-! DEFINITION. The dispatch of a command to its meaning, one arm per row of spec/opcode_table.json. -/

namespace Sys2Proof.Machine

/-- The execution of one command (spec/30_encoding.md R54). -/
def exec (i : Instr) (s : State) : Host.Outcome State Fault Refusal :=
    match i with
    -- 40_bitwise.md
    | .and rd ra rb => Sys2Proof.Machine.execAnd rd ra rb s
    | .or rd ra rb => Sys2Proof.Machine.execOr rd ra rb s
    | .xor rd ra rb => Sys2Proof.Machine.execXor rd ra rb s
    | .not rd ra => Sys2Proof.Machine.execNot rd ra s
    -- 41_shift.md
    | .shl rd ra rb => Sys2Proof.Machine.execShl rd ra rb s
    | .shr rd ra rb => Sys2Proof.Machine.execShr rd ra rb s
    | .sar rd ra rb => Sys2Proof.Machine.execSar rd ra rb s
    | .shli rd ra imm => Sys2Proof.Machine.execShli rd ra imm s
    | .shri rd ra imm => Sys2Proof.Machine.execShri rd ra imm s
    | .sari rd ra imm => Sys2Proof.Machine.execSari rd ra imm s
    -- 42_addsub.md
    | .add rd ra rb => Sys2Proof.Machine.execAdd rd ra rb s
    | .sub rd ra rb => Sys2Proof.Machine.execSub rd ra rb s
    | .inc rd ra => Sys2Proof.Machine.execInc rd ra s
    | .dec rd ra => Sys2Proof.Machine.execDec rd ra s
    | .neg rd ra => Sys2Proof.Machine.execNeg rd ra s
    -- 43_multiply.md
    | .mulu rd ra rb => Sys2Proof.Machine.execMulu rd ra rb s
    | .muls rd ra rb => Sys2Proof.Machine.execMuls rd ra rb s
    -- 44_divide.md
    | .divu rd ra rb => Sys2Proof.Machine.execDivu rd ra rb s
    | .remu rd ra rb => Sys2Proof.Machine.execRemu rd ra rb s
    | .divremu rd re ra rb => Sys2Proof.Machine.execDivremu rd re ra rb s
    | .divs rd ra rb => Sys2Proof.Machine.execDivs rd ra rb s
    | .rems rd ra rb => Sys2Proof.Machine.execRems rd ra rb s
    | .divrems rd re ra rb => Sys2Proof.Machine.execDivrems rd re ra rb s
    -- 45_compare.md
    | .cmpu ra rb => Sys2Proof.Machine.execCmpu ra rb s
    | .cmps ra rb => Sys2Proof.Machine.execCmps ra rb s
    -- 46_convert_construct.md
    | .clr rd => Sys2Proof.Machine.execClr rd s
    | .mov rd ra => Sys2Proof.Machine.execMov rd ra s
    | .liu rd imm => Sys2Proof.Machine.execLiu rd imm s
    | .lis rd imm => Sys2Proof.Machine.execLis rd imm s
    | .extz rd ra imm => Sys2Proof.Machine.execExtz rd ra imm s
    | .exts rd ra imm => Sys2Proof.Machine.execExts rd ra imm s
    | .mkmin rd => Sys2Proof.Machine.execMkmin rd s
    | .mkmax rd => Sys2Proof.Machine.execMkmax rd s
    -- 47_derived_bitops.md
    | .ror rd ra rb => Sys2Proof.Machine.execRor rd ra rb s
    | .fhb rd ra => Sys2Proof.Machine.execFhb rd ra s
    | .flb rd ra => Sys2Proof.Machine.execFlb rd ra s
    | .rori rd ra imm => Sys2Proof.Machine.execRori rd ra imm s

end Sys2Proof.Machine
end

