-- ==== Sys2Proof/Machine/Transact.lean ====
section
/-! DEFINITION. The seven host transactions (spec/20_memory.md R31) and what stands first in the host's
stream. -/

namespace Sys2Proof.Machine

/-- `Issue(w)`: dropped while the block is faulted; otherwise the one command `w` stands for is executed,
or IllegalCommand is raised (spec/20_memory.md R34; spec/60_exceptions.md R162, R164). -/
def issue (w : Word) (s : State) : Host.Outcome State Fault Refusal :=
  if s.faulted then .next s
  else
    match decode w with
    | .ok i => exec i s
    | .error _ => illegal s w

/-- The effect of one transaction (R31). The read transactions answer the host and change nothing
else (R36, R37). -/
def transact (t : Transaction) (s : State) : Host.Outcome State Fault Refusal :=
  match t with
  | .reset draw => done s (Block.afterReset s.width.bits draw)
  | .issue w => issue w s
  | .wrElem r e k v => done s (s.block.memWrite r (k * e.bytes) e.bytes v)
  | .rdElem r e k fill => .next (s.answer (.elem e (s.block.memRead r (k * e.bytes) e.bytes fill)))
  | .rdStatus => .next (s.answer (.status s.status))
  | .rdFcmd => .next (s.answer (.fcmd s.fcmd))
  | .clrFault => done s s.block.clearFault

/-- The transaction the host presents next, and the state without it; `none` while the host presents
nothing (R31). -/
def nextTransaction (s : State) : Option (Transaction × State) :=
  match s.pending with
  | [] => none
  | t :: rest => some (t, { s with pending := rest })

/-- The state in which the host presents `t` before everything it was about to present. -/
def State.present (t : Transaction) (s : State) : State := { s with pending := t :: s.pending }

end Sys2Proof.Machine
end

