-- ==== Sys2Proof/Machine/Step.lean ====
section
/-! DEFINITION. One step of the machine: one transaction of the host (spec/20_memory.md R31). -/

namespace Sys2Proof.Machine

/-- The next transaction of the host is performed as a whole (R31). While the host presents none, the
block holds its state unchanged (spec/60_exceptions.md R175). -/
def step (s : State) : Host.Outcome State Fault Refusal :=
  match nextTransaction s with
  | none => .next s
  | some (t, s') => transact t s'

/-- The state in which the host's next transaction is `Issue(w)` with the given word; nothing else changes
(notes/assumptions/6.md). -/
def State.withFetchWord (s : State) (nbits w : Nat) : State :=
  s.present (.issue (BitVec.ofNat 32 (w % 2 ^ nbits)))

end Sys2Proof.Machine
end

