-- ==== Sys2Proof/Machine/Assembler.lean ====
section
/-! DEFINITION. The textual form of a command (spec/30_encoding.md R58): the mnemonic, a space, and the operands
in the assembler order, separated by a comma and a space. Nothing in the block depends on it. -/

namespace Sys2Proof.Machine

/-- A register as text, `x0` to `x15` (R58). -/
def regText (r : Reg) : String := "x" ++ toString r.val

/-- An immediate as text, in decimal (R58; notes/assumptions/14.md). -/
def immText (imm : Imm16) : String := toString imm.toNat

/-- Mnemonic and operands on one line (R58). -/
def line (mnemonic : String) (operands : List String) : String :=
  mnemonic ++ " " ++ ", ".intercalate operands

/-- The assembler line of a command (R58). -/
def text : Instr → String
  | .and rd ra rb => line "AND" [regText rd, regText ra, regText rb]
  | .or rd ra rb => line "OR" [regText rd, regText ra, regText rb]
  | .xor rd ra rb => line "XOR" [regText rd, regText ra, regText rb]
  | .not rd ra => line "NOT" [regText rd, regText ra]
  | .shl rd ra rb => line "SHL" [regText rd, regText ra, regText rb]
  | .shr rd ra rb => line "SHR" [regText rd, regText ra, regText rb]
  | .sar rd ra rb => line "SAR" [regText rd, regText ra, regText rb]
  | .shli rd ra imm => line "SHLI" [regText rd, regText ra, immText imm]
  | .shri rd ra imm => line "SHRI" [regText rd, regText ra, immText imm]
  | .sari rd ra imm => line "SARI" [regText rd, regText ra, immText imm]
  | .add rd ra rb => line "ADD" [regText rd, regText ra, regText rb]
  | .sub rd ra rb => line "SUB" [regText rd, regText ra, regText rb]
  | .inc rd ra => line "INC" [regText rd, regText ra]
  | .dec rd ra => line "DEC" [regText rd, regText ra]
  | .neg rd ra => line "NEG" [regText rd, regText ra]
  | .mulu rd ra rb => line "MULU" [regText rd, regText ra, regText rb]
  | .muls rd ra rb => line "MULS" [regText rd, regText ra, regText rb]
  | .divu rd ra rb => line "DIVU" [regText rd, regText ra, regText rb]
  | .remu rd ra rb => line "REMU" [regText rd, regText ra, regText rb]
  | .divremu rd re ra rb => line "DIVREMU" [regText rd, regText re, regText ra, regText rb]
  | .divs rd ra rb => line "DIVS" [regText rd, regText ra, regText rb]
  | .rems rd ra rb => line "REMS" [regText rd, regText ra, regText rb]
  | .divrems rd re ra rb => line "DIVREMS" [regText rd, regText re, regText ra, regText rb]
  | .cmpu ra rb => line "CMPU" [regText ra, regText rb]
  | .cmps ra rb => line "CMPS" [regText ra, regText rb]
  | .clr rd => line "CLR" [regText rd]
  | .mov rd ra => line "MOV" [regText rd, regText ra]
  | .liu rd imm => line "LIU" [regText rd, immText imm]
  | .lis rd imm => line "LIS" [regText rd, immText imm]
  | .extz rd ra imm => line "EXTZ" [regText rd, regText ra, immText imm]
  | .exts rd ra imm => line "EXTS" [regText rd, regText ra, immText imm]
  | .mkmin rd => line "MKMIN" [regText rd]
  | .mkmax rd => line "MKMAX" [regText rd]
  | .ror rd ra rb => line "ROR" [regText rd, regText ra, regText rb]
  | .fhb rd ra => line "FHB" [regText rd, regText ra]
  | .flb rd ra => line "FLB" [regText rd, regText ra]
  | .rori rd ra imm => line "RORI" [regText rd, regText ra, immText imm]

end Sys2Proof.Machine
end

