-- ==== Sys2Proof/Machine/HostSequences.lean ====
section
/-! DEFINITION. The document's conversions as sequences of host transactions (spec/46_convert_construct.md R138,
R139), the two pseudo-instructions (spec/30_encoding.md R59), and the host's command sequences for the derived
math that is no command (spec/47_derived_bitops.md R150 to R152). -/

namespace Sys2Proof.Machine

/-- `Issue` of a command. -/
def issueOf (i : Instr) : Transaction := .issue (encode i)

/-- Construction from an unsigned native integer of e bits (R138). -/
def constructUnsigned (r : Reg) (e : ElemWidth) (v : BitVec e.bits) : List Transaction :=
  [issueOf (.clr r), .wrElem r e 0 v]

/-- Construction from a signed native integer of e bits (R138). -/
def constructSigned (r : Reg) (e : ElemWidth) (v : BitVec e.bits) : List Transaction :=
  [.wrElem r e 0 v, issueOf (.exts r r (BitVec.ofNat 16 e.bytes))]

/-- One WrElem per element of a raw array, from element index `k` on (R33). -/
def writeArray (r : Reg) (e : ElemWidth) : (k : Nat) → List (BitVec e.bits) → List Transaction
  | _, [] => []
  | k, v :: vs => .wrElem r e k v :: writeArray r e (k + 1) vs

/-- Construction from a raw array of elements, element 0 the least significant (R138). With 32-bit
elements it is the unsigned widening or the narrowing of R139. -/
def importArray (r : Reg) (e : ElemWidth) (vs : List (BitVec e.bits)) : List Transaction :=
  issueOf (.clr r) :: writeArray r e 0 vs

/-- Signed widening of a value of 32·m bits, m its number of words: the word writes, then EXTS with byte
count 4·m (R139). -/
def widenSigned (r : Reg) (words : List Word) : List Transaction :=
  writeArray r .w32 0 words ++ [issueOf (.exts r r (BitVec.ofNat 16 (4 * words.length)))]

/-- The pseudo-instructions (R59). -/
inductive Pseudo where
  /-- `LI rd, k`. -/
  | li (rd : Reg) (k : Int)
  /-- `SETONES rd`. -/
  | setones (rd : Reg)
  deriving DecidableEq, Repr

/-- The one command a pseudo-instruction expands to; `none` for a constant outside −32768..65535 (R59). -/
def Pseudo.expand : Pseudo → Option Instr
  | .li rd k =>
    if 0 ≤ k ∧ k ≤ 65535 then some (.liu rd (BitVec.ofInt 16 k))
    else if -32768 ≤ k ∧ k ≤ -1 then some (.lis rd (BitVec.ofInt 16 (k + 65536)))
    else none
  | .setones rd => some (.lis rd 0xFFFF)

/-! ## Derived math left to the host -/

/-- "Exactly one bit set, or zero" of x1, left in EQ, with x2 and x3 as scratch (R152). -/
def oneBitTest : List Transaction := [issueOf (.fhb 2 1), issueOf (.flb 3 1), issueOf (.cmpu 2 3)]

/-- The multiplications by `k`, `k`+1, …, `count` of them, the loop counter kept by the host
(spec/95_test_vectors.md program P6). -/
def factorialRounds : (count k : Nat) → List Transaction
  | 0, _ => []
  | count + 1, k =>
    issueOf (.liu 2 (BitVec.ofNat 16 k)) :: issueOf (.mulu 1 1 2) :: factorialRounds count (k + 1)

/-- The factorial of `m` in x1, for m ≤ 65535 (R151, program P6). -/
def factorialSequence (m : Nat) : List Transaction := issueOf (.liu 1 1) :: factorialRounds (m - 1) 2

/-- The host presents the given transactions and waits until they are done. -/
def State.perform (s : State) (ts : List Transaction) : Host.Outcome State Fault Refusal :=
  Host.Core.run Sys2Proof.core ts.length { s with pending := ts ++ s.pending }

/-- LT in the value of STATUS the host was given last. -/
def State.sawLess (s : State) : Bool :=
  match s.replies.getLast? with
  | some (.status v) => Relation.lt.ofStatus v
  | _ => false

/-- The seed of the square root of a nonzero x1, left in x3 (R150). -/
def sqrtSeed : List Transaction := [issueOf (.fhb 2 1), issueOf (.shri 2 2 1), issueOf (.shr 3 1 2)]

/-- One round of the Newton iteration: the next estimate in x4, compared with x3 (R150). -/
def sqrtRound : List Transaction :=
  [issueOf (.divu 4 1 3), issueOf (.add 4 4 3), issueOf (.shri 4 4 1), issueOf (.cmpu 4 3), .rdStatus]

/-- The host's loop: rounds are repeated, at most `fuel` of them, while LT is read as 1 (R150). -/
def sqrtLoop : (fuel : Nat) → State → Host.Outcome State Fault Refusal
  | 0, s => .next s
  | fuel + 1, s =>
    match s.perform sqrtRound with
    | .next t =>
      if t.sawLess then
        match t.perform [issueOf (.mov 3 4)] with
        | .next u => sqrtLoop fuel u
        | o => o
      else .next t
    | o => o

end Sys2Proof.Machine
end

