-- ==== Sys2Proof/Machine/Reference.lean ====
section
/-! DEFINITION. The word-level and reference algorithms the spec gives so that a model can be checked against
them: shifts (spec/41_shift.md R87), the ripple adder and subtractor, increment and decrement
(spec/42_addsub.md R92, R93, R95), shift-and-add multiplication (spec/43_multiply.md R102), restoring and
small-divisor division (spec/44_divide.md R118), comparison (spec/45_compare.md R125, R126), rotation
(spec/47_derived_bitops.md R149) and bit scan (R147). None of them is executed by a command: only results
are architectural (R103, R119). -/

namespace Sys2Proof.Machine

variable {n : Nat}

/-- The N-bit value of the words `D[0]`, `D[1]`, … (spec/10_state.md R10). -/
def fromWords (n : Nat) (ds : List Word) : BitVec n := BitVec.ofNat n (ofWords ds)

/-- `A[i]` with `A[i] = 0` for every i outside 0 ≤ i < W (R87). -/
def wordAtInt (a : BitVec n) (i : Int) : Word := if i < 0 then 0 else wordOf a i.toNat

/-- The word-level left shift (R87), for s < N. -/
def wordShiftLeft (a : BitVec n) (s : Nat) : BitVec n :=
  let wo := s / 32
  let bo := s % 32
  fromWords n <| (List.range (n / 32)).map fun i =>
    if bo = 0 then wordAtInt a (i - wo)
    else (wordAtInt a (i - wo) <<< bo) ||| (wordAtInt a (i - wo - 1) >>> (32 - bo))

/-- The word-level logical right shift (R87), for s < N. -/
def wordShiftRight (a : BitVec n) (s : Nat) : BitVec n :=
  let wo := s / 32
  let bo := s % 32
  fromWords n <| (List.range (n / 32)).map fun i =>
    if bo = 0 then wordAtInt a (i + wo)
    else (wordAtInt a (i + wo) >>> bo) ||| (wordAtInt a (i + wo + 1) <<< (32 - bo))

/-- The ripple adder (R95): the words D[i], D[i+1], … for `count` words, carry `c` into word i. -/
def rippleAddWords (a b : BitVec n) : (count i : Nat) → (c : Bool) → List Word
  | 0, _, _ => []
  | count + 1, i, c =>
    let s := wordOf a i + wordOf b i + BitVec.ofNat 32 c.toNat
    let c' := if c then decide (s ≤ wordOf a i) else decide (s < wordOf a i)
    s :: rippleAddWords a b count (i + 1) c'

/-- The word-level form of ADD (R95). -/
def rippleAdd (a b : BitVec n) : BitVec n := fromWords n (rippleAddWords a b (n / 32) 0 false)

/-- The ripple subtractor (R95), borrow `c` into word i. -/
def rippleSubWords (a b : BitVec n) : (count i : Nat) → (c : Bool) → List Word
  | 0, _, _ => []
  | count + 1, i, c =>
    let d := wordOf a i - wordOf b i - BitVec.ofNat 32 c.toNat
    let c' := if c then decide (d ≥ wordOf a i) else decide (d > wordOf a i)
    d :: rippleSubWords a b count (i + 1) c'

/-- The word-level form of SUB (R95). -/
def rippleSub (a b : BitVec n) : BitVec n := fromWords n (rippleSubWords a b (n / 32) 0 false)

/-- The words of INC from word i on (R92): add 1 and go on only if the result is 0. -/
def incWords (a : BitVec n) : (count i : Nat) → (go : Bool) → List Word
  | 0, _, _ => []
  | count + 1, i, go =>
    let d := if go then wordOf a i + 1 else wordOf a i
    d :: incWords a count (i + 1) (go && d == 0)

/-- The word-level form of INC (R92). -/
def wordInc (a : BitVec n) : BitVec n := fromWords n (incWords a (n / 32) 0 true)

/-- The words of DEC from word i on (R93): subtract 1 and go on only if the result is 0xFFFFFFFF. -/
def decWords (a : BitVec n) : (count i : Nat) → (go : Bool) → List Word
  | 0, _, _ => []
  | count + 1, i, go =>
    let d := if go then wordOf a i - 1 else wordOf a i
    d :: decWords a count (i + 1) (go && d == 0xFFFFFFFF)

/-- The word-level form of DEC (R93). -/
def wordDec (a : BitVec n) : BitVec n := fromWords n (decWords a (n / 32) 0 true)

/-- The accumulator of the shift-and-add multiplication after the multiplier bits 0 to k−1 (R102). -/
def shiftAddLoop (a b : BitVec n) : Nat → BitVec n
  | 0 => 0
  | k + 1 =>
    let acc := shiftAddLoop a b k
    if b.getLsbD k then trunc n ((uval acc + uval (shiftLeft a k) : Nat) : Int) else acc

/-- The reference algorithm of MULU (R102). -/
def shiftAddMul (a b : BitVec n) : BitVec n := shiftAddLoop a b n

/-- The loop of the restoring division, for k = `count`−1 down to 0: shifted divisor `d`, quotient `q`,
remainder `r` (R118). -/
def restoringLoop : (count : Nat) → (d q r : BitVec n) → BitVec n × BitVec n
  | 0, _, q, r => (q, r)
  | k + 1, d, q, r =>
    if uval d ≤ uval r then
      restoringLoop k (shiftRight d 1) (q ||| shiftLeft 1 k) (trunc n ((uval r : Int) - uval d))
    else restoringLoop k (shiftRight d 1) q r

/-- The restoring division, for U(b) ≠ 0 (R118). -/
def restoringDiv (a b : BitVec n) : BitVec n × BitVec n :=
  if uval a < uval b then (0, a)
  else
    let delta := (highestBelow a n).getD 0 - (highestBelow b n).getD 0
    restoringLoop (delta + 1) (shiftLeft b delta) 0 a

/-- The small-divisor path: quotient words from the most significant of the `count` low words down, the
most significant first, and the remainder carried out of word 0 (R118). -/
def smallDivLoop (a : BitVec n) (dv : Nat) : (count rem : Nat) → List Nat × Nat
  | 0, rem => ([], rem)
  | i + 1, rem =>
    let hi := rem * 2 ^ 16 + uval (wordOf a i) / 2 ^ 16
    let lo := hi % dv * 2 ^ 16 + uval (wordOf a i) % 2 ^ 16
    let (qs, r) := smallDivLoop a dv i (lo % dv)
    ((hi / dv * 2 ^ 16 + lo / dv) :: qs, r)

/-- The small-divisor path, for 0 < U(b) < 2^32 (R118). -/
def smallDiv (a b : BitVec n) : BitVec n × BitVec n :=
  let (qs, r) := smallDivLoop a (uval b) (n / 32) 0
  (fromWords n (qs.reverse.map (BitVec.ofNat 32)), BitVec.ofNat n r)

/-- The most-significant-word-first compare of the `count` low words: the pair (EQ, LT) (R125). -/
def wordCompare (a b : BitVec n) : (count : Nat) → Bool × Bool
  | 0 => (true, false)
  | i + 1 =>
    if wordOf a i ≠ wordOf b i then (false, decide (wordOf a i < wordOf b i)) else wordCompare a b i

/-- `v ^ 2^(N−1)`: the sign bit of the most significant word inverted (R126). -/
def flipSign (v : BitVec n) : BitVec n := v ^^^ BitVec.ofNat n (2 ^ (n - 1))

/-- The word-level rotation by r < N (R149). -/
def wordRotate (a : BitVec n) (r : Nat) : BitVec n :=
  let wo := r / 32
  let bo := r % 32
  let W := n / 32
  fromWords n <| (List.range W).map fun i =>
    if bo = 0 then wordOf a ((i + wo) % W)
    else (wordOf a ((i + wo) % W) >>> bo) ||| (wordOf a ((i + wo + 1) % W) <<< (32 - bo))

/-- The binary search over half-word masks with the given probe sizes: the index of the highest set bit of
a nonzero word (R147). -/
def probeHighest : (probes : List Nat) → (w : Nat) → Nat
  | [], _ => 0
  | k :: ks, w => if 2 ^ k ≤ w then k + probeHighest ks (w / 2 ^ k) else probeHighest ks w

/-- The document's bit scan: the most significant nonzero word among the `count` low ones, and the highest
set bit in it by 16/8/4/2/1-bit probes (R147). -/
def wordHighest (a : BitVec n) : (count : Nat) → Option Nat
  | 0 => none
  | i + 1 =>
    if wordOf a i ≠ 0 then some (32 * i + probeHighest [16, 8, 4, 2, 1] (uval (wordOf a i)))
    else wordHighest a i

end Sys2Proof.Machine
end

