-- ==== Sys2Proof/Safety.lean ====
section
/-! DEFINITION. The terms in which statements about the machine are made: what a command reads and writes, what
stays unchanged (the frames), and the invariant of every run. -/

namespace Sys2Proof.Machine

/-! ## What a command names -/

/-- The destination registers of a command (spec/30_encoding.md R51, R52). -/
def dests : Instr → List Reg
  | .and rd _ _ | .or rd _ _ | .xor rd _ _ | .not rd _ | .shl rd _ _ | .shr rd _ _ | .sar rd _ _
  | .shli rd _ _ | .shri rd _ _ | .sari rd _ _ | .add rd _ _ | .sub rd _ _ | .inc rd _ | .dec rd _
  | .neg rd _ | .mulu rd _ _ | .muls rd _ _ | .divu rd _ _ | .remu rd _ _ | .divs rd _ _ | .rems rd _ _
  | .clr rd | .mov rd _ | .liu rd _ | .lis rd _ | .extz rd _ _ | .exts rd _ _ | .mkmin rd | .mkmax rd
  | .ror rd _ _ | .fhb rd _ | .flb rd _ | .rori rd _ _ => [rd]
  | .divremu rd re _ _ | .divrems rd re _ _ => [rd, re]
  | .cmpu _ _ | .cmps _ _ => []

/-- The source registers of a command (R51, R52). -/
def sources : Instr → List Reg
  | .and _ ra rb | .or _ ra rb | .xor _ ra rb | .shl _ ra rb | .shr _ ra rb | .sar _ ra rb
  | .add _ ra rb | .sub _ ra rb | .mulu _ ra rb | .muls _ ra rb | .divu _ ra rb | .remu _ ra rb
  | .divremu _ _ ra rb | .divs _ ra rb | .rems _ ra rb | .divrems _ _ ra rb | .cmpu ra rb | .cmps ra rb
  | .ror _ ra rb => [ra, rb]
  | .not _ ra | .shli _ ra _ | .shri _ ra _ | .sari _ ra _ | .inc _ ra | .dec _ ra | .neg _ ra
  | .mov _ ra | .extz _ ra _ | .exts _ ra _ | .fhb _ ra | .flb _ ra | .rori _ ra _ => [ra]
  | .clr _ | .liu _ _ | .lis _ _ | .mkmin _ | .mkmax _ => []

/-- The divisor register of the six division commands, `none` for every other command
(spec/60_exceptions.md R160, R161). -/
def divisor : Instr → Option Reg
  | .divu _ _ rb | .remu _ _ rb | .divremu _ _ _ rb | .divs _ _ rb | .rems _ _ rb | .divrems _ _ _ rb =>
    some rb
  | .and .. | .or .. | .xor .. | .not .. | .shl .. | .shr .. | .sar .. | .shli .. | .shri .. | .sari ..
  | .add .. | .sub .. | .inc .. | .dec .. | .neg .. | .mulu .. | .muls .. | .cmpu .. | .cmps ..
  | .clr .. | .mov .. | .liu .. | .lis .. | .extz .. | .exts .. | .mkmin .. | .mkmax .. | .ror ..
  | .fhb .. | .flb .. | .rori .. => none

/-- CMPU and CMPS, the only commands that write EQ and LT (spec/10_state.md R17). -/
def isCompare : Instr → Bool
  | .cmpu .. | .cmps .. => true
  | .and .. | .or .. | .xor .. | .not .. | .shl .. | .shr .. | .sar .. | .shli .. | .shri .. | .sari ..
  | .add .. | .sub .. | .inc .. | .dec .. | .neg .. | .mulu .. | .muls .. | .divu .. | .remu ..
  | .divremu .. | .divs .. | .rems .. | .divrems .. | .clr .. | .mov .. | .liu .. | .lis .. | .extz ..
  | .exts .. | .mkmin .. | .mkmax .. | .ror .. | .fhb .. | .flb .. | .rori .. => false

/-! ## Frames -/

/-- Every operand register outside `ds` holds the same N bits in `t` as in `s`, and so does every byte of the
operand store outside those registers (spec/10_state.md R14, spec/20_memory.md R32). -/
structure SameRegs (ds : List Reg) (s t : State) : Prop where
  width : t.width = s.width
  regs : ∀ r, r ∉ ds → t.uReg r = s.uReg r
  bytes : ∀ r p, r ∉ ds → t.byteAt r p = s.byteAt r p

/-- EQ and LT keep their values. -/
structure SameFlags (s t : State) : Prop where
  eqFlag : t.block.eqFlag = s.block.eqFlag
  ltFlag : t.block.ltFlag = s.block.ltFlag

/-- FCODE and FCMD keep their values. -/
structure SameFault (s t : State) : Prop where
  fcode : t.block.fcode = s.block.fcode
  fcmd : t.block.fcmd = s.block.fcmd

/-- The transactions still to come and the results returned so far are the same. -/
structure SameHost (s t : State) : Prop where
  pending : t.pending = s.pending
  replies : t.replies = s.replies

/-- `t` differs from `s` in the registers `ds` at most. -/
structure Frame (ds : List Reg) (s t : State) : Prop where
  regs : SameRegs ds s t
  flags : SameFlags s t
  fault : SameFault s t
  host : SameHost s t

/-- `t` is `s` after `raise E(w)` and nothing else (spec/60_exceptions.md R163). -/
structure Raised (e : Exc) (w : Word) (s t : State) : Prop where
  fcode : t.block.fcode = e.code
  fcmd : t.block.fcmd = w
  regs : SameRegs [] s t
  flags : SameFlags s t
  host : SameHost s t

/-! ## The invariant of every run -/

/-- FCMD is 0 when the block is not faulted (spec/10_state.md R19), and holds a word that can have raised the fault
recorded in FCODE (spec/60_exceptions.md R160 to R162); EQ and LT are never both 1 (spec/45_compare.md
R127). -/
structure State.Inv (s : State) : Prop where
  cleared : s.block.fcode = .none → s.block.fcmd = 0
  illegal : s.block.fcode = .illegalCommand → ∃ c, decode s.block.fcmd = .error c
  division : s.block.fcode = .divisionByZero →
    ∃ i, decode s.block.fcmd = .ok i ∧ (divisor i).isSome = true
  flags : ¬(s.block.eqFlag = true ∧ s.block.ltFlag = true)

end Sys2Proof.Machine
end

