-- ==== Sys2Proof/Certificates/Slice0/Obligations.lean ====
section
/-! DEFINITION. The statements about FWCORE for the provers. A statement about a command is made for every
state (so for every width N, every register value and every choice of registers, a destination that
is also a source included); its conclusion is that `exec` answers a next state, which it describes
completely: the destinations by their values, everything else by a frame. That the host's transactions
and the results it was given are lists in the state, and the width a field of it, is the model's form of the
spec's parameters (notes/assumptions/1.md, 4.md, 5.md). -/

open Sys2Proof Sys2Proof.Machine

/-! ## Encoding -/

/-- 30_encoding.md: decoding the encoding of a well-formed command gives the command back, with every operand
at every value. -/
def Obligations.DecodeOfEncode : Prop :=
  ∀ i : Instr, i.wellFormed = true → decode (encode i) = .ok i

/-- 30_encoding.md: a word that decodes is the encoding of the command it decodes to, and that command is
well-formed. -/
def Obligations.EncodeOfDecode : Prop :=
  ∀ (w : Word) (i : Instr), decode w = .ok i → encode i = w ∧ i.wellFormed = true

/-- R55, R56: the illegal words are exactly those the procedure of the rule finds, its four tests written with
the opcode list and the masks of R51 and R54 in numbers. -/
def Obligations.IllegalWordsAreThoseOfTheProcedure : Prop :=
  ∀ w : Word,
    let op := w.toNat / 2 ^ 24
    let reg3 := [0x10, 0x11, 0x12, 0x20, 0x21, 0x22, 0x30, 0x31, 0x40, 0x41, 0x50, 0x51, 0x54, 0x55, 0x80]
    let reg4 := [0x52, 0x56]
    let reg2 := [0x13, 0x32, 0x33, 0x34, 0x71, 0x81, 0x82]
    let reg1 := [0x70, 0x76, 0x77]
    let cmp2 := [0x60, 0x61]
    let imm2 := [0x28, 0x29, 0x2A, 0x74, 0x75, 0x88]
    let imm1 := [0x72, 0x73]
    (∃ c, decode w = .error c) ↔
      op ∉ reg3 ++ reg4 ++ reg2 ++ reg1 ++ cmp2 ++ imm2 ++ imm1 ∨
      (op ∈ reg3 ∧ w &&& 0xFF000FFF ≠ BitVec.ofNat 32 op <<< 24) ∨
      (op ∈ reg4 ∧ w &&& 0xFF0000FF ≠ BitVec.ofNat 32 op <<< 24) ∨
      (op ∈ reg2 ∧ w &&& 0xFF00FFFF ≠ BitVec.ofNat 32 op <<< 24) ∨
      (op ∈ reg1 ∧ w &&& 0xFF0FFFFF ≠ BitVec.ofNat 32 op <<< 24) ∨
      (op ∈ cmp2 ∧ w &&& 0xFFF00FFF ≠ BitVec.ofNat 32 op <<< 24) ∨
      (op ∈ imm2 ∧ w &&& 0xFF000000 ≠ BitVec.ofNat 32 op <<< 24) ∨
      (op ∈ imm1 ∧ w &&& 0xFF0F0000 ≠ BitVec.ofNat 32 op <<< 24) ∨
      (op ∈ [0x52, 0x56] ∧ w.extractLsb' 20 4 = w.extractLsb' 8 4) ∨
      (op ∈ [0x74, 0x75] ∧ w.extractLsb' 0 16 = 0)

/-- Words written out bit by bit from R51 to R54 decode to the commands they stand for; the illegal words of
30_encoding.md section 7 are illegal. -/
def Obligations.SampleWordsDecode : Prop :=
  decode 0b00010000001100010010000000000000 = .ok (.and 3 1 2) ∧
  decode 0b00101000001000100000000000100001 = .ok (.shli 2 2 33) ∧
  decode 0b00110000001100010010000000000000 = .ok (.add 3 1 2) ∧
  decode 0b01000001001100010010000000000000 = .ok (.muls 3 1 2) ∧
  decode 0b01010110010001100111010100000000 = .ok (.divrems 4 5 6 7) ∧
  decode 0b01100000000000010010000000000000 = .ok (.cmpu 1 2) ∧
  decode 0b01110011100100001111111111111001 = .ok (.lis 9 0xFFF9) ∧
  decode 0b10000001001100010000000000000000 = .ok (.fhb 3 1) ∧
  decode 0x30312001 = .error .mustBeZero ∧ decode 0x52467400 = .error .equalDestinations ∧
  decode 0x74110000 = .error .zeroByteCount ∧ decode 0x00000000 = .error .unassignedOpcode

/-- R59: each pseudo-instruction expands to the one command of its row, which loads the constant. -/
def Obligations.PseudoInstructionsExpand : Prop :=
  (∀ (s : State) (rd : Reg) (k : Int), 0 ≤ k → k ≤ 65535 →
    ∃ (imm : Imm16) (t : State), (Pseudo.li rd k).expand = some (.liu rd imm) ∧ (imm.toNat : Int) = k ∧
      exec (.liu rd imm) s = .next t ∧ (t.uReg rd : Int) = k ∧ Frame [rd] s t) ∧
  (∀ (s : State) (rd : Reg) (k : Int), -32768 ≤ k → k ≤ -1 →
    ∃ (imm : Imm16) (t : State), (Pseudo.li rd k).expand = some (.lis rd imm) ∧
      (imm.toNat : Int) = k + 65536 ∧ exec (.lis rd imm) s = .next t ∧ t.sReg rd = k ∧ Frame [rd] s t) ∧
  ∀ (s : State) (rd : Reg), ∃ t, (Pseudo.setones rd).expand = some (.lis rd 0xFFFF) ∧
    exec (.lis rd 0xFFFF) s = .next t ∧ t.uReg rd = 2 ^ s.width.bits - 1 ∧ t.sReg rd = -1 ∧ Frame [rd] s t

/-- R116, and 30_encoding.md and the derived R165: DIVREMU and DIVREMS with equal destinations, whatever the
divisor is (also zero), and EXTZ and EXTS with byte count zero raise IllegalCommand when issued. -/
def Obligations.IllegalFormsOfLegalOpcodes : Prop :=
  ∀ (s : State) (rd ra rb : Reg) (rest : List Transaction), s.block.fcode = .none →
    ∀ w ∈ [reg4 0x52 rd ra rb rd, reg4 0x56 rd ra rb rd, imm2 0x74 rd ra 0, imm2 0x75 rd ra 0],
      s.pending = .issue w :: rest →
      ∃ t, step s = .next t ∧ Raised .illegalCommand w { s with pending := rest } t

/-! ## The step and the host transactions -/

/-- 20_memory.md, the executing part of R34: a step that finds `Issue(w)` first in the host's stream, the
block not faulted and `w` legal, takes that transaction off the stream and is the execution of the one command
`w` selects. -/
def Obligations.StepRunsTheIssuedCommand : Prop :=
  ∀ (s : State) (w : Word) (rest : List Transaction) (i : Instr),
    s.pending = .issue w :: rest → s.block.fcode = .none → decode w = .ok i →
    step s = exec i { s with pending := rest }

/-- R162: an illegal word raises IllegalCommand, code 2, with FCMD = w, and does nothing else. -/
def Obligations.StepRaisesIllegalCommand : Prop :=
  ∀ (s : State) (w : Word) (rest : List Transaction) (c : Illegal),
    s.pending = .issue w :: rest → s.block.fcode = .none → decode w = .error c →
    ∃ t, step s = .next t ∧ t.block.fcode.number = 2 ∧
      Raised .illegalCommand w { s with pending := rest } t

/-- 60_exceptions.md, the first part of R164: a faulted block drops every Issue without any effect. -/
def Obligations.FaultedBlockDropsEveryIssue : Prop :=
  ∀ (s : State) (w : Word) (rest : List Transaction),
    s.pending = .issue w :: rest → s.block.fcode ≠ .none → step s = .next { s with pending := rest }

/-- R175: while the host presents nothing the block holds its state (the empty stream is the model's form of
"between transactions", notes/assumptions/4.md). -/
def Obligations.IdleBlockHoldsItsState : Prop :=
  ∀ s : State, s.pending = [] → step s = .next s

/-- 10_state.md and 70_reset_and_hazards.md (R23, R24, R180): Reset, from any state, sets STATUS and FCMD to 0
and gives each register the value of the draw modulo 2^N, and so does the first Reset of an execution at every
width; for every choice of sixteen N-bit values there is a draw that gives them. Two things in it are the
model's choice: that the draw is an argument of the transaction (notes/assumptions/3.md), and that the list of
results the host was given is kept across Reset (`SameHost`; notes/assumptions/5.md). -/
def Obligations.ResetSetsEveryPieceOfState : Prop :=
  (∀ (s : State) (draw : Draw) (rest : List Transaction), s.pending = .reset draw :: rest →
    ∃ t, step s = .next t ∧ t.status = 0 ∧ t.fcmd = 0 ∧ t.faulted = false ∧ t.width = s.width ∧
      (∀ r : Reg, t.uReg r = draw[r] % 2 ^ s.width.bits) ∧
      SameHost { s with pending := rest } t) ∧
  (∀ (w : Width) (draw : Draw), (State.afterReset w draw).status = 0 ∧
    (State.afterReset w draw).fcmd = 0 ∧ (State.afterReset w draw).faulted = false ∧
    ∀ r : Reg, (State.afterReset w draw).uReg r = draw[r] % 2 ^ w.bits) ∧
  ∀ (w : Width) (v : Vector (BitVec w.bits) 16), ∃ draw : Draw,
    ∀ r : Reg, (State.afterReset w draw).uReg r = (v[r]).toNat

/-- R167: ClrFault sets FCODE and FCMD to 0 and changes nothing else; on a block that is not faulted (in a
state a run can reach, where FCMD is then 0) it has no effect; and no step but ClrFault and Reset leaves the
faulted condition. -/
def Obligations.ClrFaultLeavesTheFaultedCondition : Prop :=
  (∀ (s : State) (rest : List Transaction), s.pending = .clrFault :: rest →
    (∃ t, step s = .next t ∧ t.block.fcode = .none ∧ t.fcmd = 0 ∧ t.faulted = false ∧
      SameRegs [] s t ∧ SameFlags s t ∧ SameHost { s with pending := rest } t) ∧
    (s.Inv → s.block.fcode = .none → step s = .next { s with pending := rest })) ∧
  ∀ s t : State, s.block.fcode ≠ .none → step s = .next t → t.block.fcode = .none →
    ∃ rest, s.pending = .clrFault :: rest ∨ ∃ draw, s.pending = .reset draw :: rest

/-- R37: RdStatus returns bit 0 = EQ, bit 1 = LT, bits 9:8 = FCODE and all other bits 0; RdFcmd returns FCMD;
neither changes any state, faulted or not. -/
def Obligations.StatusReadsReturnTheControlState : Prop :=
  (∀ (s : State) (rest : List Transaction), s.pending = .rdStatus :: rest →
    ∃ v : Word, step s = .next { s with pending := rest, replies := s.replies ++ [.status v] } ∧
      v.getLsbD 0 = s.block.eqFlag ∧ v.getLsbD 1 = s.block.ltFlag ∧
      (v.extractLsb' 8 2).toNat =
        (match s.block.fcode with | .none => 0 | .divisionByZero => 1 | .illegalCommand => 2) ∧
      v.extractLsb' 2 6 = 0 ∧ v.extractLsb' 10 22 = 0) ∧
  ∀ (s : State) (rest : List Transaction), s.pending = .rdFcmd :: rest →
    step s = .next { s with pending := rest, replies := s.replies ++ [.fcmd s.block.fcmd] }

/-- R36: RdElem returns byte by byte the stored bytes, beyond storage 0x00 (ZERO) or 0xFF or 0x00 by bit N−1
(SIGN), and changes no state, faulted or not. -/
def Obligations.RdElemReturnsStoredAndFillBytes : Prop :=
  ∀ (s : State) (r : Reg) (e : ElemWidth) (k : Nat) (fill : Fill) (rest : List Transaction),
    s.pending = .rdElem r e k fill :: rest →
    ∃ v : BitVec e.bits,
      step s = .next { s with pending := rest, replies := s.replies ++ [.elem e v] } ∧
      ∀ j < e.bytes, byteOf v j =
        if k * e.bytes + j < s.width.bytes then byteOf (s.block.reg r) (k * e.bytes + j)
        else match fill with
          | .zero => 0x00
          | .sign => if s.bitAt r (s.width.bits - 1) then 0xFF else 0x00

/-- R35: WrElem writes the bytes it addresses inside storage, drops the others, and changes nothing else,
faulted or not. -/
def Obligations.WrElemWritesTheAddressedBytes : Prop :=
  ∀ (s : State) (r : Reg) (e : ElemWidth) (k : Nat) (v : BitVec e.bits) (rest : List Transaction),
    s.pending = .wrElem r e k v :: rest →
    ∃ t, step s = .next t ∧ Frame [r] { s with pending := rest } t ∧
      ∀ p, t.byteAt r p =
        if k * e.bytes ≤ p ∧ p < k * e.bytes + e.bytes ∧ p < s.width.bytes
        then some (byteOf v (p - k * e.bytes)) else s.byteAt r p

/-- 20_memory.md, a part of R42: RdElem returns the element most recently written by WrElem, for an element
inside storage. -/
def Obligations.RdElemReturnsTheLastWrElem : Prop :=
  ∀ (s : State) (r : Reg) (e : ElemWidth) (k : Nat) (v : BitVec e.bits) (fill : Fill)
    (rest : List Transaction),
    (k + 1) * e.bytes ≤ s.width.bytes → s.pending = .wrElem r e k v :: .rdElem r e k fill :: rest →
    ∃ t, Host.Core.run Sys2Proof.core 2 s = .next t ∧ t.replies = s.replies ++ [.elem e v]

/-- 20_memory.md, the example of R38: four bytes written to a word of a register are read back as the
little-endian 32-bit element. -/
def Obligations.BytesReadAsWordsAreLittleEndian : Prop :=
  ∀ (s : State) (r : Reg) (i : Nat) (b0 b1 b2 b3 : Byte) (rest : List Transaction),
    4 * i + 4 ≤ s.width.bytes →
    s.pending = .wrElem r .w8 (4 * i) b0 :: .wrElem r .w8 (4 * i + 1) b1 :: .wrElem r .w8 (4 * i + 2) b2 ::
      .wrElem r .w8 (4 * i + 3) b3 :: .rdElem r .w32 i .zero :: rest →
    ∃ (t : State) (v : Word), Host.Core.run Sys2Proof.core 5 s = .next t ∧
      t.replies = s.replies ++ [.elem .w32 v] ∧
      v.toNat = b0.toNat + 256 * b1.toNat + 65536 * b2.toNat + 16777216 * b3.toNat

/-- 46_convert_construct.md R138, which the spec marks as derived: CLR then WrElem constructs a register from
an unsigned native integer, WrElem then EXTS from a signed one: zero- or sign-extended when e ≤ N, truncated
to the low N bits when e > N. -/
def Obligations.NativeConstructionSequences : Prop :=
  ∀ (s : State) (r : Reg) (e : ElemWidth) (v : BitVec e.bits) (rest : List Transaction),
    s.block.fcode = .none →
    (s.pending = constructUnsigned r e v ++ rest →
      ∃ t, Host.Core.run Sys2Proof.core 2 s = .next t ∧ Frame [r] { s with pending := rest } t ∧
        t.uReg r = v.toNat % 2 ^ s.width.bits) ∧
    (s.pending = constructSigned r e v ++ rest →
      ∃ t, Host.Core.run Sys2Proof.core 2 s = .next t ∧ Frame [r] { s with pending := rest } t ∧
        (t.uReg r : Int) = v.toInt % 2 ^ s.width.bits)

/-- 46_convert_construct.md R138 and R139, which the spec marks as derived: CLR then one WrElem per element
constructs a register from a raw array, the elements beyond the register dropped and the bytes beyond the
array zero; with 32-bit elements this is the unsigned widening and the narrowing. The word writes then EXTS
are the signed widening. -/
def Obligations.ArrayImportSequences : Prop :=
  (∀ (s : State) (r : Reg) (e : ElemWidth) (vs : List (BitVec e.bits)) (rest : List Transaction),
    s.block.fcode = .none → s.pending = importArray r e vs ++ rest →
    ∃ t, Host.Core.run Sys2Proof.core (vs.length + 1) s = .next t ∧
      Frame [r] { s with pending := rest } t ∧
      ∀ p < s.width.bytes, t.byteAt r p =
        some (match vs[p / e.bytes]? with | some v => byteOf v (p % e.bytes) | none => 0)) ∧
  ∀ (s : State) (r : Reg) (ws : List Word) (rest : List Transaction),
    s.block.fcode = .none → ws ≠ [] → ws.length ≤ s.width.words →
    s.pending = widenSigned r ws ++ rest →
    ∃ t, Host.Core.run Sys2Proof.core (ws.length + 1) s = .next t ∧
      Frame [r] { s with pending := rest } t ∧
      (t.uReg r : Int) =
        (BitVec.ofNat (32 * ws.length) (ofWords ws)).toInt % 2 ^ s.width.bits

/-- 46_convert_construct.md R140, which the spec marks as derived: RdElem(r, e, 0, fill) converts a register
to a native integer of e bits: for e ≤ N the low e bits, for e > N the value extended by zeros (ZERO) or by
its sign (SIGN). -/
def Obligations.NativeReadConversion : Prop :=
  ∀ (s : State) (r : Reg) (e : ElemWidth) (fill : Fill) (rest : List Transaction),
    s.pending = .rdElem r e 0 fill :: rest →
    ∃ v : BitVec e.bits,
      step s = .next { s with pending := rest, replies := s.replies ++ [.elem e v] } ∧
      (e.bits ≤ s.width.bits → v.toNat = s.uReg r % 2 ^ e.bits) ∧
      (s.width.bits < e.bits → match fill with
        | .zero => v.toNat = s.uReg r
        | .sign => v.toInt = s.sReg r)

/-- 93_implementation_defined.md section 2 and R188: every transaction completes: a step from any state
answers a next state. -/
def Obligations.EveryStepCompletes : Prop := ∀ s : State, ∃ t, step s = .next t

/-! ## Bitwise commands -/

/-- R70, R71, R72, R73: AND, OR, XOR and NOT. -/
def Obligations.BitwiseCommands : Prop :=
  ∀ (s : State) (rd ra rb : Reg),
    (encode (.and rd ra rb) = reg3 0x10 rd ra rb ∧
      ∃ t, exec (.and rd ra rb) s = .next t ∧ Frame [rd] s t ∧
        (∀ i, t.bitAt rd i = (s.bitAt ra i && s.bitAt rb i)) ∧
        ∀ i, wordOf (t.block.reg rd) i = wordOf (s.block.reg ra) i &&& wordOf (s.block.reg rb) i) ∧
    (encode (.or rd ra rb) = reg3 0x11 rd ra rb ∧
      ∃ t, exec (.or rd ra rb) s = .next t ∧ Frame [rd] s t ∧
        ∀ i, t.bitAt rd i = (s.bitAt ra i || s.bitAt rb i)) ∧
    (encode (.xor rd ra rb) = reg3 0x12 rd ra rb ∧
      ∃ t, exec (.xor rd ra rb) s = .next t ∧ Frame [rd] s t ∧
        (∀ i, t.bitAt rd i = (s.bitAt ra i != s.bitAt rb i)) ∧ (ra = rb → t.uReg rd = 0)) ∧
    (encode (.not rd ra) = reg2 0x13 rd ra ∧
      ∃ t, exec (.not rd ra) s = .next t ∧ Frame [rd] s t ∧
        (∀ i < s.width.bits, t.bitAt rd i = !s.bitAt ra i) ∧
        t.uReg rd = 2 ^ s.width.bits - 1 - s.uReg ra)

/-! ## Shift commands -/

/-- R80: the three shift functions, by their arithmetic and bit by bit, at every width and every amount. (The
sentence of R80 the spec marks as derived is in `WordShiftsAgree`.) -/
def Obligations.ShiftFunctionsAreThoseOfTheRule : Prop :=
  ∀ (w : Width) (a : BitVec w.bits) (s : Nat),
    (shiftLeft a s).toNat = (if s < w.bits then a.toNat * 2 ^ s % 2 ^ w.bits else 0) ∧
    (shiftRight a s).toNat = (if s < w.bits then a.toNat / 2 ^ s else 0) ∧
    (∀ v ≤ w.bits, ∀ i < w.bits, (onesHigh w.bits v).getLsbD i = decide (w.bits - v ≤ i)) ∧
    (shiftArith a s =
      if a.getLsbD (w.bits - 1) then shiftRight a s ||| onesHigh w.bits (min s w.bits)
      else shiftRight a s) ∧
    (∀ i < w.bits, (shiftLeft a s).getLsbD i = (decide (s ≤ i) && a.getLsbD (i - s))) ∧
    (∀ i < w.bits, (shiftRight a s).getLsbD i = a.getLsbD (i + s)) ∧
    (∀ i < w.bits, (shiftArith a s).getLsbD i =
      if i + s ≤ w.bits - 1 then a.getLsbD (i + s) else a.getLsbD (w.bits - 1))

/-- R81, R82, R83, R89: SHL, SHR and SAR, bit by bit; the amount is the unsigned value of the whole register
rb, and no amount is illegal or reduced. -/
def Obligations.RegisterShifts : Prop :=
  ∀ (s : State) (rd ra rb : Reg),
    (encode (.shl rd ra rb) = reg3 0x20 rd ra rb ∧
      ∃ t, exec (.shl rd ra rb) s = .next t ∧ Frame [rd] s t ∧
        ∀ i < s.width.bits, t.bitAt rd i = (decide (s.uReg rb ≤ i) && s.bitAt ra (i - s.uReg rb))) ∧
    (encode (.shr rd ra rb) = reg3 0x21 rd ra rb ∧
      ∃ t, exec (.shr rd ra rb) s = .next t ∧ Frame [rd] s t ∧
        ∀ i < s.width.bits, t.bitAt rd i = s.bitAt ra (i + s.uReg rb)) ∧
    (encode (.sar rd ra rb) = reg3 0x22 rd ra rb ∧
      ∃ t, exec (.sar rd ra rb) s = .next t ∧ Frame [rd] s t ∧
        ∀ i < s.width.bits, t.bitAt rd i =
          if i + s.uReg rb ≤ s.width.bits - 1 then s.bitAt ra (i + s.uReg rb)
          else s.bitAt ra (s.width.bits - 1))

/-- R84, R85, R86: SHLI, SHRI and SARI: the product modulo 2^N, the floor quotient of the unsigned value, and
the shift with the sign bit of the source filled in. -/
def Obligations.ImmediateShifts : Prop :=
  ∀ (s : State) (rd ra : Reg) (imm : Imm16),
    (encode (.shli rd ra imm) = imm2 0x28 rd ra imm ∧
      ∃ t, exec (.shli rd ra imm) s = .next t ∧ Frame [rd] s t ∧
        t.uReg rd = s.uReg ra * 2 ^ imm.toNat % 2 ^ s.width.bits) ∧
    (encode (.shri rd ra imm) = imm2 0x29 rd ra imm ∧
      ∃ t, exec (.shri rd ra imm) s = .next t ∧ Frame [rd] s t ∧
        t.uReg rd = s.uReg ra / 2 ^ imm.toNat) ∧
    (encode (.sari rd ra imm) = imm2 0x2A rd ra imm ∧
      ∃ t, exec (.sari rd ra imm) s = .next t ∧ Frame [rd] s t ∧
        ∀ i < s.width.bits, t.bitAt rd i =
          if i + imm.toNat ≤ s.width.bits - 1 then s.bitAt ra (i + imm.toNat)
          else s.bitAt ra (s.width.bits - 1))

/-- R88: shifting left by s and then right by s keeps the low N − s bits and clears the high s bits, for 0 ≤ s
< N, on the machine: SHLI then SHRI. -/
def Obligations.ShiftLeftThenRightKeepsTheLowBits : Prop :=
  ∀ (s t u : State) (rd ra : Reg) (imm : Imm16), imm.toNat < s.width.bits →
    exec (.shli rd ra imm) s = .next t → exec (.shri rd rd imm) t = .next u →
    u.uReg rd = s.uReg ra % 2 ^ (s.width.bits - imm.toNat)

/-- 41_shift.md section 1, the parts the spec marks as derived: the word-level shifts of R87 compute the shift
functions, and the arithmetic shift is the floor quotient of the signed value. -/
def Obligations.WordShiftsAgree : Prop :=
  ∀ (w : Width) (a : BitVec w.bits) (s : Nat),
    (s < w.bits → wordShiftLeft a s = shiftLeft a s ∧ wordShiftRight a s = shiftRight a s) ∧
    (shiftArith a s).toInt = a.toInt / 2 ^ s

/-! ## Add, subtract, increment, decrement, negate -/

/-- R90, R91: ADD and SUB wrap modulo 2^N, and in the signed view too. -/
def Obligations.AddAndSubWrap : Prop :=
  ∀ (s : State) (rd ra rb : Reg),
    (encode (.add rd ra rb) = reg3 0x30 rd ra rb ∧
      ∃ t, exec (.add rd ra rb) s = .next t ∧ Frame [rd] s t ∧
        t.uReg rd = (s.uReg ra + s.uReg rb) % 2 ^ s.width.bits ∧
        (t.uReg rd : Int) = (s.sReg ra + s.sReg rb) % 2 ^ s.width.bits) ∧
    (encode (.sub rd ra rb) = reg3 0x31 rd ra rb ∧
      ∃ t, exec (.sub rd ra rb) s = .next t ∧ Frame [rd] s t ∧
        (t.uReg rd : Int) = ((s.uReg ra : Int) - s.uReg rb) % 2 ^ s.width.bits ∧
        t.uReg rd = (s.uReg ra + (2 ^ s.width.bits - 1 - s.uReg rb) + 1) % 2 ^ s.width.bits)

/-- R92, R93: INC and DEC, at the wrap and elsewhere, and that the document's word-level forms give the same
values. -/
def Obligations.IncAndDecWrap : Prop :=
  ∀ (s : State) (rd ra : Reg),
    (encode (.inc rd ra) = reg2 0x32 rd ra ∧
      ∃ t, exec (.inc rd ra) s = .next t ∧ Frame [rd] s t ∧
        t.uReg rd = (if s.uReg ra = 2 ^ s.width.bits - 1 then 0 else s.uReg ra + 1) ∧
        t.uReg rd = (wordInc (s.block.reg ra)).toNat) ∧
    (encode (.dec rd ra) = reg2 0x33 rd ra ∧
      ∃ t, exec (.dec rd ra) s = .next t ∧ Frame [rd] s t ∧
        t.uReg rd = (if s.uReg ra = 0 then 2 ^ s.width.bits - 1 else s.uReg ra - 1) ∧
        t.uReg rd = (wordDec (s.block.reg ra)).toNat)

/-- R94: NEG is bitwise NOT plus one; its fixed points are 0 and the most negative value, and every other
value gives the value whose signed reading is its negation. -/
def Obligations.NegNegates : Prop :=
  ∀ (s : State) (rd ra : Reg), encode (.neg rd ra) = reg2 0x34 rd ra ∧
    ∃ t, exec (.neg rd ra) s = .next t ∧ Frame [rd] s t ∧
      t.uReg rd = ((2 ^ s.width.bits - 1 - s.uReg ra) + 1) % 2 ^ s.width.bits ∧
      (t.uReg rd = s.uReg ra ↔ s.uReg ra = 0 ∨ s.uReg ra = 2 ^ (s.width.bits - 1)) ∧
      (s.uReg ra ≠ 2 ^ (s.width.bits - 1) → t.sReg rd = -s.sReg ra)

/-- R97 on the machine: (a + b) − b = a and (a − b) + b = a (the second command undoes the first), and
addition and multiplication are commutative and associative modulo 2^N. -/
def Obligations.AddAndSubUndoEachOther : Prop :=
  (∀ (s t u : State) (rd ra rb : Reg), rd ≠ rb →
    (exec (.add rd ra rb) s = .next t → exec (.sub rd rd rb) t = .next u → u.uReg rd = s.uReg ra) ∧
    (exec (.sub rd ra rb) s = .next t → exec (.add rd rd rb) t = .next u → u.uReg rd = s.uReg ra)) ∧
  (∀ (s : State) (rd ra rb : Reg), exec (.add rd ra rb) s = exec (.add rd rb ra) s ∧
    exec (.mulu rd ra rb) s = exec (.mulu rd rb ra) s) ∧
  ∀ (s t u t' u' : State) (rd ra rb rc : Reg), rd ≠ ra → rd ≠ rc →
    (exec (.add rd ra rb) s = .next t → exec (.add rd rd rc) t = .next u →
      exec (.add rd rb rc) s = .next t' → exec (.add rd ra rd) t' = .next u' → u.uReg rd = u'.uReg rd) ∧
    (exec (.mulu rd ra rb) s = .next t → exec (.mulu rd rd rc) t = .next u →
      exec (.mulu rd rb rc) s = .next t' → exec (.mulu rd ra rd) t' = .next u' → u.uReg rd = u'.uReg rd)

/-- 42_addsub.md R95, which the spec marks as derived: the ripple adder and subtractor compute the sum and the
difference modulo 2^N. -/
def Obligations.WordArithmeticAgrees : Prop :=
  ∀ (w : Width) (a b : BitVec w.bits), rippleAdd a b = a + b ∧ rippleSub a b = a - b

/-! ## Multiply -/

/-- R100, R101: MULU gives the low N bits of the product; MULS multiplies the magnitudes and negates back when
the signs differ, which is congruent to the signed product and equals it exactly when that fits. (The sentence
of R101 the spec marks as derived, that MULS gives the bits of MULU, is in `MultiplicationLaws`.) -/
def Obligations.MultiplyGivesTheLowBits : Prop :=
  ∀ (s : State) (rd ra rb : Reg),
    (encode (.mulu rd ra rb) = reg3 0x40 rd ra rb ∧
      ∃ t, exec (.mulu rd ra rb) s = .next t ∧ Frame [rd] s t ∧
        t.uReg rd = s.uReg ra * s.uReg rb % 2 ^ s.width.bits) ∧
    (encode (.muls rd ra rb) = reg3 0x41 rd ra rb ∧
      ∃ t, exec (.muls rd ra rb) s = .next t ∧ Frame [rd] s t ∧
        (t.uReg rd =
          let p := (s.sReg ra).natAbs * (s.sReg rb).natAbs % 2 ^ s.width.bits
          if s.bitAt ra (s.width.bits - 1) = s.bitAt rb (s.width.bits - 1) then p
          else (2 ^ s.width.bits - p) % 2 ^ s.width.bits) ∧
        (t.uReg rd : Int) = s.sReg ra * s.sReg rb % 2 ^ s.width.bits ∧
        (t.sReg rd = s.sReg ra * s.sReg rb ↔
          -(2 ^ (s.width.bits - 1)) ≤ s.sReg ra * s.sReg rb ∧
            s.sReg ra * s.sReg rb ≤ 2 ^ (s.width.bits - 1) - 1))

/-- 43_multiply.md: the law of R104 and the sentences the spec marks as derived: multiplication is commutative
and associative and distributes over addition modulo 2^N, for both commands' functions, and the two commands
give the same bits for every pair of operands. -/
def Obligations.MultiplicationLaws : Prop :=
  (∀ (w : Width) (a b c : BitVec w.bits),
    mulU a b = mulU b a ∧ mulU (mulU a b) c = mulU a (mulU b c) ∧
    mulU a (b + c) = mulU a b + mulU a c ∧
    mulS a b = mulS b a ∧ mulS (mulS a b) c = mulS a (mulS b c) ∧
    mulS a (b + c) = mulS a b + mulS a c) ∧
  ∀ (s : State) (rd ra rb : Reg), exec (.muls rd ra rb) s = exec (.mulu rd ra rb) s

/-- 43_multiply.md R102, which the spec marks as derived: the shift-and-add algorithm computes the product of
MULU. -/
def Obligations.ShiftAndAddAgrees : Prop :=
  ∀ (w : Width) (a b : BitVec w.bits), shiftAddMul a b = mulU a b

/-! ## Divide and remainder -/

/-- R111, R112, R113: DIVU, REMU and DIVREMU: with a zero divisor DivisionByZero and no destination written,
with any other divisor the floor quotient and the remainder. -/
def Obligations.UnsignedDivision : Prop :=
  ∀ (s : State) (rd re ra rb : Reg),
    (encode (.divu rd ra rb) = reg3 0x50 rd ra rb ∧
      (s.uReg rb = 0 → ∃ t, exec (.divu rd ra rb) s = .next t ∧
        Raised .divisionByZero (encode (.divu rd ra rb)) s t) ∧
      (s.uReg rb ≠ 0 → ∃ t, exec (.divu rd ra rb) s = .next t ∧ Frame [rd] s t ∧
        t.uReg rd = s.uReg ra / s.uReg rb)) ∧
    (encode (.remu rd ra rb) = reg3 0x51 rd ra rb ∧
      (s.uReg rb = 0 → ∃ t, exec (.remu rd ra rb) s = .next t ∧
        Raised .divisionByZero (encode (.remu rd ra rb)) s t) ∧
      (s.uReg rb ≠ 0 → ∃ t, exec (.remu rd ra rb) s = .next t ∧ Frame [rd] s t ∧
        t.uReg rd = s.uReg ra % s.uReg rb)) ∧
    (encode (.divremu rd re ra rb) = reg4 0x52 rd ra rb re ∧ (rd ≠ re →
      (s.uReg rb = 0 → ∃ t, exec (.divremu rd re ra rb) s = .next t ∧
        Raised .divisionByZero (encode (.divremu rd re ra rb)) s t) ∧
      (s.uReg rb ≠ 0 → ∃ t, exec (.divremu rd re ra rb) s = .next t ∧ Frame [rd, re] s t ∧
        t.uReg rd = s.uReg ra / s.uReg rb ∧ t.uReg re = s.uReg ra % s.uReg rb)))

/-- R114, R115, R117, R121: DIVS, REMS and DIVREMS: with a zero divisor DivisionByZero and no destination
written; with any other divisor the quotient and the remainder of the magnitudes, negated back by the signs;
and whenever the true quotient fits, the quotient rounds toward zero and the remainder follows the dividend.
-/
def Obligations.SignedDivision : Prop :=
  ∀ (s : State) (rd re ra rb : Reg),
    let N := s.width.bits
    let negative : Reg → Bool := fun r => s.bitAt r (N - 1)
    let fits := ¬(s.sReg ra = -(2 ^ (N - 1)) ∧ s.sReg rb = -1)
    let uq := (s.sReg ra).natAbs / (s.sReg rb).natAbs
    let ur := (s.sReg ra).natAbs % (s.sReg rb).natAbs
    let quotient : State → Reg → Prop := fun t r =>
      t.uReg r = (if negative ra = negative rb then uq else (2 ^ N - uq) % 2 ^ N) ∧
      (fits → t.sReg r = Int.tdiv (s.sReg ra) (s.sReg rb))
    let remainder : State → Reg → Prop := fun t r =>
      t.uReg r = (if negative ra then (2 ^ N - ur) % 2 ^ N else ur) ∧
      (fits → t.sReg r = Int.tmod (s.sReg ra) (s.sReg rb))
    (encode (.divs rd ra rb) = reg3 0x54 rd ra rb ∧
      (s.uReg rb = 0 → ∃ t, exec (.divs rd ra rb) s = .next t ∧
        Raised .divisionByZero (encode (.divs rd ra rb)) s t) ∧
      (s.uReg rb ≠ 0 → ∃ t, exec (.divs rd ra rb) s = .next t ∧ Frame [rd] s t ∧ quotient t rd)) ∧
    (encode (.rems rd ra rb) = reg3 0x55 rd ra rb ∧
      (s.uReg rb = 0 → ∃ t, exec (.rems rd ra rb) s = .next t ∧
        Raised .divisionByZero (encode (.rems rd ra rb)) s t) ∧
      (s.uReg rb ≠ 0 → ∃ t, exec (.rems rd ra rb) s = .next t ∧ Frame [rd] s t ∧ remainder t rd)) ∧
    (encode (.divrems rd re ra rb) = reg4 0x56 rd ra rb re ∧ (rd ≠ re →
      (s.uReg rb = 0 → ∃ t, exec (.divrems rd re ra rb) s = .next t ∧
        Raised .divisionByZero (encode (.divrems rd re ra rb)) s t) ∧
      (s.uReg rb ≠ 0 → ∃ t, exec (.divrems rd re ra rb) s = .next t ∧ Frame [rd, re] s t ∧
        quotient t rd ∧ remainder t re)))

/-- R122: each of the six division commands with a zero divisor raises DivisionByZero, code 1, with its own
command word, whatever the dividend (0 divided by 0 too), and writes no operand register and no flag. -/
def Obligations.DivisionByZeroFaults : Prop :=
  ∀ (s : State) (rd re ra rb : Reg), s.uReg rb = 0 →
    (∀ i ∈ [Instr.divu rd ra rb, .remu rd ra rb, .divs rd ra rb, .rems rd ra rb],
      ∃ t, exec i s = .next t ∧ t.block.fcode.number = 1 ∧ Raised .divisionByZero (encode i) s t) ∧
    (rd ≠ re → ∀ i ∈ [Instr.divremu rd re ra rb, .divrems rd re ra rb],
      ∃ t, exec i s = .next t ∧ t.block.fcode.number = 1 ∧ Raised .divisionByZero (encode i) s t)

/-- 44_divide.md, the sentences of R120 and R121 the spec marks as derived: the division identity, unsigned
and signed, in every case with a nonzero divisor; and the most negative value divided by −1 gives the most
negative value and remainder 0. -/
def Obligations.DivisionIdentity : Prop :=
  (∀ (w : Width) (a b : BitVec w.bits), b.toNat ≠ 0 →
    a.toNat = ((udivrem a b).1.toNat * b.toNat + (udivrem a b).2.toNat) % 2 ^ w.bits ∧
    a = mulS (sdivrem a b).1 b + (sdivrem a b).2) ∧
  ∀ w : Width, sdivrem (minValue w.bits) (ones w.bits) = (minValue w.bits, 0)

/-- 44_divide.md R118, which the spec marks as derived: the restoring division and, for a divisor below 2^32,
the small-divisor path give the pair of quotient and remainder of R110. -/
def Obligations.ReferenceDivisionsAgree : Prop :=
  ∀ (w : Width) (a b : BitVec w.bits), b.toNat ≠ 0 →
    restoringDiv a b = udivrem a b ∧ (b.toNat < 2 ^ 32 → smallDiv a b = udivrem a b)

/-! ## Compare -/

/-- R125, R126: CMPU and CMPS write both flags, by the unsigned and by the signed order, and nothing else; the
document's word-level compare gives the flags of CMPU. -/
def Obligations.ComparesWriteBothFlags : Prop :=
  ∀ (s : State) (ra rb : Reg),
    (encode (.cmpu ra rb) = cmp2 0x60 ra rb ∧
      ∃ t, exec (.cmpu ra rb) s = .next t ∧ SameRegs [] s t ∧ SameFault s t ∧ SameHost s t ∧
        (t.block.eqFlag = true ↔ s.uReg ra = s.uReg rb) ∧
        (t.block.ltFlag = true ↔ s.uReg ra < s.uReg rb) ∧
        (t.block.eqFlag, t.block.ltFlag) = wordCompare (s.block.reg ra) (s.block.reg rb) s.width.words) ∧
    (encode (.cmps ra rb) = cmp2 0x61 ra rb ∧
      ∃ t, exec (.cmps ra rb) s = .next t ∧ SameRegs [] s t ∧ SameFault s t ∧ SameHost s t ∧
        (t.block.eqFlag = true ↔ s.sReg ra = s.sReg rb) ∧
        (t.block.ltFlag = true ↔ s.sReg ra < s.sReg rb))

/-- 10_state.md R17, the part about the host: what it reads from STATUS after a compare gives all six
relations of the compared registers. -/
def Obligations.StatusGivesTheSixRelations : Prop :=
  ∀ (s t : State) (ra rb : Reg),
    (exec (.cmpu ra rb) s = .next t →
      (Relation.eq.ofStatus t.status = true ↔ s.uReg ra = s.uReg rb) ∧
      (Relation.ne.ofStatus t.status = true ↔ s.uReg ra ≠ s.uReg rb) ∧
      (Relation.lt.ofStatus t.status = true ↔ s.uReg ra < s.uReg rb) ∧
      (Relation.le.ofStatus t.status = true ↔ s.uReg ra ≤ s.uReg rb) ∧
      (Relation.gt.ofStatus t.status = true ↔ s.uReg ra > s.uReg rb) ∧
      (Relation.ge.ofStatus t.status = true ↔ s.uReg ra ≥ s.uReg rb)) ∧
    (exec (.cmps ra rb) s = .next t →
      (Relation.eq.ofStatus t.status = true ↔ s.sReg ra = s.sReg rb) ∧
      (Relation.ne.ofStatus t.status = true ↔ s.sReg ra ≠ s.sReg rb) ∧
      (Relation.lt.ofStatus t.status = true ↔ s.sReg ra < s.sReg rb) ∧
      (Relation.le.ofStatus t.status = true ↔ s.sReg ra ≤ s.sReg rb) ∧
      (Relation.gt.ofStatus t.status = true ↔ s.sReg ra > s.sReg rb) ∧
      (Relation.ge.ofStatus t.status = true ↔ s.sReg ra ≥ s.sReg rb))

/-- 45_compare.md, the sentences of R126 and R127 the spec marks as derived: with both sign bits inverted the
unsigned compare gives the flags of CMPS, because U(v ^ 2^(N−1)) = S(v) + 2^(N−1); equality is the same for
both compares; and EQ and LT are never both set. -/
def Obligations.WordComparesAgree : Prop :=
  ∀ (w : Width) (a b : BitVec w.bits),
    compareU (flipSign a) (flipSign b) = compareS a b ∧
    wordCompare (flipSign a) (flipSign b) w.words = compareS a b ∧
    ((flipSign a).toNat : Int) = a.toInt + 2 ^ (w.bits - 1) ∧
    (compareS a b).1 = (compareU a b).1 ∧
    compareU a b ≠ (true, true) ∧ compareS a b ≠ (true, true)

/-! ## Construction and extension -/

/-- R130, R131, R132, R133: CLR, MOV, LIU and LIS. -/
def Obligations.ConstantsAndMoves : Prop :=
  ∀ (s : State) (rd ra : Reg) (imm : Imm16),
    (encode (.clr rd) = reg1 0x70 rd ∧
      ∃ t, exec (.clr rd) s = .next t ∧ Frame [rd] s t ∧ t.uReg rd = 0) ∧
    (encode (.mov rd ra) = reg2 0x71 rd ra ∧
      ∃ t, exec (.mov rd ra) s = .next t ∧ Frame [rd] s t ∧ t.uReg rd = s.uReg ra) ∧
    (encode (.liu rd imm) = imm1 0x72 rd imm ∧
      ∃ t, exec (.liu rd imm) s = .next t ∧ Frame [rd] s t ∧ t.uReg rd = imm.toNat) ∧
    (encode (.lis rd imm) = imm1 0x73 rd imm ∧
      ∃ t, exec (.lis rd imm) s = .next t ∧ Frame [rd] s t ∧ t.sReg rd = imm.toInt ∧
        (∀ i < 16, t.bitAt rd i = imm.getLsbD i) ∧
        ∀ i, 16 ≤ i → i < s.width.bits → t.bitAt rd i = imm.getLsbD 15)

/-- R134, R135: EXTZ and EXTS with a nonzero byte count, byte by byte as in the rules' pseudocode. -/
def Obligations.ExtensionsFromAByteCount : Prop :=
  ∀ (s : State) (rd ra : Reg) (imm : Imm16), imm ≠ 0 →
    let m := min imm.toNat s.width.bytes
    (encode (.extz rd ra imm) = imm2 0x74 rd ra imm ∧
      ∃ t, exec (.extz rd ra imm) s = .next t ∧ Frame [rd] s t ∧
        ∀ p < s.width.bytes, t.byteAt rd p = if p < m then s.byteAt ra p else some 0x00) ∧
    (encode (.exts rd ra imm) = imm2 0x75 rd ra imm ∧
      ∃ t, exec (.exts rd ra imm) s = .next t ∧ Frame [rd] s t ∧
        ∀ p < s.width.bytes, t.byteAt rd p =
          if p < m then s.byteAt ra p else some (if s.bitAt ra (8 * m - 1) then 0xFF else 0x00))

/-- R136, R137: MKMIN sets exactly bit N−1; MKMAX gives 2^(N−1) − 1 and has the effect of MKMIN followed by
DEC. -/
def Obligations.BoundsCommands : Prop :=
  ∀ (s : State) (rd : Reg),
    (encode (.mkmin rd) = reg1 0x76 rd ∧
      ∃ t, exec (.mkmin rd) s = .next t ∧ Frame [rd] s t ∧
        (∀ i, t.bitAt rd i = decide (i = s.width.bits - 1)) ∧ t.sReg rd = -(2 ^ (s.width.bits - 1))) ∧
    (encode (.mkmax rd) = reg1 0x77 rd ∧
      ∃ t u, exec (.mkmax rd) s = .next t ∧ Frame [rd] s t ∧
        (∀ i, t.bitAt rd i = decide (i < s.width.bits - 1)) ∧ t.uReg rd = 2 ^ (s.width.bits - 1) - 1 ∧
        exec (.mkmin rd) s = .next u ∧ exec (.dec rd rd) u = .next t)

/-! ## Rotate and bit scan -/

/-- R145, R146: ROR and RORI, bit by bit, the amount reduced modulo N. -/
def Obligations.Rotations : Prop :=
  ∀ (s : State) (rd ra rb : Reg) (imm : Imm16),
    (encode (.ror rd ra rb) = reg3 0x80 rd ra rb ∧
      ∃ t, exec (.ror rd ra rb) s = .next t ∧ Frame [rd] s t ∧
        ∀ i < s.width.bits, t.bitAt rd i =
          s.bitAt ra ((i + s.uReg rb % s.width.bits) % s.width.bits)) ∧
    (encode (.rori rd ra imm) = imm2 0x88 rd ra imm ∧
      ∃ t, exec (.rori rd ra imm) s = .next t ∧ Frame [rd] s t ∧
        ∀ i < s.width.bits, t.bitAt rd i =
          s.bitAt ra ((i + imm.toNat % s.width.bits) % s.width.bits))

/-- 47_derived_bitops.md R149, which the spec marks as derived, and the document's method in R147: the
word-level rotation computes the rotation, and the scan of the most significant nonzero word by 16/8/4/2/1-bit
probes gives the index FHB gives. -/
def Obligations.WordRotationAndProbeScanAgree : Prop :=
  ∀ (w : Width) (a : BitVec w.bits),
    (∀ r : Nat, wordRotate a (r % w.bits) = rotateRight a r) ∧
    wordHighest a w.words = highestBelow a w.bits

/-- R147, R148: FHB and FLB write the index of the highest and of the lowest bit set, and all ones for a zero
source; the highest index is the base-2 logarithm, and the document's probe search finds it. -/
def Obligations.BitScans : Prop :=
  ∀ (s : State) (rd ra : Reg),
    (encode (.fhb rd ra) = reg2 0x81 rd ra ∧
      ∃ t, exec (.fhb rd ra) s = .next t ∧ Frame [rd] s t ∧
        (s.uReg ra = 0 → t.uReg rd = 2 ^ s.width.bits - 1) ∧
        (s.uReg ra ≠ 0 → s.bitAt ra (t.uReg rd) = true ∧ (∀ i, t.uReg rd < i → s.bitAt ra i = false) ∧
          t.uReg rd = Nat.log2 (s.uReg ra) ∧
          wordHighest (s.block.reg ra) s.width.words = some (t.uReg rd))) ∧
    (encode (.flb rd ra) = reg2 0x82 rd ra ∧
      ∃ t, exec (.flb rd ra) s = .next t ∧ Frame [rd] s t ∧
        (s.uReg ra = 0 → t.uReg rd = 2 ^ s.width.bits - 1) ∧
        (s.uReg ra ≠ 0 → s.bitAt ra (t.uReg rd) = true ∧ ∀ i < t.uReg rd, s.bitAt ra i = false))

/-! ## The machine as a whole -/

/-- 10_state.md and 60_exceptions.md (parts of R14, R17, R18, R160): whatever a command is and however it ends,
it changes no register but its destinations, EQ and LT only if it is a compare, FCODE and FCMD only by raising
a fault, and neither the width nor the host's side; a command that is well formed raises nothing but
DivisionByZero, and that only with a zero divisor. The last disjunct is the model's (DEDUCED,
notes/assumptions/8.md): the spec never executes a command without a legal encoding, and `exec` of one raises
IllegalCommand with the word of its fields. -/
def Obligations.CommandsWriteOnlyWhatTheirRulesName : Prop :=
  ∀ (i : Instr) (s : State), ∃ t, exec i s = .next t ∧
    SameRegs (dests i) s t ∧ SameHost s t ∧ (isCompare i = false → SameFlags s t) ∧
    (SameFault s t ∨
      (∃ rb, divisor i = some rb ∧ s.uReg rb = 0 ∧ Raised .divisionByZero (encode i) s t) ∨
      (i.wellFormed = false ∧ Raised .illegalCommand (encode i) s t))

/-- 70_reset_and_hazards.md and 10_state.md (R185, R22): a command reads its source registers and nothing
else: in two states of one width, both not faulted, that agree on its sources, its destinations get the same
values, its flags (if it is a compare) are the same, and it raises a fault in both or in neither. -/
def Obligations.CommandsReadOnlyTheirSources : Prop :=
  ∀ (i : Instr) (s s' t t' : State), s.width = s'.width →
    s.block.fcode = .none → s'.block.fcode = .none → (∀ r ∈ sources i, s.uReg r = s'.uReg r) →
    exec i s = .next t → exec i s' = .next t' →
    (SameFault s t ↔ SameFault s' t') ∧
    (SameFault s t → (∀ r ∈ dests i, t.uReg r = t'.uReg r) ∧
      (isCompare i = true →
        t.block.eqFlag = t'.block.eqFlag ∧ t.block.ltFlag = t'.block.ltFlag))

/-- 60_exceptions.md R166, which the spec marks as derived: a step that makes the block faulted has written
nothing but FCODE and FCMD, and FCMD is the word issued. -/
def Obligations.FaultsArePrecise : Prop :=
  ∀ s t : State, s.block.fcode = .none → step s = .next t → t.block.fcode ≠ .none →
    ∃ (w : Word) (rest : List Transaction) (e : Exc), s.pending = .issue w :: rest ∧
      Raised e w { s with pending := rest } t

/-- 10_state.md (a part of R18) and 60_exceptions.md: FCODE returns to 0 only by ClrFault or Reset, and is
never changed from one fault to another. -/
def Obligations.OnlyClrFaultAndResetClearAFault : Prop :=
  ∀ s t : State, s.block.fcode ≠ .none → step s = .next t →
    (t.block.fcode = s.block.fcode ∧ t.block.fcmd = s.block.fcmd) ∨
    (t.block.fcode = .none ∧ t.block.fcmd = 0 ∧
      ∃ rest, s.pending = .clrFault :: rest ∨ ∃ draw, s.pending = .reset draw :: rest)

/-- 45_compare.md R127, which the spec marks as derived: EQ and LT keep their values in every step that is not
a Reset and not an executed CMPU or CMPS: no other command, no fault, no ClrFault and no data transaction
changes them, and a compare issued while the block is faulted does not either. -/
def Obligations.FlagsChangeOnlyByCompareAndReset : Prop :=
  ∀ s t : State, step s = .next t → SameFlags s t ∨
    (∃ draw rest, s.pending = .reset draw :: rest) ∨
    (s.block.fcode = .none ∧ ∃ w rest i, s.pending = .issue w :: rest ∧ decode w = .ok i ∧ isCompare i = true)

/-- 20_memory.md (R31) with the model's host side (notes/assumptions/4.md, 5.md): no step changes the width,
and a step that is not idle takes exactly the first transaction off the host's stream and returns at most one
result, which is appended to the earlier ones. -/
def Obligations.StepsTakeOneTransactionAtAFixedWidth : Prop :=
  ∀ s t : State, step s = .next t →
    t.width = s.width ∧ t.pending = s.pending.tail ∧
    (t.replies = s.replies ∨ ∃ r, t.replies = s.replies ++ [r])

/-- 10_state.md and 60_exceptions.md (R17, R19, R160 to R162): the invariant of every run is kept by every
step. -/
def Obligations.EveryStepKeepsTheInvariant : Prop :=
  ∀ s t : State, s.Inv → step s = .next t → t.Inv

/-- The invariant holds after reset, for every width and every draw (notes/assumptions/3.md), and in
`State.reset` (notes/assumptions/2.md). -/
def Obligations.InvariantHoldsAfterReset : Prop :=
  (∀ (w : Width) (draw : Draw), (State.afterReset w draw).Inv) ∧ State.reset.Inv

/-- R3, R4: a block can be built exactly for the multiples of 32 from 32 to 32768, its words and bytes are
N/32 and N/8, and N never changes while the block runs. -/
def Obligations.WidthsAreTheLegalOnes : Prop :=
  (∀ n : Nat, (n % 32 = 0 ∧ 32 ≤ n ∧ n ≤ 32768 →
      ∃ w : Width, Width.ofBits? n = some w ∧ w.bits = n ∧ w.bytes = n / 8 ∧ w.words = n / 32) ∧
    (¬(n % 32 = 0 ∧ 32 ≤ n ∧ n ≤ 32768) → Width.ofBits? n = none)) ∧
  ∀ s t : State, step s = .next t → t.width = s.width

/-! ## Derived math left to the host -/

/-- 47_derived_bitops.md section 3: the three commands leave EQ = 1 exactly when x1 has one bit set or is
zero; the repeated multiplication leaves the factorial modulo 2^N in x1. -/
def Obligations.OneBitTestAndFactorial : Prop :=
  (∀ (s : State) (rest : List Transaction), s.block.fcode = .none → s.pending = oneBitTest ++ rest →
    ∃ t, Host.Core.run Sys2Proof.core 3 s = .next t ∧ SameRegs [2, 3] s t ∧ SameFault s t ∧
      SameHost { s with pending := rest } t ∧
      (t.block.eqFlag = true ↔ s.uReg 1 = 0 ∨ ∃ k < s.width.bits, s.uReg 1 = 2 ^ k)) ∧
  ∀ (s : State) (m : Nat) (rest : List Transaction), m ≤ 65535 → s.block.fcode = .none →
    s.pending = factorialSequence m ++ rest →
    ∃ t, Host.Core.run Sys2Proof.core (factorialSequence m).length s = .next t ∧
      Frame [1, 2] { s with pending := rest } t ∧ t.uReg 1 = m.factorial % 2 ^ s.width.bits

/-- 47_derived_bitops.md section 3, the spec's own illustration: from any unfaulted state with a nonzero x1,
the host's Newton iteration ends within some number of rounds (more are never made), with LT = 0 and the floor
of the square root of x1 in x3, x1 unchanged; nothing faults. -/
def Obligations.SquareRootLoop : Prop :=
  ∀ s : State, s.block.fcode = .none → s.uReg 1 ≠ 0 →
    ∃ (u : State) (rounds : Nat), s.perform sqrtSeed = .next u ∧
      ∀ fuel ≥ rounds, ∃ t, sqrtLoop fuel u = .next t ∧
      t.block.ltFlag = false ∧ SameRegs [2, 3, 4] s t ∧ SameFault s t ∧ t.pending = s.pending ∧
      t.uReg 3 * t.uReg 3 ≤ s.uReg 1 ∧ s.uReg 1 < (t.uReg 3 + 1) * (t.uReg 3 + 1)
end

