-- ==== Sys2Proof/Laws/Decode.lean ====
section
/-! SUPPORT. The fields of encoded words, and what the fixed-bit masks say (spec/30_encoding.md R51, R55). -/

namespace Sys2Proof

theorem opcodeOf_eq (w : Word) : opcodeOf w = w.toNat / 2 ^ 24 := by
  have := w.isLt
  simp only [opcodeOf, bits]; omega

theorem opcodeOf_lt (w : Word) : opcodeOf w < 256 := Nat.mod_lt _ (by decide)

@[simp] theorem val_regAt (w : Word) (lo : Nat) : (regAt w lo).val = bits w lo 4 := rfl

/-! ## The fields of an encoded word -/

section
variable (op : Nat) (hop : op < 256) (rd ra rb re : Reg) (imm : Imm16)
include hop

theorem toNat_reg3 : (reg3 op rd ra rb).toNat =
    op * 2 ^ 24 + rd.val * 2 ^ 20 + ra.val * 2 ^ 16 + rb.val * 2 ^ 12 := by
  simp only [reg3, BitVec.toNat_ofNat]; omega
theorem toNat_reg4 : (reg4 op rd ra rb re).toNat =
    op * 2 ^ 24 + rd.val * 2 ^ 20 + ra.val * 2 ^ 16 + rb.val * 2 ^ 12 + re.val * 2 ^ 8 := by
  simp only [reg4, BitVec.toNat_ofNat]; omega
theorem toNat_reg2 : (reg2 op rd ra).toNat = op * 2 ^ 24 + rd.val * 2 ^ 20 + ra.val * 2 ^ 16 := by
  simp only [reg2, BitVec.toNat_ofNat]; omega
theorem toNat_reg1 : (reg1 op rd).toNat = op * 2 ^ 24 + rd.val * 2 ^ 20 := by
  simp only [reg1, BitVec.toNat_ofNat]; omega
theorem toNat_cmp2 : (cmp2 op ra rb).toNat = op * 2 ^ 24 + ra.val * 2 ^ 16 + rb.val * 2 ^ 12 := by
  simp only [cmp2, BitVec.toNat_ofNat]; omega
theorem toNat_imm2 : (imm2 op rd ra imm).toNat =
    op * 2 ^ 24 + rd.val * 2 ^ 20 + ra.val * 2 ^ 16 + imm.toNat := by
  have := imm.isLt
  simp only [imm2, BitVec.toNat_ofNat]; omega
theorem toNat_imm1 : (imm1 op rd imm).toNat = op * 2 ^ 24 + rd.val * 2 ^ 20 + imm.toNat := by
  have := imm.isLt
  simp only [imm1, BitVec.toNat_ofNat]; omega
end

/-! ## The masks -/

/-- A field is zero exactly when all its bits are. -/
theorem bits_eq_zero_iff (w : Word) (lo len : Nat) :
    bits w lo len = 0 ↔ ∀ i < len, w.getLsbD (lo + i) = false := by
  constructor
  · intro h i hi
    have := congrArg (Nat.testBit · i) h
    simpa [bits, Nat.testBit_mod_two_pow, Nat.testBit_div_two_pow, hi, BitVec.testBit_toNat, Nat.add_comm]
      using this
  · intro h
    apply Nat.eq_of_testBit_eq
    intro i
    by_cases hi : i < len
    · simpa [bits, Nat.testBit_mod_two_pow, Nat.testBit_div_two_pow, hi, BitVec.testBit_toNat, Nat.add_comm]
        using h i hi
    · simp [bits, Nat.testBit_mod_two_pow, hi]

/-- The mask test of R55, bit by bit, for a mask that holds the whole opcode. -/
theorem mask_test_iff (w m : Word) (hm : ∀ i, 24 ≤ i → i < 32 → m.getLsbD i = true) :
    w &&& m = BitVec.ofNat 32 (opcodeOf w * 2 ^ 24) ↔
      ∀ i < 24, m.getLsbD i = true → w.getLsbD i = false := by
  have hop : ∀ i < 32, (BitVec.ofNat 32 (opcodeOf w * 2 ^ 24)).getLsbD i =
      (decide (24 ≤ i) && w.getLsbD i) := by
    intro i hi
    simp only [BitVec.getLsbD_ofNat, hi, decide_true, Bool.true_and, opcodeOf_eq, Nat.testBit_mul_two_pow,
      Nat.testBit_div_two_pow, BitVec.testBit_toNat]
    by_cases h : 24 ≤ i <;> simp [h]
  constructor
  · intro h i hi hmi
    have := congrArg (BitVec.getLsbD · i) h
    simp only [BitVec.getLsbD_and, hmi, Bool.and_true, hop i (by omega)] at this
    rw [this]; simp; omega
  · intro h
    apply BitVec.eq_of_getLsbD_eq
    intro i hi
    rw [BitVec.getLsbD_and, hop i hi]
    by_cases h24 : 24 ≤ i
    · simp [h24, hm i h24 hi]
    · have hi' : i < 24 := by omega
      cases hmi : m.getLsbD i
      · simp [h24]
      · simp [h24, h i hi' hmi]

theorem mask_reg3_iff (w : Word) :
    w &&& Format.mask .reg3 = BitVec.ofNat 32 (opcodeOf w * 2 ^ 24) ↔ bits w 0 12 = 0 := by
  rw [mask_test_iff _ _ (by decide), bits_eq_zero_iff]
  have : ∀ i < 24, (Format.mask .reg3).getLsbD i = decide (i < 12) := by decide
  constructor <;> intro h i hi
  · simpa using h i (by omega) (by rw [this i (by omega)]; simpa using hi)
  · intro hm; rw [this i hi] at hm; simpa using h i (by simpa using hm)

theorem mask_reg4_iff (w : Word) :
    w &&& Format.mask .reg4 = BitVec.ofNat 32 (opcodeOf w * 2 ^ 24) ↔ bits w 0 8 = 0 := by
  rw [mask_test_iff _ _ (by decide), bits_eq_zero_iff]
  have : ∀ i < 24, (Format.mask .reg4).getLsbD i = decide (i < 8) := by decide
  constructor <;> intro h i hi
  · simpa using h i (by omega) (by rw [this i (by omega)]; simpa using hi)
  · intro hm; rw [this i hi] at hm; simpa using h i (by simpa using hm)

theorem mask_reg2_iff (w : Word) :
    w &&& Format.mask .reg2 = BitVec.ofNat 32 (opcodeOf w * 2 ^ 24) ↔ bits w 0 16 = 0 := by
  rw [mask_test_iff _ _ (by decide), bits_eq_zero_iff]
  have : ∀ i < 24, (Format.mask .reg2).getLsbD i = decide (i < 16) := by decide
  constructor <;> intro h i hi
  · simpa using h i (by omega) (by rw [this i (by omega)]; simpa using hi)
  · intro hm; rw [this i hi] at hm; simpa using h i (by simpa using hm)

theorem mask_reg1_iff (w : Word) :
    w &&& Format.mask .reg1 = BitVec.ofNat 32 (opcodeOf w * 2 ^ 24) ↔ bits w 0 20 = 0 := by
  rw [mask_test_iff _ _ (by decide), bits_eq_zero_iff]
  have : ∀ i < 24, (Format.mask .reg1).getLsbD i = decide (i < 20) := by decide
  constructor <;> intro h i hi
  · simpa using h i (by omega) (by rw [this i (by omega)]; simpa using hi)
  · intro hm; rw [this i hi] at hm; simpa using h i (by simpa using hm)

theorem mask_imm2_iff (w : Word) :
    w &&& Format.mask .imm2 = BitVec.ofNat 32 (opcodeOf w * 2 ^ 24) ↔ True := by
  rw [mask_test_iff _ _ (by decide), iff_true]
  have : ∀ i < 24, (Format.mask .imm2).getLsbD i = false := by decide
  intro i hi hm
  rw [this i hi] at hm
  exact absurd hm (by decide)

theorem mask_imm1_iff (w : Word) :
    w &&& Format.mask .imm1 = BitVec.ofNat 32 (opcodeOf w * 2 ^ 24) ↔ bits w 16 4 = 0 := by
  rw [mask_test_iff _ _ (by decide), bits_eq_zero_iff]
  have : ∀ i < 24, (Format.mask .imm1).getLsbD i = (decide (16 ≤ i) && decide (i < 20)) := by decide
  constructor
  · intro h i hi
    exact h (16 + i) (by omega) (by rw [this _ (by omega)]; simp; omega)
  · intro h i hi hm
    rw [this i hi] at hm
    simp only [Bool.and_eq_true, decide_eq_true_eq] at hm
    have := h (i - 16) (by omega)
    rwa [Nat.add_sub_cancel' hm.1] at this

theorem mask_cmp2_iff (w : Word) :
    w &&& Format.mask .cmp2 = BitVec.ofNat 32 (opcodeOf w * 2 ^ 24) ↔ bits w 0 12 = 0 ∧ bits w 20 4 = 0 := by
  rw [mask_test_iff _ _ (by decide), bits_eq_zero_iff, bits_eq_zero_iff]
  have : ∀ i < 24, (Format.mask .cmp2).getLsbD i = (decide (i < 12) || decide (20 ≤ i)) := by decide
  constructor
  · intro h
    refine ⟨fun i hi => ?_, fun i hi => ?_⟩
    · simpa using h i (by omega) (by rw [this i (by omega)]; simp; omega)
    · exact h (20 + i) (by omega) (by rw [this _ (by omega)]; simp)
  · rintro ⟨h1, h2⟩ i hi hm
    rw [this i hi] at hm
    simp only [Bool.or_eq_true, decide_eq_true_eq] at hm
    rcases hm with hm | hm
    · simpa using h1 i hm
    · have := h2 (i - 20) (by omega)
      rwa [Nat.add_sub_cancel' hm] at this

end Sys2Proof
end

