-- ==== Sys2Proof/Laws/State.lean ====
section
/-! SUPPORT. One lemma per field per update of `Block` and `State`, and what each state operation does. -/

namespace Sys2Proof.Machine

variable {n : Nat}

/-! ## Operand registers -/

@[simp] theorem Block.reg_setReg (b : Block n) (d r : Reg) (v : BitVec n) :
    (b.setReg d v).reg r = if r = d then v else b.reg r := by
  simp only [Block.reg, Block.setReg, Fin.getElem_fin, Vector.getElem_set, Fin.ext_iff, eq_comm]

@[simp] theorem Block.eqFlag_setReg (b : Block n) (d : Reg) (v : BitVec n) :
    (b.setReg d v).eqFlag = b.eqFlag := rfl
@[simp] theorem Block.ltFlag_setReg (b : Block n) (d : Reg) (v : BitVec n) :
    (b.setReg d v).ltFlag = b.ltFlag := rfl
@[simp] theorem Block.fcode_setReg (b : Block n) (d : Reg) (v : BitVec n) :
    (b.setReg d v).fcode = b.fcode := rfl
@[simp] theorem Block.fcmd_setReg (b : Block n) (d : Reg) (v : BitVec n) :
    (b.setReg d v).fcmd = b.fcmd := rfl

/-! ## Flags -/

@[simp] theorem Block.reg_setFlags (b : Block n) (f : Bool × Bool) (r : Reg) :
    (b.setFlags f).reg r = b.reg r := rfl
@[simp] theorem Block.eqFlag_setFlags (b : Block n) (f : Bool × Bool) : (b.setFlags f).eqFlag = f.1 := rfl
@[simp] theorem Block.ltFlag_setFlags (b : Block n) (f : Bool × Bool) : (b.setFlags f).ltFlag = f.2 := rfl
@[simp] theorem Block.fcode_setFlags (b : Block n) (f : Bool × Bool) : (b.setFlags f).fcode = b.fcode := rfl
@[simp] theorem Block.fcmd_setFlags (b : Block n) (f : Bool × Bool) : (b.setFlags f).fcmd = b.fcmd := rfl

/-! ## Faults -/

@[simp] theorem Block.reg_raise (b : Block n) (e : Exc) (w : Word) (r : Reg) :
    (b.raise e w).reg r = b.reg r := rfl
@[simp] theorem Block.eqFlag_raise (b : Block n) (e : Exc) (w : Word) : (b.raise e w).eqFlag = b.eqFlag := rfl
@[simp] theorem Block.ltFlag_raise (b : Block n) (e : Exc) (w : Word) : (b.raise e w).ltFlag = b.ltFlag := rfl
@[simp] theorem Block.fcode_raise (b : Block n) (e : Exc) (w : Word) : (b.raise e w).fcode = e.code := rfl
@[simp] theorem Block.fcmd_raise (b : Block n) (e : Exc) (w : Word) : (b.raise e w).fcmd = w := rfl

@[simp] theorem Block.reg_clearFault (b : Block n) (r : Reg) : b.clearFault.reg r = b.reg r := rfl
@[simp] theorem Block.eqFlag_clearFault (b : Block n) : b.clearFault.eqFlag = b.eqFlag := rfl
@[simp] theorem Block.ltFlag_clearFault (b : Block n) : b.clearFault.ltFlag = b.ltFlag := rfl
@[simp] theorem Block.fcode_clearFault (b : Block n) : b.clearFault.fcode = .none := rfl
@[simp] theorem Block.fcmd_clearFault (b : Block n) : b.clearFault.fcmd = 0 := rfl

theorem Block.faulted_iff (b : Block n) : b.faulted = true ↔ b.fcode ≠ .none := by
  simp [Block.faulted]

/-! ## The operand store -/

theorem Block.byteAt_congr {b c : Block n} {r : Reg} (h : c.reg r = b.reg r) (p : Nat) :
    c.byteAt r p = b.byteAt r p := by
  simp [Block.byteAt, h]

@[simp] theorem Block.reg_memWrite (b : Block n) (d r : Reg) (p count : Nat) (v : BitVec (8 * count)) :
    (b.memWrite d p count v).reg r = if r = d then putBytes (b.reg d) p v count else b.reg r := by
  simp [Block.memWrite]
@[simp] theorem Block.eqFlag_memWrite (b : Block n) (d : Reg) (p count : Nat) (v : BitVec (8 * count)) :
    (b.memWrite d p count v).eqFlag = b.eqFlag := rfl
@[simp] theorem Block.ltFlag_memWrite (b : Block n) (d : Reg) (p count : Nat) (v : BitVec (8 * count)) :
    (b.memWrite d p count v).ltFlag = b.ltFlag := rfl
@[simp] theorem Block.fcode_memWrite (b : Block n) (d : Reg) (p count : Nat) (v : BitVec (8 * count)) :
    (b.memWrite d p count v).fcode = b.fcode := rfl
@[simp] theorem Block.fcmd_memWrite (b : Block n) (d : Reg) (p count : Nat) (v : BitVec (8 * count)) :
    (b.memWrite d p count v).fcmd = b.fcmd := rfl

/-! ## Reset -/

@[simp] theorem Block.reg_afterReset (draw : Draw) (r : Reg) :
    (Block.afterReset n draw).reg r = BitVec.ofNat n draw[r] := by
  simp only [Block.reg, Block.afterReset, Fin.getElem_fin, Vector.getElem_mk, List.getElem_toArray,
    List.getElem_map, Vector.getElem_toList]
@[simp] theorem Block.eqFlag_afterReset (draw : Draw) : (Block.afterReset n draw).eqFlag = false := rfl
@[simp] theorem Block.ltFlag_afterReset (draw : Draw) : (Block.afterReset n draw).ltFlag = false := rfl
@[simp] theorem Block.fcode_afterReset (draw : Draw) : (Block.afterReset n draw).fcode = .none := rfl
@[simp] theorem Block.fcmd_afterReset (draw : Draw) : (Block.afterReset n draw).fcmd = 0 := rfl

/-! ## The machine's state -/

@[simp] theorem State.width_withBlock (s : State) (b : Block s.width.bits) : (s.withBlock b).width = s.width := rfl
@[simp] theorem State.block_withBlock (s : State) (b : Block s.width.bits) : (s.withBlock b).block = b := rfl
@[simp] theorem State.pending_withBlock (s : State) (b : Block s.width.bits) :
    (s.withBlock b).pending = s.pending := rfl
@[simp] theorem State.replies_withBlock (s : State) (b : Block s.width.bits) :
    (s.withBlock b).replies = s.replies := rfl

@[simp] theorem State.uReg_withBlock (s : State) (b : Block s.width.bits) (r : Reg) :
    (s.withBlock b).uReg r = (b.reg r).toNat := rfl
@[simp] theorem State.sReg_withBlock (s : State) (b : Block s.width.bits) (r : Reg) :
    (s.withBlock b).sReg r = (b.reg r).toInt := rfl
@[simp] theorem State.bitAt_withBlock (s : State) (b : Block s.width.bits) (r : Reg) (i : Nat) :
    (s.withBlock b).bitAt r i = (b.reg r).getLsbD i := rfl
@[simp] theorem State.byteAt_withBlock (s : State) (b : Block s.width.bits) (r : Reg) (p : Nat) :
    (s.withBlock b).byteAt r p = b.byteAt r p := rfl
@[simp] theorem State.status_withBlock (s : State) (b : Block s.width.bits) :
    (s.withBlock b).status = b.status := rfl
@[simp] theorem State.fcmd_withBlock (s : State) (b : Block s.width.bits) : (s.withBlock b).fcmd = b.fcmd := rfl
@[simp] theorem State.faulted_withBlock (s : State) (b : Block s.width.bits) :
    (s.withBlock b).faulted = b.faulted := rfl

@[simp] theorem State.width_answer (s : State) (r : Reply) : (s.answer r).width = s.width := rfl
@[simp] theorem State.block_answer (s : State) (r : Reply) : (s.answer r).block = s.block := rfl
@[simp] theorem State.pending_answer (s : State) (r : Reply) : (s.answer r).pending = s.pending := rfl
@[simp] theorem State.replies_answer (s : State) (r : Reply) : (s.answer r).replies = s.replies ++ [r] := rfl

@[simp] theorem State.width_present (s : State) (t : Transaction) : (s.present t).width = s.width := rfl
@[simp] theorem State.block_present (s : State) (t : Transaction) : (s.present t).block = s.block := rfl
@[simp] theorem State.pending_present (s : State) (t : Transaction) :
    (s.present t).pending = t :: s.pending := rfl
@[simp] theorem State.replies_present (s : State) (t : Transaction) : (s.present t).replies = s.replies := rfl

/-! ## Frames -/

theorem SameRegs.refl (ds : List Reg) (s : State) : SameRegs ds s s := ⟨rfl, fun _ _ => rfl, fun _ _ _ => rfl⟩
theorem SameFlags.refl (s : State) : SameFlags s s := ⟨rfl, rfl⟩
theorem SameFault.refl (s : State) : SameFault s s := ⟨rfl, rfl⟩
theorem SameHost.refl (s : State) : SameHost s s := ⟨rfl, rfl⟩
theorem Frame.refl (ds : List Reg) (s : State) : Frame ds s s := ⟨.refl _ _, .refl _, .refl _, .refl _⟩

/-- A block whose registers outside `ds` are those of `s` gives a state with the same registers outside `ds`. -/
theorem SameRegs.withBlock {ds : List Reg} {s : State} {b : Block s.width.bits}
    (h : ∀ r, r ∉ ds → b.reg r = s.block.reg r) : SameRegs ds s (s.withBlock b) where
  width := rfl
  regs r hr := by simp [State.uReg, h r hr]
  bytes r p hr := Block.byteAt_congr (h r hr) p

/-- Writing one register changes that register at most. -/
theorem frame_setReg (s : State) (d : Reg) (v : BitVec s.width.bits) :
    Frame [d] s (s.withBlock (s.block.setReg d v)) where
  regs := .withBlock fun r hr => by simp_all
  flags := ⟨rfl, rfl⟩
  fault := ⟨rfl, rfl⟩
  host := ⟨rfl, rfl⟩

/-- Writing two registers changes those two at most. -/
theorem frame_setReg_setReg (s : State) (d e : Reg) (v u : BitVec s.width.bits) :
    Frame [d, e] s (s.withBlock ((s.block.setReg d v).setReg e u)) where
  regs := .withBlock fun r hr => by simp_all
  flags := ⟨rfl, rfl⟩
  fault := ⟨rfl, rfl⟩
  host := ⟨rfl, rfl⟩

/-- `raise` writes FCODE and FCMD and nothing else (R163). -/
theorem raised_raise (s : State) (e : Exc) (w : Word) : Raised e w s (s.withBlock (s.block.raise e w)) where
  fcode := rfl
  fcmd := rfl
  regs := .withBlock fun _ _ => rfl
  flags := ⟨rfl, rfl⟩
  host := ⟨rfl, rfl⟩

end Sys2Proof.Machine
end

