-- ==== Sys2Proof/Laws/Values.lean ====
section
/-! SUPPORT. What the value-level functions compute, in terms of the operations of `BitVec` and of `Nat`. -/

namespace Sys2Proof.Machine

variable {n : Nat}

/-! ## Widths -/

theorem width_bits_pos (w : Width) : 0 < w.bits := by have := w.pos; simp only [Width.bits]; omega
theorem width_bits_ge (w : Width) : 32 ≤ w.bits := by have := w.pos; simp only [Width.bits]; omega
theorem width_bits_le (w : Width) : w.bits ≤ 32768 := by
  have := w.le; simp only [Width.bits]; omega
@[simp] theorem width_bits_div_eight (w : Width) : w.bits / 8 = w.bytes := by
  simp only [Width.bits, Width.bytes]; omega
@[simp] theorem width_bits_div_word (w : Width) : w.bits / 32 = w.words := by
  simp only [Width.bits]; omega
theorem width_eight_mul_bytes (w : Width) : 8 * w.bytes = w.bits := by
  simp only [Width.bits, Width.bytes]; omega

/-! ## Truncation and extension -/

theorem toNat_trunc (n : Nat) (k : Int) : ((trunc n k).toNat : Int) = k % 2 ^ n := by
  have h : (0 : Int) < 2 ^ n := by positivity
  simp only [trunc, BitVec.toNat_ofInt, Nat.cast_pow, Nat.cast_ofNat]
  exact Int.toNat_of_nonneg (Int.emod_nonneg _ h.ne')

@[simp] theorem trunc_natCast (n k : Nat) : trunc n (k : Int) = BitVec.ofNat n k := by
  simp [trunc]

theorem toNat_trunc_natCast (n k : Nat) : (trunc n (k : Int)).toNat = k % 2 ^ n := by simp

theorem trunc_add (a b : BitVec n) : trunc n ((a.toNat : Int) + b.toNat) = a + b := by
  simp [trunc, BitVec.ofInt_add]

theorem trunc_add_one (a : BitVec n) : trunc n ((a.toNat : Int) + 1) = a + 1 := by
  simp [trunc, BitVec.ofInt_add]

theorem trunc_sub (a b : BitVec n) : trunc n ((a.toNat : Int) - b.toNat) = a - b := by
  simp [trunc, Int.sub_eq_add_neg, BitVec.ofInt_add, BitVec.ofInt_neg, BitVec.sub_eq_add_neg]

theorem trunc_sub_one (a : BitVec n) : trunc n ((a.toNat : Int) - 1) = a - 1 := by
  simp [trunc, Int.sub_eq_add_neg, BitVec.ofInt_add, BitVec.ofInt_neg, BitVec.sub_eq_add_neg]

theorem negate_eq_neg (a : BitVec n) : negate a = -a := by
  rw [BitVec.neg_eq_not_add, negate, trunc_add_one]; rfl

theorem mulU_eq_mul (a b : BitVec n) : mulU a b = a * b := by
  apply BitVec.eq_of_toNat_eq
  rw [mulU, toNat_trunc_natCast, BitVec.toNat_mul]

theorem zext_eq_setWidth {m : Nat} (n : Nat) (v : BitVec m) : zext n v = v.setWidth n := by
  apply BitVec.eq_of_toNat_eq
  simp [zext]

theorem sext_eq_signExtend {m : Nat} (n : Nat) (v : BitVec m) : sext n v = v.signExtend n := rfl

theorem ones_eq_allOnes (n : Nat) : ones n = BitVec.allOnes n := by
  rw [ones, trunc, BitVec.ofInt_neg]
  simpa using BitVec.neg_one_eq_allOnes

theorem signBit_eq_msb (a : BitVec n) : signBit a = a.msb := by
  simp [signBit, BitVec.msb_eq_getLsbD_last]

/-- The magnitude of the signed view, read as unsigned, is the absolute value of the signed reading. -/
theorem toNat_magnitude (a : BitVec n) : (magnitude a).toNat = a.toInt.natAbs := by
  rw [magnitude, signBit_eq_msb, negate_eq_neg]
  split
  case isTrue h =>
    have := a.isLt
    rw [BitVec.toNat_neg, BitVec.toInt_eq_msb_cond, if_pos h, Nat.mod_eq_of_lt]
    · omega
    · have := BitVec.msb_eq_true_iff_two_mul_ge.mp h
      have : 0 < a.toNat := by by_contra hc; simp_all
      omega
  case isFalse h =>
    rw [BitVec.toInt_eq_msb_cond, if_neg h]; simp

/-! ## Bytes and words -/

@[simp] theorem getLsbD_byteOf (v : BitVec n) (p i : Nat) :
    (byteOf v p).getLsbD i = (decide (i < 8) && v.getLsbD (8 * p + i)) := by simp [byteOf]

@[simp] theorem getLsbD_wordOf (v : BitVec n) (k i : Nat) :
    (wordOf v k).getLsbD i = (decide (i < 32) && v.getLsbD (32 * k + i)) := by simp [wordOf]

theorem toNat_wordOf (v : BitVec n) (k : Nat) : (wordOf v k).toNat = v.toNat / 2 ^ (32 * k) % 2 ^ 32 := by
  simp [wordOf, Nat.shiftRight_eq_div_pow]

theorem toNat_byteOf (v : BitVec n) (p : Nat) : (byteOf v p).toNat = v.toNat / 2 ^ (8 * p) % 2 ^ 8 := by
  simp [byteOf, Nat.shiftRight_eq_div_pow]

/-- `setByte` replaces the addressed byte and keeps every other bit (spec/20_memory.md R35). -/
theorem getLsbD_setByte (v : BitVec n) (p : Nat) (b : Byte) (i : Nat) (hi : i < n) :
    (setByte v p b).getLsbD i =
      if 8 * p ≤ i ∧ i < 8 * p + 8 then b.getLsbD (i - 8 * p) else v.getLsbD i := by
  have h255 : ∀ j, Nat.testBit 255 j = decide (j < 8) := fun j => Nat.testBit_two_pow_sub_one 8 j
  simp only [setByte, BitVec.getLsbD_or, BitVec.getLsbD_and, BitVec.getLsbD_not, BitVec.getLsbD_shiftLeft,
    BitVec.getLsbD_ofNat, hi, decide_true, Bool.true_and, h255]
  by_cases h1 : i < 8 * p
  · simp [h1, Nat.not_le.mpr h1]
  · have h2 : i - 8 * p < n := by omega
    by_cases h3 : i < 8 * p + 8
    · have h4 : i - 8 * p < 8 := by omega
      simp [h1, h2, h3, h4, Nat.le_of_not_lt h1, BitVec.testBit_toNat]
    · have h4 : ¬ i - 8 * p < 8 := by omega
      have h5 : b.getLsbD (i - 8 * p) = false := BitVec.getLsbD_of_ge _ _ (by omega)
      simp [h1, h2, h3, h4, BitVec.testBit_toNat, h5]

/-- The bytes of a list of bytes are those of its number. -/
theorem ofBytes_lt (bs : List Byte) : ofBytes bs < 2 ^ (8 * bs.length) := by
  induction bs with
  | nil => simp [ofBytes]
  | cons b bs ih =>
    have := b.isLt
    simp only [ofBytes, List.length_cons]
    calc b.toNat + 2 ^ 8 * ofBytes bs < 2 ^ 8 * (ofBytes bs + 1) := by omega
      _ ≤ 2 ^ 8 * 2 ^ (8 * bs.length) := by gcongr; omega
      _ = 2 ^ (8 * (bs.length + 1)) := by rw [← pow_add]; congr 1; omega

theorem ofWords_lt (ds : List Word) : ofWords ds < 2 ^ (32 * ds.length) := by
  induction ds with
  | nil => simp [ofWords]
  | cons d ds ih =>
    have := d.isLt
    simp only [ofWords, List.length_cons]
    calc d.toNat + 2 ^ 32 * ofWords ds < 2 ^ 32 * (ofWords ds + 1) := by omega
      _ ≤ 2 ^ 32 * 2 ^ (32 * ds.length) := by gcongr; omega
      _ = 2 ^ (32 * (ds.length + 1)) := by rw [← pow_add]; congr 1; omega

/-! ## Bit scan -/

/-- `highestBelow` finds the largest set bit below its bound, or there is none. -/
theorem highestBelow_spec (v : BitVec n) (k : Nat) :
    match highestBelow v k with
    | some i => i < k ∧ v.getLsbD i = true ∧ ∀ j, i < j → j < k → v.getLsbD j = false
    | none => ∀ j < k, v.getLsbD j = false := by
  induction k with
  | zero => simp [highestBelow]
  | succ k ih =>
    by_cases hk : v.getLsbD k = true
    · simp only [highestBelow, hk, if_true]
      exact ⟨by omega, trivial, fun j h1 h2 => by omega⟩
    · simp only [highestBelow, hk]
      have hk' : v.getLsbD k = false := by simpa using hk
      revert ih
      cases highestBelow v k with
      | none =>
        intro ih j hj
        rcases Nat.lt_succ_iff_lt_or_eq.mp hj with h | h
        · exact ih j h
        · exact h ▸ hk'
      | some i =>
        rintro ⟨h1, h2, h3⟩
        refine ⟨by omega, h2, fun j hj hj' => ?_⟩
        rcases Nat.lt_succ_iff_lt_or_eq.mp hj' with h | h
        · exact h3 j hj h
        · exact h ▸ hk'

/-- `lowestBelow` finds the smallest set bit below its bound, or there is none. -/
theorem lowestBelow_spec (v : BitVec n) (k : Nat) :
    match lowestBelow v k with
    | some i => i < k ∧ v.getLsbD i = true ∧ ∀ j < i, v.getLsbD j = false
    | none => ∀ j < k, v.getLsbD j = false := by
  induction k with
  | zero => simp [lowestBelow]
  | succ k ih =>
    revert ih
    simp only [lowestBelow]
    cases lowestBelow v k with
    | some i => rintro ⟨h1, h2, h3⟩; exact ⟨by omega, h2, h3⟩
    | none =>
      intro ih
      by_cases hk : v.getLsbD k = true
      · simp only [hk, if_true]
        exact ⟨by omega, trivial, fun j hj => ih j (by omega)⟩
      · simp only [hk]
        intro j hj
        rcases Nat.lt_succ_iff_lt_or_eq.mp hj with h | h
        · exact ih j h
        · exact h ▸ (by simpa using hk)

end Sys2Proof.Machine
end

