-- ==== Sys2Proof/Laws/Exec.lean ====
section
/-! SUPPORT. What the shared operations of the meanings, a transaction and a step can do. -/

namespace Sys2Proof.Machine

@[simp] theorem done_eq_next (s : State) (b : Block s.width.bits) : done s b = .next (s.withBlock b) := rfl

@[simp] theorem illegal_eq_next (s : State) (w : Word) :
    illegal s w = .next (s.withBlock (s.block.raise .illegalCommand w)) := rfl

/-- A division command with a nonzero divisor leaves the block its meaning names (spec/44_divide.md R122). -/
theorem unlessZero_of_ne {s : State} {rb : Reg} (w : Word) (b : Block s.width.bits) (h : s.uReg rb ≠ 0) :
    unlessZero s w rb b = .next (s.withBlock b) := if_neg h

/-- A division command with a zero divisor raises DivisionByZero (R122). -/
theorem unlessZero_of_eq {s : State} {rb : Reg} (w : Word) (b : Block s.width.bits) (h : s.uReg rb = 0) :
    unlessZero s w rb b = .next (s.withBlock (s.block.raise .divisionByZero w)) := if_pos h

/-- A command always answers a next state that keeps the width and the host's side. -/
theorem exec_eq_withBlock (i : Instr) (s : State) : ∃ b, exec i s = .next (s.withBlock b) := by
  have hz : ∀ w rb b, ∃ b', unlessZero s w rb b = .next (s.withBlock b') := fun w rb b => by
    unfold unlessZero; split <;> exact ⟨_, rfl⟩
  cases i with
  | divu | remu | divs | rems => exact hz ..
  | divremu | divrems =>
    simp only [exec, execDivremu, execDivrems]
    split
    · exact ⟨_, rfl⟩
    · exact hz ..
  | extz | exts => simp only [exec, execExtz, execExts]; split <;> exact ⟨_, rfl⟩
  | _ => exact ⟨_, rfl⟩

/-- What `Issue(w)` can do: be dropped, run the command, or raise IllegalCommand (spec/20_memory.md R34). -/
theorem issue_cases (w : Word) (s : State) :
    (s.block.fcode ≠ .none ∧ issue w s = .next s) ∨
    (s.block.fcode = .none ∧ ∃ i, decode w = .ok i ∧ issue w s = exec i s) ∨
    (s.block.fcode = .none ∧ ∃ c, decode w = .error c ∧
      issue w s = .next (s.withBlock (s.block.raise .illegalCommand w))) := by
  unfold issue
  by_cases h : s.block.fcode = .none
  · have hf : s.faulted = false := by simp [State.faulted, Block.faulted, h]
    rw [hf]
    cases hd : decode w with
    | ok i => exact .inr (.inl ⟨h, i, rfl, by simp⟩)
    | error c => exact .inr (.inr ⟨h, c, rfl, by simp⟩)
  · have hf : s.faulted = true := by simpa [State.faulted, Block.faulted] using h
    exact .inl ⟨h, by simp [hf]⟩

/-- A step performs the first transaction of the host's stream on the state without it. -/
theorem step_cons {s : State} {t : Transaction} {rest : List Transaction} (h : s.pending = t :: rest) :
    step s = transact t { s with pending := rest } := by
  simp [step, nextTransaction, h]

/-- A step without a transaction changes nothing. -/
theorem step_nil {s : State} (h : s.pending = []) : step s = .next s := by
  simp [step, nextTransaction, h]

/-- What one step can do (spec/20_memory.md R31). -/
theorem step_cases {s t : State} (h : step s = .next t) :
    (s.pending = [] ∧ t = s) ∨
    ∃ tr rest, s.pending = tr :: rest ∧ transact tr { s with pending := rest } = .next t := by
  cases hp : s.pending with
  | nil => rw [step_nil hp] at h; exact .inl ⟨rfl, by injection h with h; exact h.symm⟩
  | cons tr rest => rw [step_cons hp] at h; exact .inr ⟨tr, rest, rfl, h⟩

/-- A transaction always answers a next state. -/
theorem transact_completes (tr : Transaction) (s : State) : ∃ t, transact tr s = .next t := by
  cases tr with
  | issue w =>
    show ∃ t, issue w s = .next t
    rcases issue_cases w s with ⟨-, h⟩ | ⟨-, i, -, h⟩ | ⟨-, c, -, h⟩
    · exact ⟨_, h⟩
    · obtain ⟨b, hb⟩ := exec_eq_withBlock i s
      exact ⟨_, h.trans hb⟩
    · exact ⟨_, h⟩
  | _ => exact ⟨_, rfl⟩

/-- `putBytes` replaces the addressed bytes inside storage and keeps every other bit
(spec/20_memory.md R35). -/
theorem getLsbD_putBytes {n : Nat} (x : BitVec n) (p : Nat) {m : Nat} (v : BitVec m) (count i : Nat)
    (hi : i < n / 8 * 8) :
    (putBytes x p v count).getLsbD i =
      if p ≤ i / 8 ∧ i / 8 < p + count then v.getLsbD (i - 8 * p) else x.getLsbD i := by
  have hin : i < n := by omega
  induction count with
  | zero =>
    have : ¬(p ≤ i / 8 ∧ i / 8 < p + 0) := by omega
    simp only [putBytes, if_neg this]
  | succ c ih =>
    simp only [putBytes]
    split
    case isTrue hc =>
      rw [getLsbD_setByte _ _ _ _ hin, ih]
      by_cases hb : 8 * (p + c) ≤ i ∧ i < 8 * (p + c) + 8
      · have h1 : p ≤ i / 8 ∧ i / 8 < p + (c + 1) := by omega
        have h2 : i - 8 * (p + c) < 8 := by omega
        rw [if_pos hb, if_pos h1, getLsbD_byteOf]
        simp only [h2, decide_true, Bool.true_and]
        congr 1
        omega
      · rw [if_neg hb]
        by_cases h1 : p ≤ i / 8 ∧ i / 8 < p + c
        · rw [if_pos h1, if_pos (by omega)]
        · rw [if_neg h1, if_neg (by omega)]
    case isFalse hc =>
      rw [ih]
      by_cases h1 : p ≤ i / 8 ∧ i / 8 < p + c
      · rw [if_pos h1, if_pos (by omega)]
      · rw [if_neg h1, if_neg (by omega)]

end Sys2Proof.Machine
end

