-- ==== Sys2Proof/Laws/PerInstr.lean ====
section
/-! SUPPORT. The family FixedBits: the encoding of every command has the bits its row of spec/opcode_table.json
fixes (the columns "mask" and "match"). -/

namespace Sys2Proof.Laws.FixedBits

/-- The mask and the match of a command's row in spec/opcode_table.json. -/
def row : Instr → Word × Word
  | .and .. => (0xFF000FFF, 0x10000000)
  | .or .. => (0xFF000FFF, 0x11000000)
  | .xor .. => (0xFF000FFF, 0x12000000)
  | .not .. => (0xFF00FFFF, 0x13000000)
  | .shl .. => (0xFF000FFF, 0x20000000)
  | .shr .. => (0xFF000FFF, 0x21000000)
  | .sar .. => (0xFF000FFF, 0x22000000)
  | .shli .. => (0xFF000000, 0x28000000)
  | .shri .. => (0xFF000000, 0x29000000)
  | .sari .. => (0xFF000000, 0x2A000000)
  | .add .. => (0xFF000FFF, 0x30000000)
  | .sub .. => (0xFF000FFF, 0x31000000)
  | .inc .. => (0xFF00FFFF, 0x32000000)
  | .dec .. => (0xFF00FFFF, 0x33000000)
  | .neg .. => (0xFF00FFFF, 0x34000000)
  | .mulu .. => (0xFF000FFF, 0x40000000)
  | .muls .. => (0xFF000FFF, 0x41000000)
  | .divu .. => (0xFF000FFF, 0x50000000)
  | .remu .. => (0xFF000FFF, 0x51000000)
  | .divremu .. => (0xFF0000FF, 0x52000000)
  | .divs .. => (0xFF000FFF, 0x54000000)
  | .rems .. => (0xFF000FFF, 0x55000000)
  | .divrems .. => (0xFF0000FF, 0x56000000)
  | .cmpu .. => (0xFFF00FFF, 0x60000000)
  | .cmps .. => (0xFFF00FFF, 0x61000000)
  | .clr .. => (0xFF0FFFFF, 0x70000000)
  | .mov .. => (0xFF00FFFF, 0x71000000)
  | .liu .. => (0xFF0F0000, 0x72000000)
  | .lis .. => (0xFF0F0000, 0x73000000)
  | .extz .. => (0xFF000000, 0x74000000)
  | .exts .. => (0xFF000000, 0x75000000)
  | .mkmin .. => (0xFF0FFFFF, 0x76000000)
  | .mkmax .. => (0xFF0FFFFF, 0x77000000)
  | .ror .. => (0xFF000FFF, 0x80000000)
  | .fhb .. => (0xFF00FFFF, 0x81000000)
  | .flb .. => (0xFF00FFFF, 0x82000000)
  | .rori .. => (0xFF000000, 0x88000000)

/-- A command's encoding has the fixed bits of its row. -/
def Statement (i : Instr) : Prop := encode i &&& (row i).1 = (row i).2

section
variable (op : Nat) (hop : op < 256) (rd ra rb re : Reg) (imm : Imm16)
include hop

theorem fixed_reg3 : reg3 op rd ra rb &&& Format.mask .reg3 = BitVec.ofNat 32 (op * 2 ^ 24) := by
  have h := toNat_reg3 op hop rd ra rb
  have ho : opcodeOf (reg3 op rd ra rb) = op := by rw [opcodeOf_eq]; omega
  rw [(mask_reg3_iff _).mpr (by simp only [bits]; omega), ho]
theorem fixed_reg4 : reg4 op rd ra rb re &&& Format.mask .reg4 = BitVec.ofNat 32 (op * 2 ^ 24) := by
  have h := toNat_reg4 op hop rd ra rb re
  have ho : opcodeOf (reg4 op rd ra rb re) = op := by rw [opcodeOf_eq]; omega
  rw [(mask_reg4_iff _).mpr (by simp only [bits]; omega), ho]
theorem fixed_reg2 : reg2 op rd ra &&& Format.mask .reg2 = BitVec.ofNat 32 (op * 2 ^ 24) := by
  have h := toNat_reg2 op hop rd ra
  have ho : opcodeOf (reg2 op rd ra) = op := by rw [opcodeOf_eq]; omega
  rw [(mask_reg2_iff _).mpr (by simp only [bits]; omega), ho]
theorem fixed_reg1 : reg1 op rd &&& Format.mask .reg1 = BitVec.ofNat 32 (op * 2 ^ 24) := by
  have h := toNat_reg1 op hop rd
  have ho : opcodeOf (reg1 op rd) = op := by rw [opcodeOf_eq]; omega
  rw [(mask_reg1_iff _).mpr (by simp only [bits]; omega), ho]
theorem fixed_cmp2 : cmp2 op ra rb &&& Format.mask .cmp2 = BitVec.ofNat 32 (op * 2 ^ 24) := by
  have h := toNat_cmp2 op hop ra rb
  have ho : opcodeOf (cmp2 op ra rb) = op := by rw [opcodeOf_eq]; omega
  rw [(mask_cmp2_iff _).mpr (by simp only [bits]; omega), ho]
theorem fixed_imm2 : imm2 op rd ra imm &&& Format.mask .imm2 = BitVec.ofNat 32 (op * 2 ^ 24) := by
  have h := toNat_imm2 op hop rd ra imm
  have hi := imm.isLt
  have ho : opcodeOf (imm2 op rd ra imm) = op := by rw [opcodeOf_eq]; omega
  rw [(mask_imm2_iff _).mpr trivial, ho]
theorem fixed_imm1 : imm1 op rd imm &&& Format.mask .imm1 = BitVec.ofNat 32 (op * 2 ^ 24) := by
  have h := toNat_imm1 op hop rd imm
  have hi := imm.isLt
  have ho : opcodeOf (imm1 op rd imm) = op := by rw [opcodeOf_eq]; omega
  rw [(mask_imm1_iff _).mpr (by simp only [bits]; omega), ho]
end

theorem and (rd ra rb : Reg) : Statement (.and rd ra rb) := fixed_reg3 0x10 (by decide) rd ra rb
theorem or (rd ra rb : Reg) : Statement (.or rd ra rb) := fixed_reg3 0x11 (by decide) rd ra rb
theorem xor (rd ra rb : Reg) : Statement (.xor rd ra rb) := fixed_reg3 0x12 (by decide) rd ra rb
theorem not (rd ra : Reg) : Statement (.not rd ra) := fixed_reg2 0x13 (by decide) rd ra
theorem shl (rd ra rb : Reg) : Statement (.shl rd ra rb) := fixed_reg3 0x20 (by decide) rd ra rb
theorem shr (rd ra rb : Reg) : Statement (.shr rd ra rb) := fixed_reg3 0x21 (by decide) rd ra rb
theorem sar (rd ra rb : Reg) : Statement (.sar rd ra rb) := fixed_reg3 0x22 (by decide) rd ra rb
theorem shli (rd ra : Reg) (imm : Imm16) : Statement (.shli rd ra imm) := fixed_imm2 0x28 (by decide) rd ra imm
theorem shri (rd ra : Reg) (imm : Imm16) : Statement (.shri rd ra imm) := fixed_imm2 0x29 (by decide) rd ra imm
theorem sari (rd ra : Reg) (imm : Imm16) : Statement (.sari rd ra imm) := fixed_imm2 0x2A (by decide) rd ra imm
theorem add (rd ra rb : Reg) : Statement (.add rd ra rb) := fixed_reg3 0x30 (by decide) rd ra rb
theorem sub (rd ra rb : Reg) : Statement (.sub rd ra rb) := fixed_reg3 0x31 (by decide) rd ra rb
theorem inc (rd ra : Reg) : Statement (.inc rd ra) := fixed_reg2 0x32 (by decide) rd ra
theorem dec (rd ra : Reg) : Statement (.dec rd ra) := fixed_reg2 0x33 (by decide) rd ra
theorem neg (rd ra : Reg) : Statement (.neg rd ra) := fixed_reg2 0x34 (by decide) rd ra
theorem mulu (rd ra rb : Reg) : Statement (.mulu rd ra rb) := fixed_reg3 0x40 (by decide) rd ra rb
theorem muls (rd ra rb : Reg) : Statement (.muls rd ra rb) := fixed_reg3 0x41 (by decide) rd ra rb
theorem divu (rd ra rb : Reg) : Statement (.divu rd ra rb) := fixed_reg3 0x50 (by decide) rd ra rb
theorem remu (rd ra rb : Reg) : Statement (.remu rd ra rb) := fixed_reg3 0x51 (by decide) rd ra rb
theorem divremu (rd re ra rb : Reg) : Statement (.divremu rd re ra rb) := fixed_reg4 0x52 (by decide) rd ra rb re
theorem divs (rd ra rb : Reg) : Statement (.divs rd ra rb) := fixed_reg3 0x54 (by decide) rd ra rb
theorem rems (rd ra rb : Reg) : Statement (.rems rd ra rb) := fixed_reg3 0x55 (by decide) rd ra rb
theorem divrems (rd re ra rb : Reg) : Statement (.divrems rd re ra rb) := fixed_reg4 0x56 (by decide) rd ra rb re
theorem cmpu (ra rb : Reg) : Statement (.cmpu ra rb) := fixed_cmp2 0x60 (by decide) ra rb
theorem cmps (ra rb : Reg) : Statement (.cmps ra rb) := fixed_cmp2 0x61 (by decide) ra rb
theorem clr (rd : Reg) : Statement (.clr rd) := fixed_reg1 0x70 (by decide) rd
theorem mov (rd ra : Reg) : Statement (.mov rd ra) := fixed_reg2 0x71 (by decide) rd ra
theorem liu (rd : Reg) (imm : Imm16) : Statement (.liu rd imm) := fixed_imm1 0x72 (by decide) rd imm
theorem lis (rd : Reg) (imm : Imm16) : Statement (.lis rd imm) := fixed_imm1 0x73 (by decide) rd imm
theorem extz (rd ra : Reg) (imm : Imm16) : Statement (.extz rd ra imm) := fixed_imm2 0x74 (by decide) rd ra imm
theorem exts (rd ra : Reg) (imm : Imm16) : Statement (.exts rd ra imm) := fixed_imm2 0x75 (by decide) rd ra imm
theorem mkmin (rd : Reg) : Statement (.mkmin rd) := fixed_reg1 0x76 (by decide) rd
theorem mkmax (rd : Reg) : Statement (.mkmax rd) := fixed_reg1 0x77 (by decide) rd
theorem ror (rd ra rb : Reg) : Statement (.ror rd ra rb) := fixed_reg3 0x80 (by decide) rd ra rb
theorem fhb (rd ra : Reg) : Statement (.fhb rd ra) := fixed_reg2 0x81 (by decide) rd ra
theorem flb (rd ra : Reg) : Statement (.flb rd ra) := fixed_reg2 0x82 (by decide) rd ra
theorem rori (rd ra : Reg) (imm : Imm16) : Statement (.rori rd ra imm) := fixed_imm2 0x88 (by decide) rd ra imm

end Sys2Proof.Laws.FixedBits
end

