-- ==== Sys2Proof/Tests/Slice0.lean ====
section
/-! SUPPORT. The model's own tests: the checks of WellFormed, one word written out from spec/30_encoding.md for
each command, one or two worked examples of the spec for each command (the numbers are those of the rules and
of spec/95_test_vectors.md), and for each statement that has hypotheses a state that meets them. -/

namespace Sys2Proof.Tests

open Sys2Proof Sys2Proof.Machine

/-! ## The checks of WellFormed refuse -/

theorem test_equal_destinations_refused :
    (Instr.divremu 4 4 6 7).wellFormed = false ∧ (Instr.divrems 0 0 1 1).wellFormed = false ∧
    (Instr.divremu 4 5 6 7).wellFormed = true := by decide

theorem test_zero_byte_count_refused :
    (Instr.extz 1 1 0).wellFormed = false ∧ (Instr.exts 1 2 0).wellFormed = false ∧
    (Instr.extz 1 1 1).wellFormed = true := by decide

theorem test_illegal_width_refused :
    Width.ofBits? 0 = none ∧ Width.ofBits? 33 = none ∧ Width.ofBits? 16 = none ∧
    Width.ofBits? 32800 = none ∧ (Width.ofBits? 32).isSome = true ∧ (Width.ofBits? 96).isSome = true ∧
    (Width.ofBits? 32768).isSome = true := by decide

/-! ## Decoding: one word for each command, the fields of R51 apart -/

theorem test_decode_bitwise :
    decode 0b00010000_0011_0001_0010_000000000000 = .ok (.and 3 1 2) ∧
    decode 0b00010001_1111_0000_1000_000000000000 = .ok (.or 15 0 8) ∧
    decode 0b00010010_0001_0100_0111_000000000000 = .ok (.xor 1 4 7) ∧
    decode 0b00010011_0000_1111_0000000000000000 = .ok (.not 0 15) := by decide

theorem test_decode_shift :
    decode 0b00100000_0011_0001_0010_000000000000 = .ok (.shl 3 1 2) ∧
    decode 0b00100001_0011_0001_0010_000000000000 = .ok (.shr 3 1 2) ∧
    decode 0b00100010_0110_1001_1100_000000000000 = .ok (.sar 6 9 12) ∧
    decode 0b00101000_0010_0010_0000000000100001 = .ok (.shli 2 2 33) ∧
    decode 0b00101001_0011_0001_1000000000000001 = .ok (.shri 3 1 0x8001) ∧
    decode 0b00101010_0011_0001_0000000010000000 = .ok (.sari 3 1 128) := by decide

theorem test_decode_addsub :
    decode 0b00110000_0011_0001_0010_000000000000 = .ok (.add 3 1 2) ∧
    decode 0b00110001_0011_0001_0010_000000000000 = .ok (.sub 3 1 2) ∧
    decode 0b00110010_1010_0101_0000000000000000 = .ok (.inc 10 5) ∧
    decode 0b00110011_0011_0001_0000000000000000 = .ok (.dec 3 1) ∧
    decode 0b00110100_0010_0010_0000000000000000 = .ok (.neg 2 2) := by decide

theorem test_decode_multiply :
    decode 0b01000000_0011_0001_0010_000000000000 = .ok (.mulu 3 1 2) ∧
    decode 0b01000001_1000_0100_0010_000000000000 = .ok (.muls 8 4 2) := by decide

theorem test_decode_divide :
    decode 0b01010000_0011_0001_0010_000000000000 = .ok (.divu 3 1 2) ∧
    decode 0b01010001_0011_0001_0010_000000000000 = .ok (.remu 3 1 2) ∧
    decode 0b01010010_0011_0001_0010_0100_00000000 = .ok (.divremu 3 4 1 2) ∧
    decode 0b01010100_0011_0001_0010_000000000000 = .ok (.divs 3 1 2) ∧
    decode 0b01010101_0011_0001_0010_000000000000 = .ok (.rems 3 1 2) ∧
    decode 0b01010110_0100_0110_0111_0101_00000000 = .ok (.divrems 4 5 6 7) := by decide

theorem test_decode_compare :
    decode 0b01100000_0000_0001_0010_000000000000 = .ok (.cmpu 1 2) ∧
    decode 0b01100001_0000_1110_0101_000000000000 = .ok (.cmps 14 5) := by decide

theorem test_decode_construct :
    decode 0b01110000_0011_00000000000000000000 = .ok (.clr 3) ∧
    decode 0b01110001_0011_0001_0000000000000000 = .ok (.mov 3 1) ∧
    decode 0b01110010_0011_0000_1111111111111001 = .ok (.liu 3 0xFFF9) ∧
    decode 0b01110011_1001_0000_1111111111111001 = .ok (.lis 9 0xFFF9) ∧
    decode 0b01110100_0011_0001_0000000000000001 = .ok (.extz 3 1 1) ∧
    decode 0b01110101_0001_0001_0000000000000100 = .ok (.exts 1 1 4) ∧
    decode 0b01110110_0001_00000000000000000000 = .ok (.mkmin 1) ∧
    decode 0b01110111_1111_00000000000000000000 = .ok (.mkmax 15) := by decide

theorem test_decode_rotate_scan :
    decode 0b10000000_0011_0001_0010_000000000000 = .ok (.ror 3 1 2) ∧
    decode 0b10000001_0011_0001_0000000000000000 = .ok (.fhb 3 1) ∧
    decode 0b10000010_0011_0001_0000000000000000 = .ok (.flb 3 1) ∧
    decode 0b10001000_0011_0001_0000000000100100 = .ok (.rori 3 1 36) := by decide

/-- The illegal words of spec/95_test_vectors.md section 2.15, one must-be-zero field of each format. -/
theorem test_decode_illegal :
    decode 0x00000000 = .error .unassignedOpcode ∧ decode 0xFFFFFFFF = .error .unassignedOpcode ∧
    decode 0x14312000 = .error .unassignedOpcode ∧ decode 0x53312400 = .error .unassignedOpcode ∧
    decode 0x30312100 = .error .mustBeZero ∧ decode 0x52312401 = .error .mustBeZero ∧
    decode 0x13311000 = .error .mustBeZero ∧ decode 0x70310000 = .error .mustBeZero ∧
    decode 0x60312000 = .error .mustBeZero ∧ decode 0x72310005 = .error .mustBeZero ∧
    decode 0x52312300 = .error .equalDestinations ∧ decode 0x75310000 = .error .zeroByteCount := by decide

/-- What the host's word function reads. -/
theorem test_decode_table_word :
    decodeTableWord 32 0x30312000 = some (.add 3 1 2) ∧ decodeTableWord 32 0x30312001 = none := by decide

/-! ## One step on a small state -/

def w32 : Width := ⟨1, by decide, by decide⟩
def w64 : Width := ⟨2, by decide, by decide⟩
def w96 : Width := ⟨3, by decide, by decide⟩
def w128 : Width := ⟨4, by decide, by decide⟩

/-- A block with the given x1 and x2, both flags set, so that a frame that clears a flag shows, and
0x33…, 0x44… in x3, x4. -/
def small (w : Width) (x1 x2 : Nat) : State where
  width := w
  block := {
    regs := #v[0, BitVec.ofNat _ x1, BitVec.ofNat _ x2, BitVec.ofNat _ (0x33333333 * (2 ^ w.bits - 1) / 0xFFFFFFFF),
      BitVec.ofNat _ (0x44444444 * (2 ^ w.bits - 1) / 0xFFFFFFFF), 0, 0, 0, 0, 0, 0, 0, 0, 0, 0, 0]
    eqFlag := true
    ltFlag := false
    fcode := .none
    fcmd := 0 }
  pending := []
  replies := []

/-- The same block, faulted by the division 0x50312000. -/
def faulty (w : Width) (x1 x2 : Nat) : State :=
  (small w x1 x2).withBlock ((small w x1 x2).block.raise .divisionByZero 0x50312000)

/-- The state after one transaction. -/
def after (s : State) (t : Transaction) : Option State :=
  match step (s.present t) with
  | .next u => some u
  | .fault _ => none
  | .refused _ => none

/-- x3 after one command word, from the given x1 and x2; `none` if FCODE, FCMD or a flag changed. -/
def x3 (w : Width) (word : Word) (x1 x2 : Nat) : Option Nat :=
  (after (small w x1 x2) (.issue word)).bind fun u =>
    if u.status = 1 ∧ u.fcmd = 0 then some (u.uReg 3) else none

/-- x3, x4, STATUS and FCMD after one command word. -/
def x3x4 (w : Width) (word : Word) (x1 x2 : Nat) : Option (Nat × Nat × Word × Word) :=
  (after (small w x1 x2) (.issue word)).map fun u => (u.uReg 3, u.uReg 4, u.status, u.fcmd)

/-- STATUS after one command word. -/
def status (w : Width) (word : Word) (x1 x2 : Nat) : Option Word :=
  (after (small w x1 x2) (.issue word)).map (·.status)

/-- The results given to the host by one transaction. -/
def answers (s : State) (t : Transaction) : Option (List Reply) := (after s t).map (·.replies)

/-! R70 to R73. -/
theorem test_and : x3 w64 0x10312000 0x00FF00FF0F0F0F0F 0xFFFF0000F0F0FFFF = some 0x00FF000000000F0F := by decide
theorem test_or : x3 w64 0x11312000 0x00FF00FF0F0F0F0F 0xFFFF0000F0F0FFFF = some 0xFFFF00FFFFFFFFFF := by decide
theorem test_xor : x3 w64 0x12312000 0x00FF00FF0F0F0F0F 0xFFFF0000F0F0FFFF = some 0xFF0000FFFFFFF0F0 := by decide
theorem test_not : x3 w64 0x13310000 0x00FF00FF0F0F0F0F 0 = some 0xFF00FF00F0F0F0F0 := by decide

/-! R81 to R86. -/
theorem test_shl : x3 w128 0x20312000 0x0123456789ABCDEFFEDCBA9876543210 36 =
    some 0x9ABCDEFFEDCBA9876543210000000000 := by decide
theorem test_shl_high_amount : x3 w128 0x20312000 0x0123456789ABCDEFFEDCBA9876543210 (2 ^ 100) = some 0 := by
  decide
theorem test_shr : x3 w128 0x21312000 0x0123456789ABCDEFFEDCBA9876543210 128 = some 0 := by decide
theorem test_sar : x3 w128 0x22312000 0x8123456789ABCDEFFEDCBA9876543210 36 =
    some 0xFFFFFFFFF8123456789ABCDEFFEDCBA9 := by decide
theorem test_sar_all_bits : x3 w128 0x22312000 0x8123456789ABCDEFFEDCBA9876543210 (2 ^ 128 - 1) =
    some 0xFFFFFFFFFFFFFFFFFFFFFFFFFFFFFFFF := by decide
theorem test_shli : x3 w128 0x2831001F 0x0123456789ABCDEFFEDCBA9876543210 0 =
    some 0xC4D5E6F7FF6E5D4C3B2A190800000000 := by decide
theorem test_shri : x3 w128 0x29310024 0x0123456789ABCDEFFEDCBA9876543210 0 =
    some 0x0000000000123456789ABCDEFFEDCBA9 := by decide
theorem test_sari : x3 w128 0x2A310001 0x8123456789ABCDEFFEDCBA9876543210 0 =
    some 0xC091A2B3C4D5E6F7FF6E5D4C3B2A1908 := by decide
theorem test_sari_width : x3 w32 0x2A310020 0x80000001 0 = some 0xFFFFFFFF := by decide

/-! R90 to R94. -/
theorem test_add : x3 w128 0x30312000 0x00000000FFFFFFFFFFFFFFFFFFFFFFFF 1 =
    some 0x00000001000000000000000000000000 := by decide
theorem test_add_wraps : x3 w128 0x30312000 (2 ^ 128 - 1) 1 = some 0 := by decide
theorem test_sub : x3 w128 0x31312000 0 1 = some (2 ^ 128 - 1) := by decide
theorem test_inc : x3 w128 0x32310000 0x0000000000000000FFFFFFFFFFFFFFFF 0 =
    some 0x00000000000000010000000000000000 := by decide
theorem test_dec : x3 w128 0x33310000 0x00000001000000000000000000000000 0 =
    some 0x00000000FFFFFFFFFFFFFFFFFFFFFFFF := by decide
theorem test_neg : x3 w128 0x34310000 0x7FFFFFFFFFFFFFFFFFFFFFFFFFFFFFFF 0 =
    some 0x80000000000000000000000000000001 := by decide
theorem test_neg_min : x3 w128 0x34310000 (2 ^ 127) 0 = some (2 ^ 127) := by decide

/-! R100, R101. -/
theorem test_mulu : x3 w64 0x40312000 0x00000000FFFFFFFF 0x00000000FFFFFFFF = some 0xFFFFFFFE00000001 := by decide
theorem test_muls : x3 w64 0x41312000 0xFFFFFFFFFFFFFFF9 0xFFFFFFFFFFFFFFFD = some 0x15 := by decide
theorem test_muls_min : x3 w64 0x41312000 (2 ^ 63) (2 ^ 64 - 1) = some (2 ^ 63) := by decide

/-! R111 to R117, R121, R122. -/
theorem test_divu : x3 w64 0x50312000 0xFFFFFFFFFFFFFFF9 2 = some 0x7FFFFFFFFFFFFFFC := by decide
theorem test_divu_zero : x3x4 w64 0x50312000 5 0 =
    some (0x3333333333333333, 0x4444444444444444, 0x00000101, 0x50312000) := by decide
theorem test_remu : x3 w64 0x51312000 (2 ^ 64 - 1) 0x10000 = some 0xFFFF := by decide
theorem test_divremu : x3x4 w64 0x52312400 0x123456789ABCDEF0 0x0000000100000001 =
    some (0x0000000012345678, 0x0000000088888878, 1, 0) := by decide
theorem test_divremu_zero : x3x4 w64 0x52312400 0 0 =
    some (0x3333333333333333, 0x4444444444444444, 0x00000101, 0x52312400) := by decide
theorem test_divs : x3 w64 0x54312000 0xFFFFFFFFFFFFFFF9 2 = some 0xFFFFFFFFFFFFFFFD := by decide
theorem test_divs_min : x3 w64 0x54312000 (2 ^ 63) (2 ^ 64 - 1) = some (2 ^ 63) := by decide
theorem test_rems : x3 w64 0x55312000 7 0xFFFFFFFFFFFFFFFE = some 1 := by decide
theorem test_divrems : x3x4 w64 0x56312400 0xFFFFFFFFFFFFFFF9 0xFFFFFFFFFFFFFFFE =
    some (3, 0xFFFFFFFFFFFFFFFF, 1, 0) := by decide
theorem test_divrems_min_divisor : x3x4 w64 0x56312400 (2 ^ 64 - 1) (2 ^ 63) =
    some (0, 0xFFFFFFFFFFFFFFFF, 1, 0) := by decide

/-! R125, R126. -/
theorem test_cmpu : status w64 0x60012000 0 0xFFFFFFFFFFFFFFFF = some 2 ∧
    status w64 0x60012000 0x0000000100000000 0x00000000FFFFFFFF = some 0 ∧
    status w64 0x60012000 7 7 = some 1 := by decide
theorem test_cmps : status w64 0x61012000 0 0xFFFFFFFFFFFFFFFF = some 0 ∧
    status w64 0x61012000 (2 ^ 63) (2 ^ 63 - 1) = some 2 ∧ status w64 0x61012000 5 5 = some 1 := by decide

/-! R130 to R137. -/
theorem test_clr : x3 w64 0x70300000 0 0 = some 0 := by decide
theorem test_mov : x3 w64 0x71310000 0x1122334455667788 0 = some 0x1122334455667788 := by decide
theorem test_liu : x3 w64 0x7230FFF9 0 0 = some 0xFFF9 := by decide
theorem test_lis : x3 w64 0x7330FFF9 0 0 = some 0xFFFFFFFFFFFFFFF9 ∧ x3 w32 0x73308000 0 0 = some 0xFFFF8000 := by
  decide
theorem test_extz : x3 w64 0x74310007 0x1234567890ABCDEF 0 = some 0x0034567890ABCDEF := by decide
theorem test_extz_wide : x3 w64 0x7431FFFF 0x8122334455667788 0 = some 0x8122334455667788 := by decide
theorem test_exts : x3 w64 0x75310007 0x0080334455667788 0 = some 0xFF80334455667788 := by decide
theorem test_exts_wide : x3 w64 0x75310009 0x8122334455667788 0 = some 0x8122334455667788 := by decide
theorem test_mkmin : x3 w64 0x76300000 0 0 = some (2 ^ 63) := by decide
theorem test_mkmax : x3 w64 0x77300000 0 0 = some (2 ^ 63 - 1) := by decide

/-! R145 to R148. -/
theorem test_ror : x3 w64 0x80312000 0x0123456789ABCDEF (2 ^ 64 - 1) = some 0x02468ACF13579BDE := by decide
theorem test_rori : x3 w96 0x8831FFFF 0x0123456789ABCDEF01234567 0 = some 0x13579BDE02468ACE02468ACF := by decide
theorem test_rori_width : x3 w96 0x88310060 0x0123456789ABCDEF01234567 0 = some 0x0123456789ABCDEF01234567 := by
  decide
theorem test_fhb : x3 w64 0x81310000 0x00000000FFFF0000 0 = some 0x1F := by decide
theorem test_fhb_zero : x3 w64 0x81310000 0 0 = some (2 ^ 64 - 1) := by decide
theorem test_flb : x3 w64 0x82310000 0x00000000FFFF0000 0 = some 0x10 := by decide
theorem test_flb_zero : x3 w64 0x82310000 0 0 = some (2 ^ 64 - 1) := by decide

/-- R185: sources are read before any destination is written. -/
theorem test_sources_before_destinations :
    (after (small w64 17 5) (.issue 0x52112200)).map (fun u => (u.uReg 1, u.uReg 2)) = some (3, 2) ∧
    (after (small w64 17 5) (.issue 0x52212100)).map (fun u => (u.uReg 2, u.uReg 1)) = some (3, 2) := by decide

/-! ## The other transactions: spec/95_test_vectors.md section 2.13 and R164, R167 -/

theorem test_wrElem :
    (after (small w64 0x1122334455667788 0) (.wrElem 1 .w8 7 0xAA)).map (·.uReg 1) = some 0xAA22334455667788 ∧
    (after (small w64 0x1122334455667788 0) (.wrElem 1 .w64 1 0xFFFFFFFFFFFFFFFF)).map (·.uReg 1) =
      some 0x1122334455667788 ∧
    (after (small w32 0x80000001 0) (.wrElem 1 .w64 0 0x1122334455667788)).map (·.uReg 1) = some 0x55667788 := by
  decide

theorem test_rdElem :
    answers (small w32 0x80000001 0) (.rdElem 1 .w64 0 .sign) = some [.elem .w64 0xFFFFFFFF80000001] ∧
    answers (small w64 0x8122334455667788 0) (.rdElem 1 .w8 8 .sign) = some [.elem .w8 0xFF] ∧
    answers (small w64 0x8122334455667788 0) (.rdElem 1 .w8 8 .zero) = some [.elem .w8 0] ∧
    answers (small w64 0x1122334455667788 0) (.rdElem 1 .w16 3 .zero) = some [.elem .w16 0x1122] := by decide

theorem test_status_reads :
    answers (faulty w64 5 0) .rdStatus = some [.status 0x00000101] ∧
    answers (faulty w64 5 0) .rdFcmd = some [.fcmd 0x50312000] := by decide

theorem test_illegal_command :
    x3x4 w64 0x52312300 5 0 = some (0x3333333333333333, 0x4444444444444444, 0x00000201, 0x52312300) := by decide

theorem test_faulted_drops : after (faulty w64 5 0) (.issue 0x72400009) = some (faulty w64 5 0) := by decide

theorem test_clrFault : after (faulty w64 5 0) .clrFault = some (small w64 5 0) := by decide

theorem test_reset :
    (after (faulty w64 5 0) (.reset (Vector.replicate 16 (2 ^ 64 + 9)))).map
      (fun u => (u.status, u.fcmd, u.uReg 0, u.uReg 15)) = some (0, 0, 9, 9) := by decide

/-- The host's question: the first instruction after reset is the word placed. -/
theorem test_with_fetch_word :
    (match step (State.reset.withFetchWord 32 0x7330FFF9) with
      | .next u => some (u.sReg 3)
      | _ => none) = some (-7) := by decide

/-- R58: the assembler line. -/
theorem test_text : text (.divrems 4 5 6 7) = "DIVREMS x4, x5, x6, x7" ∧ text (.shli 2 2 33) = "SHLI x2, x2, 33" := by
  decide

/-! ## Witnesses: for each statement with hypotheses, a state and operands that meet them together -/

/-- The state with the given transactions to come. -/
def ready (s : State) (ts : List Transaction) : State := { s with pending := ts }

/-- Any sixteen values. -/
def someDraw : Draw := Vector.replicate 16 7

theorem test_witness_DecodeOfEncode :
    (Instr.divrems 15 0 15 15).wellFormed = true ∧ (Instr.extz 0 15 1).wellFormed = true ∧
    (Instr.rori 0 0 0xFFFF).wellFormed = true := by decide
theorem test_witness_EncodeOfDecode :
    decode 0x52F0FF00 = .error .equalDestinations ∧ decode 0x52F0FE00 = .ok (.divremu 15 14 0 15) ∧
    encode (.divremu 15 14 0 15) = 0x52F0FE00 := by decide
theorem test_witness_PseudoInstructionsExpand :
    (Pseudo.li 1 0).expand = some (.liu 1 0) ∧ (Pseudo.li 1 65535).expand = some (.liu 1 0xFFFF) ∧
    (Pseudo.li 1 (-1)).expand = some (.lis 1 0xFFFF) ∧ (Pseudo.li 1 (-32768)).expand = some (.lis 1 0x8000) ∧
    (Pseudo.li 1 65536).expand = none ∧ (Pseudo.li 1 (-32769)).expand = none := by decide

theorem test_witness_IllegalFormsOfLegalOpcodes :
    (ready (small w64 5 0) [.issue (reg4 0x52 3 1 2 3)]).block.fcode = .none ∧
    (ready (small w64 5 0) [.issue (reg4 0x52 3 1 2 3)]).pending = [.issue 0x52312300] ∧
    (ready (small w64 5 0) [.issue (imm2 0x75 3 1 0)]).pending = [.issue 0x75310000] := by decide
theorem test_witness_StepRunsTheIssuedCommand :
    (ready (small w64 5 2) [.issue 0x50312000]).pending = .issue 0x50312000 :: [] ∧
    (ready (small w64 5 2) [.issue 0x50312000]).block.fcode = .none ∧
    decode 0x50312000 = .ok (.divu 3 1 2) := by decide
theorem test_witness_StepRaisesIllegalCommand :
    (ready (small w64 5 2) [.issue 0]).pending = .issue 0 :: [] ∧
    (ready (small w64 5 2) [.issue 0]).block.fcode = .none ∧ decode 0 = .error .unassignedOpcode := by decide
theorem test_witness_FaultedBlockDropsEveryIssue :
    (ready (faulty w64 5 0) [.issue 0x50312000]).pending = .issue 0x50312000 :: [] ∧
    (ready (faulty w64 5 0) [.issue 0x50312000]).block.fcode ≠ .none := by decide
theorem test_witness_IdleBlockHoldsItsState : (small w64 5 0).pending = [] := by decide
theorem test_witness_ResetSetsEveryPieceOfState :
    (ready (faulty w64 5 0) [.reset someDraw, .rdStatus]).pending = .reset someDraw :: [.rdStatus] ∧
    (State.afterReset w64 (Vector.replicate 16 (2 ^ 64 + 9))).uReg 15 = 9 := by decide
theorem test_witness_ClrFaultLeavesTheFaultedCondition :
    (ready (faulty w64 5 0) [.clrFault]).pending = .clrFault :: [] := by decide
theorem test_witness_StatusReadsReturnTheControlState :
    (ready (faulty w64 5 0) [.rdStatus]).pending = .rdStatus :: [] ∧
    (ready (faulty w64 5 0) [.rdFcmd]).pending = .rdFcmd :: [] := by decide

/-- N = 96: element 1 of 64 bits has bytes 8 to 11 inside storage and bytes 12 to 15 beyond it. -/
theorem test_witness_RdElemReturnsStoredAndFillBytes :
    (ready (small w96 (2 ^ 95) 0) [.rdElem 1 .w64 1 .sign]).pending = .rdElem 1 .w64 1 .sign :: [] ∧
    1 * ElemWidth.w64.bytes + 3 < w96.bytes ∧ ¬1 * ElemWidth.w64.bytes + 4 < w96.bytes ∧
    (small w96 (2 ^ 95) 0).bitAt 1 (w96.bits - 1) = true ∧
    answers (small w96 (2 ^ 95) 0) (.rdElem 1 .w64 1 .sign) = some [.elem .w64 0xFFFFFFFF80000000] ∧
    answers (small w96 (2 ^ 95) 0) (.rdElem 1 .w64 1 .zero) = some [.elem .w64 0x0000000080000000] := by decide
theorem test_witness_WrElemWritesTheAddressedBytes :
    (ready (small w96 0 0) [.wrElem 1 .w64 1 (2 ^ 31)]).pending = .wrElem 1 .w64 1 (2 ^ 31) :: [] ∧
    (after (small w96 0 0) (.wrElem 1 .w64 1 0x1122334480000000)).map (·.uReg 1) = some (2 ^ 95) := by decide
theorem test_witness_RdElemReturnsTheLastWrElem :
    (1 + 1) * ElemWidth.w32.bytes ≤ w64.bytes ∧
    (ready (small w64 0 0) [.wrElem 1 .w32 1 9, .rdElem 1 .w32 1 .sign]).pending =
      .wrElem 1 .w32 1 9 :: .rdElem 1 .w32 1 .sign :: [] := by decide
theorem test_witness_BytesReadAsWordsAreLittleEndian :
    4 * 1 + 4 ≤ w64.bytes ∧
    (ready (small w64 0 0) [.wrElem 1 .w8 4 1, .wrElem 1 .w8 5 2, .wrElem 1 .w8 6 3, .wrElem 1 .w8 7 4,
      .rdElem 1 .w32 1 .zero]).pending = .wrElem 1 .w8 (4 * 1) 1 :: .wrElem 1 .w8 (4 * 1 + 1) 2 ::
        .wrElem 1 .w8 (4 * 1 + 2) 3 :: .wrElem 1 .w8 (4 * 1 + 3) 4 :: .rdElem 1 .w32 1 .zero :: [] := by decide
theorem test_witness_NativeConstructionSequences :
    (ready (small w32 0 0) (constructSigned 1 .w64 (-7) ++ [])).block.fcode = .none ∧
    (ready (small w32 0 0) (constructSigned 1 .w64 (-7) ++ [])).pending = constructSigned 1 .w64 (-7) ++ [] ∧
    (ready (small w32 0 0) (constructUnsigned 1 .w8 5 ++ [])).pending = constructUnsigned 1 .w8 5 ++ [] := by
  decide
theorem test_witness_ArrayImportSequences :
    (ready (small w64 0 0) (importArray 1 .w16 [1, 2, 3, 4, 5])).pending =
      importArray 1 .w16 [1, 2, 3, 4, 5] ++ [] ∧
    [0x80000000].length ≤ w64.words ∧
    (ready (small w64 0 0) (widenSigned 1 [0x80000000])).pending = widenSigned 1 [0x80000000] ++ [] ∧
    (small w64 0 0).block.fcode = .none := by decide
theorem test_witness_NativeReadConversion :
    (ready (small w32 0xFFFFFFF9 0) [.rdElem 1 .w64 0 .sign]).pending = .rdElem 1 .w64 0 .sign :: [] ∧
    w32.bits < ElemWidth.w64.bits ∧ ElemWidth.w32.bits ≤ w32.bits ∧
    answers (small w32 0xFFFFFFF9 0) (.rdElem 1 .w64 0 .sign) = some [.elem .w64 0xFFFFFFFFFFFFFFF9] ∧
    answers (small w32 0xFFFFFFF9 0) (.rdElem 1 .w32 0 .sign) = some [.elem .w32 0xFFFFFFF9] := by decide

/-- R80 at the amounts 0, N − 1 and N. -/
theorem test_witness_ShiftFunctionsAreThoseOfTheRule :
    shiftArith (n := w32.bits) 0x80000001 0 = 0x80000001 ∧ shiftArith (n := w32.bits) 0x80000001 31 = 0xFFFFFFFF ∧
    shiftArith (n := w32.bits) 0x80000001 32 = 0xFFFFFFFF ∧ shiftLeft (n := w32.bits) 0x80000001 31 = 0x80000000 ∧
    shiftLeft (n := w32.bits) 0x80000001 32 = 0 ∧ onesHigh w32.bits 0 = 0 ∧
    onesHigh w32.bits 32 = 0xFFFFFFFF := by decide
theorem test_witness_ShiftLeftThenRightKeepsTheLowBits :
    (31 : Imm16).toNat < (small w32 0x80000001 0).width.bits ∧
    ∃ t u, exec (.shli 3 1 31) (small w32 0x80000001 0) = .next t ∧ exec (.shri 3 3 31) t = .next u :=
  ⟨by decide, _, _, rfl, rfl⟩
theorem test_witness_WordShiftsAgree : 33 < w64.bits ∧ 63 < w64.bits ∧ 32 < w64.bits := by decide
theorem test_witness_AddAndSubUndoEachOther :
    (3 : Reg) ≠ 2 ∧
    (∃ t u, exec (.add 3 1 2) (small w64 1 2) = .next t ∧ exec (.sub 3 3 2) t = .next u) ∧
    ∃ t u, exec (.sub 3 1 2) (small w64 1 2) = .next t ∧ exec (.add 3 3 2) t = .next u :=
  ⟨by decide, ⟨_, _, rfl, rfl⟩, _, _, rfl, rfl⟩
theorem test_witness_NegNegates :
    (small w64 7 0).uReg 1 ≠ 2 ^ ((small w64 7 0).width.bits - 1) ∧
    (small w64 (2 ^ 63) 0).uReg 1 = 2 ^ ((small w64 7 0).width.bits - 1) := by decide
theorem test_witness_UnsignedDivision : (small w64 5 2).uReg 2 ≠ 0 ∧ (3 : Reg) ≠ 4 := by decide
/-- Both clauses of the quotient: an ordinary pair, and the most negative value divided by −1. -/
theorem test_witness_SignedDivision :
    (small w64 (2 ^ 63) (2 ^ 64 - 1)).uReg 2 ≠ 0 ∧ (small w64 (2 ^ 63) (2 ^ 64 - 1)).sReg 1 = -(2 ^ (w64.bits - 1)) ∧
    (small w64 (2 ^ 63) (2 ^ 64 - 1)).sReg 2 = -1 ∧ (small w64 (2 ^ 63) 1).uReg 2 ≠ 0 ∧
    (small w64 (2 ^ 63) 1).sReg 2 ≠ -1 := by decide
theorem test_witness_DivisionByZeroFaults : (small w64 5 0).uReg 2 = 0 ∧ (3 : Reg) ≠ 4 := by decide
/-- Also for DivisionIdentity; both sides of the small-divisor bound. -/
theorem test_witness_ReferenceDivisionsAgree :
    (2 ^ 32 - 1 : BitVec w64.bits).toNat ≠ 0 ∧ (2 ^ 32 - 1 : BitVec w64.bits).toNat < 2 ^ 32 ∧
    ¬(2 ^ 32 : BitVec w64.bits).toNat < 2 ^ 32 := by decide
theorem test_witness_StatusGivesTheSixRelations :
    (∃ t, exec (.cmpu 1 2) (small w64 1 2) = .next t) ∧ ∃ t, exec (.cmps 1 2) (small w64 1 2) = .next t :=
  ⟨⟨_, rfl⟩, _, rfl⟩
/-- Byte counts below, at and above NB = 8. -/
theorem test_witness_ExtensionsFromAByteCount :
    (7 : Imm16) ≠ 0 ∧ min (7 : Imm16).toNat w64.bytes = 7 ∧ min (8 : Imm16).toNat w64.bytes = 8 ∧
    min (0xFFFF : Imm16).toNat w64.bytes = 8 := by decide
theorem test_witness_BitScans : (small w64 0 0).uReg 1 = 0 ∧ (small w64 0x50 0).uReg 1 ≠ 0 := by decide
/-- Both kinds of fault of `CommandsWriteOnlyWhatTheirRulesName`. -/
theorem test_witness_CommandsWriteOnlyWhatTheirRulesName :
    divisor (.rems 3 1 2) = some 2 ∧ (small w64 5 0).uReg 2 = 0 ∧ (Instr.divremu 3 3 1 2).wellFormed = false := by
  decide
theorem test_witness_CommandsReadOnlyTheirSources :
    (small w64 5 2).width = (small w64 5 9).width ∧ (small w64 5 2).block.fcode = .none ∧
    (small w64 5 9).block.fcode = .none ∧
    (∀ r ∈ sources (.inc 3 1), (small w64 5 2).uReg r = (small w64 5 9).uReg r) ∧
    ∃ t t', exec (.inc 3 1) (small w64 5 2) = .next t ∧ exec (.inc 3 1) (small w64 5 9) = .next t' :=
  ⟨by decide, by decide, by decide, by decide, _, _, rfl, rfl⟩
theorem test_witness_FaultsArePrecise :
    (small w64 5 0).block.fcode = .none ∧
    ((after (small w64 5 0) (.issue 0x50312000)).map (·.block.fcode)) = some .divisionByZero ∧
    ((after (small w64 5 0) (.issue 0)).map (·.block.fcode)) = some .illegalCommand := by decide
theorem test_witness_OnlyClrFaultAndResetClearAFault :
    (faulty w64 5 0).block.fcode ≠ .none ∧
    (after (faulty w64 5 0) .clrFault).map (·.block.fcode) = some .none ∧
    (after (faulty w64 5 0) (.reset someDraw)).map (·.block.fcode) = some .none ∧
    (after (faulty w64 5 0) (.issue 0)).map (·.block.fcode) = some .divisionByZero := by decide
/-- A compare while not faulted, the same compare while faulted, and a Reset. -/
theorem test_witness_FlagsChangeOnlyByCompareAndReset :
    (after (small w64 1 2) (.issue 0x60012000)).map (·.status) = some 2 ∧
    (after (faulty w64 1 2) (.issue 0x60012000)).map (·.status) = some 0x101 ∧
    (after (small w64 1 2) (.reset someDraw)).map (·.status) = some 0 := by decide
theorem test_witness_StepsTakeOneTransactionAtAFixedWidth :
    (after (small w64 1 2) .rdStatus).map (fun u => (u.width, u.pending, u.replies)) =
      some (w64, [], [.status 1]) := by decide
/-- The invariant in a faulted state, and a step from it. -/
theorem test_witness_EveryStepKeepsTheInvariant :
    (faulty w64 5 0).Inv ∧ ∃ t, step (ready (faulty w64 5 0) [.clrFault]) = .next t :=
  ⟨⟨by decide, fun h => absurd h (by decide), fun _ => ⟨.divu 3 1 2, by decide, by decide⟩, by decide⟩, _, rfl⟩
theorem test_witness_WidthsAreTheLegalOnes :
    (32768 % 32 = 0 ∧ 32 ≤ 32768 ∧ 32768 ≤ 32768) ∧ ¬(32800 % 32 = 0 ∧ 32 ≤ 32800 ∧ 32800 ≤ 32768) := by decide
theorem test_witness_OneBitTestAndFactorial :
    (ready (small w64 8 0) oneBitTest).block.fcode = .none ∧ 3 ≤ 65535 ∧
    (ready (small w64 8 0) oneBitTest).pending = oneBitTest ++ [] ∧
    (ready (small w64 8 0) (factorialSequence 3)).pending = factorialSequence 3 ++ [] := by decide
theorem test_witness_SquareRootLoop :
    (small w64 99 0).block.fcode = .none ∧ (small w64 99 0).uReg 1 ≠ 0 := by decide

end Sys2Proof.Tests
end

/-! ## The width parameter (spec/00_scope.md R3, R4)

Which numbers are widths, and that the width is kept by each layer of a step: a command, `Issue`, a
transaction, the step. -/

namespace Sys2Proof.Machine

theorem ofBits?_of_legal {n : Nat} (h : n % 32 = 0 ∧ 32 ≤ n ∧ n ≤ 32768) :
    ∃ w : Width, Width.ofBits? n = some w ∧ w.words = n / 32 := ⟨_, dif_pos h, rfl⟩

theorem ofBits?_of_illegal {n : Nat} (h : ¬(n % 32 = 0 ∧ 32 ≤ n ∧ n ≤ 32768)) :
    Width.ofBits? n = none := dif_neg h

theorem exec_keeps_width {i : Instr} {s t : State} (h : exec i s = .next t) : t.width = s.width := by
  obtain ⟨b, hb⟩ := exec_eq_withBlock i s
  cases hb.symm.trans h
  exact s.width_withBlock b

theorem issue_keeps_width {w : Word} {s t : State} (h : issue w s = .next t) : t.width = s.width := by
  rcases issue_cases w s with ⟨-, hdrop⟩ | ⟨-, i, -, hexec⟩ | ⟨-, c, -, hraise⟩
  · cases hdrop.symm.trans h
    rfl
  · exact exec_keeps_width (hexec.symm.trans h)
  · cases hraise.symm.trans h
    exact s.width_withBlock _

theorem transact_keeps_width {tr : Transaction} {s t : State} (h : transact tr s = .next t) :
    t.width = s.width := by
  cases tr with
  | issue w => exact issue_keeps_width h
  | reset | wrElem | clrFault =>
    cases h
    exact s.width_withBlock _
  | rdElem | rdStatus | rdFcmd =>
    cases h
    exact s.width_answer _

theorem step_keeps_width {s t : State} (h : step s = .next t) : t.width = s.width := by
  rcases step_cases h with ⟨-, rfl⟩ | ⟨tr, rest, -, htr⟩
  · rfl
  · exact transact_keeps_width (s := { s with pending := rest }) htr

/-- Settles O58: a legal number is 32 times its number of words, every other number is refused, and no
transaction writes the width. -/
theorem widthsAreTheLegalOnes : Obligations.WidthsAreTheLegalOnes := by
  refine ⟨fun n => ⟨fun hn => ?_, ofBits?_of_illegal⟩, fun _ _ => step_keeps_width⟩
  obtain ⟨w, hw, hwords⟩ := ofBits?_of_legal hn
  refine ⟨w, hw, ?_, ?_, hwords⟩
  · simp only [Width.bits, hwords]; omega
  · simp only [Width.bytes, hwords]; omega

end Sys2Proof.Machine

/-! ## Decoding the encoding of a command (spec/30_encoding.md R51 to R55)

The fields of a word built by a format are the operands it was built from, so a command whose row in the
opcode map reads those fields is decoded from its encoding. -/

namespace Sys2Proof

/-- A word decodes to the command of its opcode when its must-be-zero bits are zero and the command has a
legal encoding (R55). -/
theorem decode_of_commandAt {w : Word} {op : Nat} {f : Format} {i : Instr} (hop : opcodeOf w = op)
    (hmap : commandAt w op = some (f, i)) (hmask : w &&& f.mask = BitVec.ofNat 32 (op * 2 ^ 24))
    (hwf : i.wellFormed = true) : decode w = .ok i := by
  simp only [Instr.wellFormed, Bool.and_eq_true, Bool.not_eq_true'] at hwf
  simp [decode, hop, hmap, hmask, hwf.1, hwf.2]

/-- A decoded command has a legal encoding (R55). -/
theorem wellFormed_of_decode {w : Word} {i : Instr} (h : decode w = .ok i) : i.wellFormed = true := by
  unfold decode at h
  split at h
  · cases h
  · split_ifs at h with _ hdest hcount
    cases h
    simp [Instr.wellFormed, hdest, hcount]

theorem regAt_eq {w : Word} {lo : Nat} {r : Reg} (h : w.toNat / 2 ^ lo % 16 = r.val) : regAt w lo = r :=
  Fin.ext h

theorem immOf_eq {w : Word} {imm : Imm16} (h : w.toNat % 2 ^ 16 = imm.toNat) : immOf w = imm :=
  BitVec.eq_of_toNat_eq (by simp only [immOf, bits, BitVec.toNat_ofNat]; omega)

section
variable {op : Nat} (hop : op < 256) {rd ra rb re : Reg} {imm : Imm16}
include hop

theorem decode_reg3 {mk : Reg → Reg → Reg → Instr}
    (hmap : ∀ w, commandAt w op = some (.reg3, mk (rdOf w) (raOf w) (rbOf w)))
    (hwf : (mk rd ra rb).wellFormed = true) : decode (reg3 op rd ra rb) = .ok (mk rd ra rb) := by
  have hw := toNat_reg3 op hop rd ra rb
  have hrd : rdOf (reg3 op rd ra rb) = rd := regAt_eq (by omega)
  have hra : raOf (reg3 op rd ra rb) = ra := regAt_eq (by omega)
  have hrb : rbOf (reg3 op rd ra rb) = rb := regAt_eq (by omega)
  exact decode_of_commandAt (by rw [opcodeOf_eq]; omega) (by rw [hmap, hrd, hra, hrb])
    (Laws.FixedBits.fixed_reg3 op hop rd ra rb) hwf

theorem decode_reg4 {mk : Reg → Reg → Reg → Reg → Instr}
    (hmap : ∀ w, commandAt w op = some (.reg4, mk (rdOf w) (reOf w) (raOf w) (rbOf w)))
    (hwf : (mk rd re ra rb).wellFormed = true) :
    decode (reg4 op rd ra rb re) = .ok (mk rd re ra rb) := by
  have hw := toNat_reg4 op hop rd ra rb re
  have hrd : rdOf (reg4 op rd ra rb re) = rd := regAt_eq (by omega)
  have hra : raOf (reg4 op rd ra rb re) = ra := regAt_eq (by omega)
  have hrb : rbOf (reg4 op rd ra rb re) = rb := regAt_eq (by omega)
  have hre : reOf (reg4 op rd ra rb re) = re := regAt_eq (by omega)
  exact decode_of_commandAt (by rw [opcodeOf_eq]; omega) (by rw [hmap, hrd, hra, hrb, hre])
    (Laws.FixedBits.fixed_reg4 op hop rd ra rb re) hwf

theorem decode_reg2 {mk : Reg → Reg → Instr}
    (hmap : ∀ w, commandAt w op = some (.reg2, mk (rdOf w) (raOf w)))
    (hwf : (mk rd ra).wellFormed = true) : decode (reg2 op rd ra) = .ok (mk rd ra) := by
  have hw := toNat_reg2 op hop rd ra
  have hrd : rdOf (reg2 op rd ra) = rd := regAt_eq (by omega)
  have hra : raOf (reg2 op rd ra) = ra := regAt_eq (by omega)
  exact decode_of_commandAt (by rw [opcodeOf_eq]; omega) (by rw [hmap, hrd, hra])
    (Laws.FixedBits.fixed_reg2 op hop rd ra) hwf

theorem decode_reg1 {mk : Reg → Instr} (hmap : ∀ w, commandAt w op = some (.reg1, mk (rdOf w)))
    (hwf : (mk rd).wellFormed = true) : decode (reg1 op rd) = .ok (mk rd) := by
  have hw := toNat_reg1 op hop rd
  have hrd : rdOf (reg1 op rd) = rd := regAt_eq (by omega)
  exact decode_of_commandAt (by rw [opcodeOf_eq]; omega) (by rw [hmap, hrd])
    (Laws.FixedBits.fixed_reg1 op hop rd) hwf

theorem decode_cmp2 {mk : Reg → Reg → Instr}
    (hmap : ∀ w, commandAt w op = some (.cmp2, mk (raOf w) (rbOf w)))
    (hwf : (mk ra rb).wellFormed = true) : decode (cmp2 op ra rb) = .ok (mk ra rb) := by
  have hw := toNat_cmp2 op hop ra rb
  have hra : raOf (cmp2 op ra rb) = ra := regAt_eq (by omega)
  have hrb : rbOf (cmp2 op ra rb) = rb := regAt_eq (by omega)
  exact decode_of_commandAt (by rw [opcodeOf_eq]; omega) (by rw [hmap, hra, hrb])
    (Laws.FixedBits.fixed_cmp2 op hop ra rb) hwf

theorem decode_imm2 {mk : Reg → Reg → Imm16 → Instr}
    (hmap : ∀ w, commandAt w op = some (.imm2, mk (rdOf w) (raOf w) (immOf w)))
    (hwf : (mk rd ra imm).wellFormed = true) : decode (imm2 op rd ra imm) = .ok (mk rd ra imm) := by
  have hw := toNat_imm2 op hop rd ra imm
  have hlt := imm.isLt
  have hrd : rdOf (imm2 op rd ra imm) = rd := regAt_eq (by omega)
  have hra : raOf (imm2 op rd ra imm) = ra := regAt_eq (by omega)
  have himm : immOf (imm2 op rd ra imm) = imm := immOf_eq (by omega)
  exact decode_of_commandAt (by rw [opcodeOf_eq]; omega) (by rw [hmap, hrd, hra, himm])
    (Laws.FixedBits.fixed_imm2 op hop rd ra imm) hwf

theorem decode_imm1 {mk : Reg → Imm16 → Instr}
    (hmap : ∀ w, commandAt w op = some (.imm1, mk (rdOf w) (immOf w)))
    (hwf : (mk rd imm).wellFormed = true) : decode (imm1 op rd imm) = .ok (mk rd imm) := by
  have hw := toNat_imm1 op hop rd imm
  have hlt := imm.isLt
  have hrd : rdOf (imm1 op rd imm) = rd := regAt_eq (by omega)
  have himm : immOf (imm1 op rd imm) = imm := immOf_eq (by omega)
  exact decode_of_commandAt (by rw [opcodeOf_eq]; omega) (by rw [hmap, hrd, himm])
    (Laws.FixedBits.fixed_imm1 op hop rd imm) hwf
end

/-- Each row of the opcode map reads back the operands its format encodes (R54). -/
theorem decode_encode {i : Instr} (h : i.wellFormed = true) : decode (encode i) = .ok i := by
  cases i with
  | and | or | xor | shl | shr | sar | add | sub | mulu | muls | divu | remu | divs | rems | ror =>
    exact decode_reg3 (by decide) (fun _ => rfl) h
  | divremu | divrems => exact decode_reg4 (by decide) (fun _ => rfl) h
  | not | inc | dec | neg | mov | fhb | flb => exact decode_reg2 (by decide) (fun _ => rfl) h
  | clr | mkmin | mkmax => exact decode_reg1 (by decide) (fun _ => rfl) h
  | cmpu | cmps => exact decode_cmp2 (by decide) (fun _ => rfl) h
  | shli | shri | sari | extz | exts | rori => exact decode_imm2 (by decide) (fun _ => rfl) h
  | liu | lis => exact decode_imm1 (by decide) (fun _ => rfl) h

end Sys2Proof

/-! ## What a command writes (spec/10_state.md R14, R17, R18)

A command ends in one of five ways: it writes one register, two registers or the flags, it finds a zero
divisor, or it has no legal encoding. Each way keeps what its rule does not name. -/

namespace Sys2Proof.Machine

/-- The outcome `o` of the command `i` in `s` is a next state that differs from `s` only in what the rules
of `i` name. -/
def WritesOnlyNamed (i : Instr) (s : State) (o : Host.Outcome State Fault Refusal) : Prop :=
  ∃ t, o = .next t ∧
    SameRegs (dests i) s t ∧ SameHost s t ∧ (isCompare i = false → SameFlags s t) ∧
    (SameFault s t ∨
      (∃ rb, divisor i = some rb ∧ s.uReg rb = 0 ∧ Raised .divisionByZero (encode i) s t) ∨
      (i.wellFormed = false ∧ Raised .illegalCommand (encode i) s t))

theorem SameRegs.mono {ds es : List Reg} {s t : State} (h : SameRegs ds s t) (hsub : ds ⊆ es) :
    SameRegs es s t where
  width := h.width
  regs r hr := h.regs r fun hd => hr (hsub hd)
  bytes r p hr := h.bytes r p fun hd => hr (hsub hd)

theorem writesOnlyNamed_of_frame {i : Instr} {s t : State} (h : Frame (dests i) s t) :
    WritesOnlyNamed i s (.next t) :=
  ⟨t, rfl, h.regs, h.host, fun _ => h.flags, .inl h.fault⟩

theorem writesOnlyNamed_setReg {i : Instr} {s : State} {rd : Reg} (hd : dests i = [rd])
    (v : BitVec s.width.bits) : WritesOnlyNamed i s (done s (s.block.setReg rd v)) :=
  writesOnlyNamed_of_frame (hd ▸ frame_setReg s rd v)

theorem writesOnlyNamed_setReg_setReg {i : Instr} {s : State} {rd re : Reg} (hd : dests i = [rd, re])
    (v u : BitVec s.width.bits) :
    WritesOnlyNamed i s (done s ((s.block.setReg rd v).setReg re u)) :=
  writesOnlyNamed_of_frame (hd ▸ frame_setReg_setReg s rd re v u)

theorem writesOnlyNamed_setFlags {i : Instr} (hi : isCompare i = true) (s : State) (f : Bool × Bool) :
    WritesOnlyNamed i s (done s (s.block.setFlags f)) :=
  ⟨_, rfl, .withBlock fun r _ => s.block.reg_setFlags f r, ⟨rfl, rfl⟩,
    fun hc => absurd (hi.symm.trans hc) (by decide), .inl ⟨rfl, rfl⟩⟩

/-- A command without a legal encoding raises IllegalCommand and writes nothing else
(notes/assumptions/8.md). -/
theorem writesOnlyNamed_illegal {i : Instr} (hi : i.wellFormed = false) (s : State) :
    WritesOnlyNamed i s (illegal s (encode i)) :=
  have h := raised_raise s .illegalCommand (encode i)
  ⟨_, rfl, h.regs.mono (List.nil_subset _), h.host, fun _ => h.flags, .inr (.inr ⟨hi, h⟩)⟩

/-- The test for a zero divisor adds nothing but DivisionByZero (spec/44_divide.md R122). -/
theorem writesOnlyNamed_unlessZero {i : Instr} {s : State} {rb : Reg} {b : Block s.width.bits}
    (hrb : divisor i = some rb) (hb : WritesOnlyNamed i s (done s b)) :
    WritesOnlyNamed i s (unlessZero s (encode i) rb b) := by
  by_cases hz : s.uReg rb = 0
  · rw [unlessZero_of_eq _ _ hz]
    have h := raised_raise s .divisionByZero (encode i)
    exact ⟨_, rfl, h.regs.mono (List.nil_subset _), h.host, fun _ => h.flags,
      .inr (.inl ⟨rb, hrb, hz, h⟩)⟩
  · rwa [unlessZero_of_ne _ _ hz]

/-- Only the commands with two destinations or a byte count can lack a legal encoding, and only the division
commands test a divisor. -/
theorem exec_writesOnlyNamed (i : Instr) (s : State) : WritesOnlyNamed i s (exec i s) := by
  cases i with
  | divu | remu | divs | rems => exact writesOnlyNamed_unlessZero rfl (writesOnlyNamed_setReg rfl _)
  | divremu | divrems =>
    simp only [exec, execDivremu, execDivrems]
    split
    case isTrue heq =>
      exact writesOnlyNamed_illegal (by simp [Instr.wellFormed, Instr.equalDestinations, heq]) s
    case isFalse => exact writesOnlyNamed_unlessZero rfl (writesOnlyNamed_setReg_setReg rfl _ _)
  | extz | exts =>
    simp only [exec, execExtz, execExts]
    split
    case isTrue heq =>
      exact writesOnlyNamed_illegal (by simp [Instr.wellFormed, Instr.zeroByteCount, heq]) s
    case isFalse => exact writesOnlyNamed_setReg rfl _
  | cmpu | cmps => exact writesOnlyNamed_setFlags rfl s _
  | _ => exact writesOnlyNamed_setReg rfl _

/-- Settles O50, by the five ways in which a command can end. -/
theorem commandsWriteOnlyWhatTheirRulesName : Obligations.CommandsWriteOnlyWhatTheirRulesName :=
  exec_writesOnlyNamed

/-! ## STATUS and the compares (spec/10_state.md R16, R17; spec/45_compare.md R125, R126) -/

variable {n : Nat}

theorem Block.getLsbD_status_zero (b : Block n) : b.status.getLsbD 0 = b.eqFlag := by
  rw [Block.status, BitVec.getLsbD_ofNat, Nat.testBit_zero]
  cases b.eqFlag <;> simp <;> omega

theorem Block.getLsbD_status_one (b : Block n) : b.status.getLsbD 1 = b.ltFlag := by
  rw [Block.status, BitVec.getLsbD_ofNat, Nat.testBit_add_one _ 0, Nat.testBit_zero]
  have := b.eqFlag.toNat_le
  cases b.ltFlag <;> simp <;> omega

/-- EQ and LT of `t` are those of a comparison of `x` with `y`. -/
structure FlagsCompare {α : Type} [LinearOrder α] (x y : α) (t : State) : Prop where
  eqFlag : t.block.eqFlag = true ↔ x = y
  ltFlag : t.block.ltFlag = true ↔ x < y

theorem flagsCompare_of_cmpu {ra rb : Reg} {s t : State} (h : exec (.cmpu ra rb) s = .next t) :
    FlagsCompare (s.uReg ra) (s.uReg rb) t := by
  cases h
  exact ⟨beq_iff_eq, decide_eq_true_iff⟩

theorem flagsCompare_of_cmps {ra rb : Reg} {s t : State} (h : exec (.cmps ra rb) s = .next t) :
    FlagsCompare (s.sReg ra) (s.sReg rb) t := by
  cases h
  exact ⟨beq_iff_eq, decide_eq_true_iff⟩

section
variable {α : Type} [LinearOrder α] {x y : α} {t : State}

theorem FlagsCompare.exclusive (h : FlagsCompare x y t) :
    ¬(t.block.eqFlag = true ∧ t.block.ltFlag = true) := fun ⟨heq, hlt⟩ =>
  (h.ltFlag.mp hlt).ne (h.eqFlag.mp heq)

/-- The six relations the host derives from STATUS are those of the compared values (R17). -/
theorem FlagsCompare.six_relations (h : FlagsCompare x y t) :
    (Relation.eq.ofStatus t.status = true ↔ x = y) ∧ (Relation.ne.ofStatus t.status = true ↔ x ≠ y) ∧
    (Relation.lt.ofStatus t.status = true ↔ x < y) ∧ (Relation.le.ofStatus t.status = true ↔ x ≤ y) ∧
    (Relation.gt.ofStatus t.status = true ↔ x > y) ∧ (Relation.ge.ofStatus t.status = true ↔ x ≥ y) := by
  have heq : t.status.getLsbD 0 = decide (x = y) := by
    rw [State.status, Block.getLsbD_status_zero, Bool.eq_iff_iff, h.eqFlag, decide_eq_true_iff]
  have hlt : t.status.getLsbD 1 = decide (x < y) := by
    rw [State.status, Block.getLsbD_status_one, Bool.eq_iff_iff, h.ltFlag, decide_eq_true_iff]
  simp only [Relation.ofStatus, heq, hlt]
  refine ⟨by simp, by simp, by simp, by simp [le_iff_lt_or_eq], ?_, by simp⟩
  simp only [Bool.and_eq_true, Bool.not_eq_true', decide_eq_false_iff_not, not_lt]
  rw [gt_iff_lt, lt_iff_le_and_ne, ne_comm]
end

/-- Settles O42: after a compare, bits 0 and 1 of STATUS are EQ and LT of the compared values, and the other
four relations of a linear order follow from these two. -/
theorem statusGivesTheSixRelations : Obligations.StatusGivesTheSixRelations := fun _ _ _ _ =>
  ⟨fun h => (flagsCompare_of_cmpu h).six_relations, fun h => (flagsCompare_of_cmps h).six_relations⟩

/-! ## Reset (spec/10_state.md R23, R24; spec/70_reset_and_hazards.md R180) -/

@[simp] theorem Block.status_afterReset (draw : Draw) : (Block.afterReset n draw).status = 0 := rfl
@[simp] theorem Block.faulted_afterReset (draw : Draw) : (Block.afterReset n draw).faulted = false := rfl

theorem Block.toNat_reg_afterReset (n : Nat) (draw : Draw) (r : Reg) :
    ((Block.afterReset n draw).reg r).toNat = draw[r] % 2 ^ n := by
  rw [Block.reg_afterReset, BitVec.toNat_ofNat]

/-- The draw of the unsigned values of sixteen registers leaves them in the registers. -/
theorem Block.toNat_reg_afterReset_map (v : Vector (BitVec n) 16) (r : Reg) :
    ((Block.afterReset n (v.map BitVec.toNat)).reg r).toNat = (v[r]).toNat := by
  rw [Block.toNat_reg_afterReset, Fin.getElem_fin, Vector.getElem_map, Fin.getElem_fin,
    Nat.mod_eq_of_lt (BitVec.isLt _)]

/-- Settles O11: a Reset replaces the block by `Block.afterReset`, whatever it held. -/
theorem resetSetsEveryPieceOfState : Obligations.ResetSetsEveryPieceOfState :=
  ⟨fun s draw _ hp => ⟨_, step_cons hp, Block.status_afterReset .., rfl, Block.faulted_afterReset .., rfl,
      Block.toNat_reg_afterReset s.width.bits draw, ⟨rfl, rfl⟩⟩,
    fun w draw => ⟨Block.status_afterReset .., rfl, Block.faulted_afterReset ..,
      Block.toNat_reg_afterReset w.bits draw⟩,
    fun _ v => ⟨v.map BitVec.toNat, Block.toNat_reg_afterReset_map v⟩⟩

/-! ## The faulted condition (spec/60_exceptions.md R163, R164) -/

theorem issue_of_faulted {w : Word} {s : State} (hf : s.block.fcode ≠ .none) : issue w s = .next s := by
  rcases issue_cases w s with ⟨-, h⟩ | ⟨hn, -⟩ | ⟨hn, -⟩
  · exact h
  · exact absurd hn hf
  · exact absurd hn hf

/-- What a transaction can do to the fault of a faulted block. -/
theorem transact_of_faulted {tr : Transaction} {s t : State} (hf : s.block.fcode ≠ .none)
    (h : transact tr s = .next t) :
    SameFault s t ∨
    (t.block.fcode = .none ∧ t.block.fcmd = 0 ∧ (tr = .clrFault ∨ ∃ draw, tr = .reset draw)) := by
  cases tr with
  | issue w =>
    cases (issue_of_faulted hf).symm.trans h
    exact .inl (.refl s)
  | reset draw => cases h; exact .inr ⟨rfl, rfl, .inr ⟨draw, rfl⟩⟩
  | clrFault => cases h; exact .inr ⟨rfl, rfl, .inl rfl⟩
  | wrElem | rdElem | rdStatus | rdFcmd => cases h; exact .inl ⟨rfl, rfl⟩

/-- Settles O53: a faulted block drops every Issue, and the data and status transactions do not write FCODE
and FCMD. -/
theorem onlyClrFaultAndResetClearAFault : Obligations.OnlyClrFaultAndResetClearAFault := by
  intro s t hf h
  rcases step_cases h with ⟨-, rfl⟩ | ⟨tr, rest, hp, htr⟩
  · exact .inl ⟨rfl, rfl⟩
  · rcases transact_of_faulted (s := { s with pending := rest }) hf htr with
      ⟨hcode, hcmd⟩ | ⟨hcode, hcmd, rfl | ⟨draw, rfl⟩⟩
    · exact .inl ⟨hcode, hcmd⟩
    · exact .inr ⟨hcode, hcmd, rest, .inl hp⟩
    · exact .inr ⟨hcode, hcmd, rest, .inr ⟨draw, hp⟩⟩

/-! ## The invariant of every run (spec/10_state.md R17, R19; spec/60_exceptions.md R160 to R162) -/

/-- With FCODE and FCMD cleared the invariant is about EQ and LT alone. -/
theorem State.Inv.of_not_faulted {s : State} (hcode : s.block.fcode = .none) (hcmd : s.block.fcmd = 0)
    (hflags : ¬(s.block.eqFlag = true ∧ s.block.ltFlag = true)) : s.Inv where
  cleared _ := hcmd
  illegal h := nomatch hcode.symm.trans h
  division h := nomatch hcode.symm.trans h
  flags := hflags

theorem State.Inv.of_sameFault {s t : State} (hs : s.Inv) (hf : SameFault s t)
    (hflags : ¬(t.block.eqFlag = true ∧ t.block.ltFlag = true)) : t.Inv where
  cleared h := hf.fcmd.trans (hs.cleared (hf.fcode.symm.trans h))
  illegal h := hf.fcmd ▸ hs.illegal (hf.fcode.symm.trans h)
  division h := hf.fcmd ▸ hs.division (hf.fcode.symm.trans h)
  flags := hflags

theorem State.Inv.flags_of_sameFlags {s t : State} (hs : s.Inv) (hf : SameFlags s t) :
    ¬(t.block.eqFlag = true ∧ t.block.ltFlag = true) := by
  rw [hf.eqFlag, hf.ltFlag]
  exact hs.flags

theorem State.Inv.of_raised_illegalCommand {s t : State} {w : Word} {c : Illegal} (hs : s.Inv)
    (hw : decode w = .error c) (hr : Raised .illegalCommand w s t) : t.Inv where
  cleared h := nomatch hr.fcode.symm.trans h
  illegal _ := ⟨c, hr.fcmd ▸ hw⟩
  division h := nomatch hr.fcode.symm.trans h
  flags := hs.flags_of_sameFlags hr.flags

theorem State.Inv.of_raised_divisionByZero {s t : State} {w : Word} {i : Instr} (hs : s.Inv)
    (hw : decode w = .ok i) (hi : (divisor i).isSome = true) (hr : Raised .divisionByZero w s t) :
    t.Inv where
  cleared h := nomatch hr.fcode.symm.trans h
  illegal h := nomatch hr.fcode.symm.trans h
  division _ := ⟨i, hr.fcmd ▸ hw, hi⟩
  flags := hs.flags_of_sameFlags hr.flags

theorem inv_afterReset (w : Width) (draw : Draw) : (State.afterReset w draw).Inv :=
  .of_not_faulted rfl rfl (by simp [State.afterReset])

/-- Settles O57: Reset clears FCODE, FCMD, EQ and LT. -/
theorem invariantHoldsAfterReset : Obligations.InvariantHoldsAfterReset :=
  ⟨inv_afterReset, inv_afterReset _ _⟩

/-- A compare never leaves EQ and LT both 1 (spec/45_compare.md R127). -/
theorem exec_compare_flags {i : Instr} {s t : State} (hi : isCompare i = true)
    (h : exec i s = .next t) : ¬(t.block.eqFlag = true ∧ t.block.ltFlag = true) := by
  cases i with
  | cmpu => exact (flagsCompare_of_cmpu h).exclusive
  | cmps => exact (flagsCompare_of_cmps h).exclusive
  | _ => cases hi

/-- A command with a legal encoding keeps the invariant: the word a division by zero records is its
encoding, which decodes to the division command again. -/
theorem exec_keeps_inv {i : Instr} {s t : State} (hwf : i.wellFormed = true) (hs : s.Inv)
    (h : exec i s = .next t) : t.Inv := by
  obtain ⟨t', ht', -, -, hflags, hfault⟩ := exec_writesOnlyNamed i s
  cases ht'.symm.trans h
  rcases hfault with hsame | ⟨rb, hrb, -, hraised⟩ | ⟨hnot, -⟩
  · refine hs.of_sameFault hsame ?_
    cases hc : isCompare i with
    | true => exact exec_compare_flags hc h
    | false => exact hs.flags_of_sameFlags (hflags hc)
  · exact hs.of_raised_divisionByZero (decode_encode hwf) (by rw [hrb]; rfl) hraised
  · exact absurd (hwf.symm.trans hnot) (by decide)

theorem issue_keeps_inv {w : Word} {s t : State} (hs : s.Inv) (h : issue w s = .next t) : t.Inv := by
  rcases issue_cases w s with ⟨-, hdrop⟩ | ⟨-, i, hi, hexec⟩ | ⟨-, c, hc, hraise⟩
  · cases hdrop.symm.trans h
    exact hs
  · exact exec_keeps_inv (wellFormed_of_decode hi) hs (hexec.symm.trans h)
  · cases hraise.symm.trans h
    exact hs.of_raised_illegalCommand hc (raised_raise s _ w)

theorem transact_keeps_inv {tr : Transaction} {s t : State} (hs : s.Inv)
    (h : transact tr s = .next t) : t.Inv := by
  cases tr with
  | issue w => exact issue_keeps_inv hs h
  | reset draw => cases h; exact .of_not_faulted rfl rfl (by simp)
  | clrFault => cases h; exact .of_not_faulted rfl rfl hs.flags
  | wrElem | rdElem | rdStatus | rdFcmd => cases h; exact hs.of_sameFault ⟨rfl, rfl⟩ hs.flags

/-- Settles O56: every transaction keeps the invariant, which does not speak of the host's side. -/
theorem everyStepKeepsTheInvariant : Obligations.EveryStepKeepsTheInvariant := by
  intro s t hs h
  rcases step_cases h with ⟨-, rfl⟩ | ⟨tr, rest, -, htr⟩
  · exact hs
  · have hrest : State.Inv { s with pending := rest } := hs.of_sameFault ⟨rfl, rfl⟩ hs.flags
    exact transact_keeps_inv hrest htr

end Sys2Proof.Machine

/-! ## Status reads (spec/20_memory.md R37) -/

namespace Sys2Proof.Machine

variable {n : Nat}

theorem FCode.number_le (c : FCode) : c.number ≤ 2 := by cases c <;> decide

/-- EQ and LT fit in the two low bits of STATUS. -/
theorem Block.flags_lt (b : Block n) : b.eqFlag.toNat + 2 * b.ltFlag.toNat < 4 := by
  have heq := b.eqFlag.toNat_le
  have hlt := b.ltFlag.toNat_le
  omega

/-- The fields of STATUS, at their places in its number (spec/10_state.md R16). -/
theorem Block.toNat_status (b : Block n) :
    b.status.toNat = b.eqFlag.toNat + 2 * b.ltFlag.toNat + 2 ^ 8 * b.fcode.number := by
  have hflags := b.flags_lt
  have hcode := b.fcode.number_le
  rw [Block.status, BitVec.toNat_ofNat, Nat.mod_eq_of_lt (by omega)]

/-- Bits `lo` to `lo + len − 1` of STATUS, as a number. -/
theorem Block.toNat_extractLsb'_status (b : Block n) (lo len : Nat) :
    (b.status.extractLsb' lo len).toNat =
      (b.eqFlag.toNat + 2 * b.ltFlag.toNat + 2 ^ 8 * b.fcode.number) / 2 ^ lo % 2 ^ len := by
  rw [BitVec.extractLsb'_toNat, Block.toNat_status, Nat.shiftRight_eq_div_pow]

theorem Block.fcode_field_status (b : Block n) : (b.status.extractLsb' 8 2).toNat = b.fcode.number := by
  have hflags := b.flags_lt
  have hcode := b.fcode.number_le
  rw [Block.toNat_extractLsb'_status]
  omega

theorem Block.reserved_low_status (b : Block n) : b.status.extractLsb' 2 6 = 0 := by
  have hflags := b.flags_lt
  apply BitVec.eq_of_toNat_eq
  rw [Block.toNat_extractLsb'_status]
  show _ = 0
  omega

theorem Block.reserved_high_status (b : Block n) : b.status.extractLsb' 10 22 = 0 := by
  have hflags := b.flags_lt
  have hcode := b.fcode.number_le
  apply BitVec.eq_of_toNat_eq
  rw [Block.toNat_extractLsb'_status]
  show _ = 0
  omega

/-- Settles O13: RdStatus answers `Block.status`, whose fields do not overlap, and RdFcmd answers FCMD; both
only append to the results. -/
theorem statusReadsReturnTheControlState : Obligations.StatusReadsReturnTheControlState :=
  ⟨fun s _ hp => ⟨s.status, step_cons hp, s.block.getLsbD_status_zero, s.block.getLsbD_status_one,
      s.block.fcode_field_status, s.block.reserved_low_status, s.block.reserved_high_status⟩,
    fun _ _ hp => step_cons hp⟩

/-! ## The byte view of a value (spec/20_memory.md R32, R38) -/

/-- A value of whole bytes is determined by its bytes. -/
theorem eq_of_byteOf_eq {count : Nat} {u v : BitVec (8 * count)}
    (h : ∀ j < count, byteOf u j = byteOf v j) : u = v := by
  apply BitVec.eq_of_getLsbD_eq
  intro i hi
  have hbit := congrArg (BitVec.getLsbD · (i % 8)) (h (i / 8) (by omega))
  have hmod : i % 8 < 8 := by omega
  simpa only [getLsbD_byteOf, hmod, decide_true, Bool.true_and, Nat.div_add_mod] using hbit

@[simp] theorem byteOf_zero (b : Byte) : byteOf b 0 = b := by simp [byteOf]

/-- The byte `j` of the number of a list of bytes is the list's element `j` (R38). -/
theorem ofBytes_digit (bs : List Byte) (j : Nat) (hj : j < bs.length) :
    ofBytes bs / 2 ^ (8 * j) % 2 ^ 8 = bs[j].toNat := by
  induction bs generalizing j with
  | nil => simp at hj
  | cons b bs ih =>
    have hb := b.isLt
    cases j with
    | zero => simp only [ofBytes, List.getElem_cons_zero]; omega
    | succ j =>
      have hdrop : ofBytes (b :: bs) / 2 ^ 8 = ofBytes bs := by simp only [ofBytes]; omega
      rw [List.getElem_cons_succ, ← ih j (by simpa using hj), Nat.mul_succ, Nat.add_comm, pow_add,
        ← Nat.div_div_eq_div_mul, hdrop]

/-! ## Reading the operand store (R36) -/

theorem Block.getD_byteAt (b : Block n) (r : Reg) (p : Nat) (f : Byte) :
    (b.byteAt r p).getD f = if p < n / 8 then byteOf (b.reg r) p else f := by
  unfold Block.byteAt
  split <;> rfl

@[simp] theorem Block.length_readBytes (b : Block n) (r : Reg) (p count : Nat) (fill : Fill) :
    (b.readBytes r p count fill).length = count := by
  simp [Block.readBytes]

theorem Block.toNat_memRead (b : Block n) (r : Reg) (p count : Nat) (fill : Fill) :
    (b.memRead r p count fill).toNat = ofBytes (b.readBytes r p count fill) := by
  have hlt := ofBytes_lt (b.readBytes r p count fill)
  rw [Block.length_readBytes] at hlt
  rw [Block.memRead, BitVec.toNat_ofNat, Nat.mod_eq_of_lt hlt]

/-- Byte `j` of an element read is the byte at its address, or the fill beyond storage. -/
theorem Block.byteOf_memRead (b : Block n) (r : Reg) (p : Nat) {count j : Nat} (fill : Fill)
    (hj : j < count) :
    byteOf (b.memRead r p count fill) j = (b.byteAt r (p + j)).getD (b.fillByte r fill) := by
  apply BitVec.eq_of_toNat_eq
  rw [toNat_byteOf, Block.toNat_memRead, ofBytes_digit _ j (by simpa using hj)]
  simp [Block.readBytes]

/-- Settles O14: RdElem answers `Block.memRead`, known byte by byte. -/
theorem rdElemReturnsStoredAndFillBytes : Obligations.RdElemReturnsStoredAndFillBytes := by
  intro s r e k fill rest hp
  refine ⟨s.block.memRead r (k * e.bytes) e.bytes fill, step_cons hp, fun j hj => ?_⟩
  rw [Block.byteOf_memRead _ _ _ _ hj, Block.getD_byteAt, width_bits_div_eight]
  cases fill <;> rfl

/-! ## Writing the operand store (R35) -/

/-- `putBytes` byte by byte: the addressed bytes are those of `v`, the others are kept. -/
theorem byteOf_putBytes (x : BitVec n) (p : Nat) {m : Nat} (v : BitVec m) (count : Nat) {q : Nat}
    (hq : q < n / 8) :
    byteOf (putBytes x p v count) q =
      if p ≤ q ∧ q < p + count then byteOf v (q - p) else byteOf x q := by
  apply BitVec.eq_of_getLsbD_eq
  intro i hi
  have hdiv : (8 * q + i) / 8 = q := by omega
  rw [getLsbD_byteOf, getLsbD_putBytes _ _ _ _ _ (by omega), hdiv]
  split
  case isTrue h =>
    have hbit : 8 * q + i - 8 * p = 8 * (q - p) + i := by omega
    rw [getLsbD_byteOf, hbit]
  case isFalse => rw [getLsbD_byteOf]

/-- What a byte of the written register reads after a write. -/
theorem Block.byteAt_memWrite (b : Block n) (r : Reg) (p count : Nat) (v : BitVec (8 * count)) (q : Nat) :
    (b.memWrite r p count v).byteAt r q =
      if p ≤ q ∧ q < p + count ∧ q < n / 8 then some (byteOf v (q - p)) else b.byteAt r q := by
  by_cases hq : q < n / 8
  · simp only [Block.byteAt, Block.reg_memWrite, if_pos, hq, byteOf_putBytes _ _ _ _ hq, and_true]
    split <;> rfl
  · simp [Block.byteAt, hq]

/-- A write inside storage is read back, whatever the fill (R42). -/
theorem Block.memRead_memWrite (b : Block n) (r : Reg) (p count : Nat) (v : BitVec (8 * count))
    (fill : Fill) (hin : p + count ≤ n / 8) :
    (b.memWrite r p count v).memRead r p count fill = v := by
  apply eq_of_byteOf_eq
  intro j hj
  have haddr : p ≤ p + j ∧ p + j < p + count ∧ p + j < n / 8 := by omega
  rw [Block.byteOf_memRead _ _ _ _ hj, Block.byteAt_memWrite, if_pos haddr, Nat.add_sub_cancel_left,
    Option.getD_some]

/-- Settles O15: WrElem writes one register, by `Block.memWrite`. -/
theorem wrElemWritesTheAddressedBytes : Obligations.WrElemWritesTheAddressedBytes := by
  intro s r e k v rest hp
  refine ⟨_, step_cons hp, frame_setReg { s with pending := rest } r _, fun p => ?_⟩
  rw [← width_bits_div_eight]
  exact s.block.byteAt_memWrite r _ _ v p

/-! ## Runs of data transactions (R38, R42) -/

/-- A run takes its first step and goes on from there. -/
theorem run_succ {s t : State} (h : step s = .next t) (k : Nat) :
    Host.Core.run Sys2Proof.core (k + 1) s = Host.Core.run Sys2Proof.core k t := by
  have hstep : Sys2Proof.core.step s = .next t := h
  simp only [Host.Core.run, hstep]

section
variable (w : Width) (b : Block w.bits) (r : Reg) (e : ElemWidth) (i : Nat) (rest : List Transaction)
  (replies : List Reply) (k : Nat)

theorem run_wrElem (v : BitVec e.bits) :
    Host.Core.run Sys2Proof.core (k + 1) ⟨w, b, .wrElem r e i v :: rest, replies⟩ =
      Host.Core.run Sys2Proof.core k ⟨w, b.memWrite r (i * e.bytes) e.bytes v, rest, replies⟩ :=
  run_succ rfl k

theorem run_rdElem (fill : Fill) :
    Host.Core.run Sys2Proof.core (k + 1) ⟨w, b, .rdElem r e i fill :: rest, replies⟩ =
      Host.Core.run Sys2Proof.core k
        ⟨w, b, rest, replies ++ [.elem e (b.memRead r (i * e.bytes) e.bytes fill)]⟩ :=
  run_succ rfl k
end

/-- Settles O16: the element read is the one `Block.memWrite` left, all of it inside storage. -/
theorem rdElemReturnsTheLastWrElem : Obligations.RdElemReturnsTheLastWrElem := by
  rintro ⟨w, b, _, replies⟩ r e k v fill rest hin rfl
  have hin' : k * e.bytes + e.bytes ≤ w.bits / 8 := by rwa [width_bits_div_eight, ← Nat.succ_mul]
  have hread := b.memRead_memWrite r (k * e.bytes) e.bytes v fill hin'
  exact ⟨_, (run_wrElem ..).trans (run_rdElem ..), by rw [hread]⟩

/-- A one-byte write inside storage is read back at its address and nowhere else in the register. -/
theorem Block.byteAt_memWrite_byte (b : Block n) (r : Reg) {p : Nat} (v : Byte) (q : Nat)
    (hp : p < n / 8) :
    (b.memWrite r (p * 1) 1 v).byteAt r q = if q = p then some v else b.byteAt r q := by
  rw [Block.byteAt_memWrite, Nat.mul_one]
  by_cases hq : q = p
  · subst hq
    rw [if_pos (by omega), if_pos rfl, Nat.sub_self, byteOf_zero]
  · rw [if_neg (by omega), if_neg hq]

/-- The block after four one-byte writes to the bytes `p` to `p + 3` of a register. -/
def Block.writeFour (b : Block n) (r : Reg) (p : Nat) (b0 b1 b2 b3 : Byte) : Block n :=
  (((b.memWrite r (p * 1) 1 b0).memWrite r ((p + 1) * 1) 1 b1).memWrite r ((p + 2) * 1) 1 b2).memWrite r
    ((p + 3) * 1) 1 b3

theorem Block.readBytes_writeFour (b : Block n) (r : Reg) {p : Nat} (b0 b1 b2 b3 : Byte) (fill : Fill)
    (hp : p + 4 ≤ n / 8) :
    (b.writeFour r p b0 b1 b2 b3).readBytes r p 4 fill = [b0, b1, b2, b3] := by
  have hbyte (q : Nat) : (b.writeFour r p b0 b1 b2 b3).byteAt r q =
      if q = p + 3 then some b3 else if q = p + 2 then some b2 else if q = p + 1 then some b1
      else if q = p then some b0 else b.byteAt r q := by
    unfold Block.writeFour
    rw [Block.byteAt_memWrite_byte _ _ _ _ (by omega), Block.byteAt_memWrite_byte _ _ _ _ (by omega),
      Block.byteAt_memWrite_byte _ _ _ _ (by omega), Block.byteAt_memWrite_byte _ _ _ _ (by omega)]
  simp [Block.readBytes, List.range_succ, hbyte]

theorem Block.toNat_memRead_writeFour (b : Block n) (r : Reg) {p : Nat} (b0 b1 b2 b3 : Byte) (fill : Fill)
    (hp : p + 4 ≤ n / 8) :
    ((b.writeFour r p b0 b1 b2 b3).memRead r p 4 fill).toNat =
      b0.toNat + 256 * b1.toNat + 65536 * b2.toNat + 16777216 * b3.toNat := by
  rw [Block.toNat_memRead, Block.readBytes_writeFour _ _ _ _ _ _ _ hp]
  simp only [ofBytes]
  omega

theorem run_writeFour (w : Width) (b : Block w.bits) (r : Reg) (p : Nat) (b0 b1 b2 b3 : Byte)
    (rest : List Transaction) (replies : List Reply) (k : Nat) :
    Host.Core.run Sys2Proof.core (k + 4) ⟨w, b, .wrElem r .w8 p b0 :: .wrElem r .w8 (p + 1) b1 ::
        .wrElem r .w8 (p + 2) b2 :: .wrElem r .w8 (p + 3) b3 :: rest, replies⟩ =
      Host.Core.run Sys2Proof.core k ⟨w, b.writeFour r p b0 b1 b2 b3, rest, replies⟩ :=
  (run_wrElem ..).trans ((run_wrElem ..).trans ((run_wrElem ..).trans (run_wrElem ..)))

/-- Settles O17: four WrElem of one byte, and the number of the bytes RdElem then reads. -/
theorem bytesReadAsWordsAreLittleEndian : Obligations.BytesReadAsWordsAreLittleEndian := by
  rintro ⟨w, b, _, replies⟩ r i b0 b1 b2 b3 rest hin rfl
  have hread : ((b.writeFour r (4 * i) b0 b1 b2 b3).memRead r (i * 4) 4 .zero).toNat =
      b0.toNat + 256 * b1.toNat + 65536 * b2.toNat + 16777216 * b3.toNat := by
    rw [Nat.mul_comm i 4]
    exact b.toNat_memRead_writeFour r b0 b1 b2 b3 .zero (by rwa [width_bits_div_eight])
  exact ⟨_, _, (run_writeFour ..).trans (run_rdElem ..), rfl, hread⟩

/-! ## One transaction, at most one result (R31, R34) -/

theorem exec_keeps_host {i : Instr} {s t : State} (h : exec i s = .next t) : SameHost s t := by
  obtain ⟨b, hb⟩ := exec_eq_withBlock i s
  cases hb.symm.trans h
  exact ⟨s.pending_withBlock b, s.replies_withBlock b⟩

theorem issue_keeps_host {w : Word} {s t : State} (h : issue w s = .next t) : SameHost s t := by
  rcases issue_cases w s with ⟨-, hdrop⟩ | ⟨-, i, -, hexec⟩ | ⟨-, c, -, hraise⟩
  · cases hdrop.symm.trans h
    exact .refl s
  · exact exec_keeps_host (hexec.symm.trans h)
  · cases hraise.symm.trans h
    exact (raised_raise s _ w).host

/-- What a transaction does to the host's side: the read transactions append their one result, and the others
leave it as it is. -/
theorem transact_host {tr : Transaction} {s t : State} (h : transact tr s = .next t) :
    SameHost s t ∨ (t.pending = s.pending ∧ ∃ r, t.replies = s.replies ++ [r]) := by
  cases tr with
  | issue w => exact .inl (issue_keeps_host h)
  | reset | wrElem | clrFault => cases h; exact .inl ⟨rfl, rfl⟩
  | rdElem | rdStatus | rdFcmd => cases h; exact .inr ⟨rfl, _, rfl⟩

/-- Settles O55: a step is idle with an empty stream, or one transaction on the state without it. -/
theorem stepsTakeOneTransactionAtAFixedWidth : Obligations.StepsTakeOneTransactionAtAFixedWidth := by
  intro s t h
  refine ⟨step_keeps_width h, ?_⟩
  rcases step_cases h with ⟨hnil, rfl⟩ | ⟨tr, rest, hp, htr⟩
  · exact ⟨by rw [hnil, List.tail_nil], .inl rfl⟩
  · rw [hp, List.tail_cons]
    rcases transact_host htr with ⟨hpending, hreplies⟩ | ⟨hpending, r, hreplies⟩
    · exact ⟨hpending, .inl hreplies⟩
    · exact ⟨hpending, .inr ⟨r, hreplies⟩⟩

/-- A block that is not faulted runs the command a legal word selects (R34). -/
theorem issue_of_decode {w : Word} {s : State} {i : Instr} (hf : s.block.fcode = .none)
    (hw : decode w = .ok i) : issue w s = exec i s := by
  rcases issue_cases w s with ⟨hfault, -⟩ | ⟨-, j, hj, h⟩ | ⟨-, c, hc, -⟩
  · exact absurd hf hfault
  · cases hj.symm.trans hw
    exact h
  · cases hc.symm.trans hw

/-- Settles O7: the step performs the Issue, which runs the command. -/
theorem stepRunsTheIssuedCommand : Obligations.StepRunsTheIssuedCommand :=
  fun _ _ _ _ hp hf hw => (step_cons hp).trans (issue_of_decode hf hw)

end Sys2Proof.Machine

/-! ## The rows of the opcode map (spec/30_encoding.md R51 to R56)

What a row gives is said once (`RowAt`): the opcode stands in the list of its format, the command's encoding
is the word the format builds from the fields the row reads, and which fields the two checks of the command
look at. Both directions of the round trip and the illegal words follow. -/

namespace Sys2Proof

/-- The opcodes of a format (R54). -/
def Format.opcodes : Format → List Nat
  | .reg3 => [0x10, 0x11, 0x12, 0x20, 0x21, 0x22, 0x30, 0x31, 0x40, 0x41, 0x50, 0x51, 0x54, 0x55, 0x80]
  | .reg4 => [0x52, 0x56]
  | .reg2 => [0x13, 0x32, 0x33, 0x34, 0x71, 0x81, 0x82]
  | .reg1 => [0x70, 0x76, 0x77]
  | .cmp2 => [0x60, 0x61]
  | .imm2 => [0x28, 0x29, 0x2A, 0x74, 0x75, 0x88]
  | .imm1 => [0x72, 0x73]

/-- The word of a format with the opcode `op` and, in the places of its operands, the fields of `w` (R51). -/
def wordOfFields (op : Nat) (w : Word) : Format → Word
  | .reg3 => reg3 op (rdOf w) (raOf w) (rbOf w)
  | .reg4 => reg4 op (rdOf w) (raOf w) (rbOf w) (reOf w)
  | .reg2 => reg2 op (rdOf w) (raOf w)
  | .reg1 => reg1 op (rdOf w)
  | .cmp2 => cmp2 op (raOf w) (rbOf w)
  | .imm2 => imm2 op (rdOf w) (raOf w) (immOf w)
  | .imm1 => imm1 op (rdOf w) (immOf w)

/-- `i` is the command that the row of `op`, of format `f`, reads from `w`. -/
structure RowAt (w : Word) (op : Nat) (f : Format) (i : Instr) : Prop where
  mem : op ∈ f.opcodes
  encode_eq : encode i = wordOfFields op w f
  equalDestinations : i.equalDestinations = true ↔ op ∈ [0x52, 0x56] ∧ rdOf w = reOf w
  zeroByteCount : i.zeroByteCount = true ↔ op ∈ [0x74, 0x75] ∧ immOf w = 0

/-- The opcode map, row by row (R54). -/
theorem rowAt_of_commandAt {w : Word} {op : Nat} {f : Format} {i : Instr}
    (h : commandAt w op = some (f, i)) : RowAt w op f i := by
  unfold commandAt at h
  split at h <;> cases h
  all_goals exact ⟨by decide, rfl, by simp [Instr.equalDestinations], by simp [Instr.zeroByteCount]⟩

theorem commandAt_of_mem {op : Nat} {f : Format} (w : Word) (h : op ∈ f.opcodes) :
    ∃ i, commandAt w op = some (f, i) := by
  cases f <;> fin_cases h <;> exact ⟨_, rfl⟩

/-! ## Encoding what was decoded -/

/-- The mask test of R55 says that a word holds nothing but its opcode and the fields of its format. -/
theorem wordOfFields_opcodeOf {w : Word} {f : Format}
    (h : w &&& f.mask = BitVec.ofNat 32 (opcodeOf w * 2 ^ 24)) : wordOfFields (opcodeOf w) w f = w := by
  have hlt := w.isLt
  have hop := opcodeOf_eq w
  have hrd : (rdOf w).val = w.toNat / 2 ^ 20 % 2 ^ 4 := rfl
  have hra : (raOf w).val = w.toNat / 2 ^ 16 % 2 ^ 4 := rfl
  have hrb : (rbOf w).val = w.toNat / 2 ^ 12 % 2 ^ 4 := rfl
  have hre : (reOf w).val = w.toNat / 2 ^ 8 % 2 ^ 4 := rfl
  have himm : (immOf w).toNat = w.toNat % 2 ^ 16 := by simp [immOf, bits]
  apply BitVec.eq_of_toNat_eq
  cases f with
  | reg3 =>
    rw [mask_reg3_iff, bits] at h
    rw [wordOfFields, toNat_reg3 _ (opcodeOf_lt w)]
    omega
  | reg4 =>
    rw [mask_reg4_iff, bits] at h
    rw [wordOfFields, toNat_reg4 _ (opcodeOf_lt w)]
    omega
  | reg2 =>
    rw [mask_reg2_iff, bits] at h
    rw [wordOfFields, toNat_reg2 _ (opcodeOf_lt w)]
    omega
  | reg1 =>
    rw [mask_reg1_iff, bits] at h
    rw [wordOfFields, toNat_reg1 _ (opcodeOf_lt w)]
    omega
  | cmp2 =>
    rw [mask_cmp2_iff, bits, bits] at h
    rw [wordOfFields, toNat_cmp2 _ (opcodeOf_lt w)]
    omega
  | imm2 =>
    rw [wordOfFields, toNat_imm2 _ (opcodeOf_lt w)]
    omega
  | imm1 =>
    rw [mask_imm1_iff, bits] at h
    rw [wordOfFields, toNat_imm1 _ (opcodeOf_lt w)]
    omega

/-- A decoded word passes the mask test of the row its opcode selects (R55). -/
theorem commandAt_of_decode {w : Word} {i : Instr} (h : decode w = .ok i) :
    ∃ f, commandAt w (opcodeOf w) = some (f, i) ∧
      w &&& f.mask = BitVec.ofNat 32 (opcodeOf w * 2 ^ 24) := by
  unfold decode at h
  split at h
  case h_1 => cases h
  case h_2 f j hrow =>
    split_ifs at h with hmask
    cases h
    exact ⟨f, hrow, not_not.mp hmask⟩

theorem encode_of_decode {w : Word} {i : Instr} (h : decode w = .ok i) : encode i = w := by
  obtain ⟨f, hrow, hmask⟩ := commandAt_of_decode h
  exact (rowAt_of_commandAt hrow).encode_eq.trans (wordOfFields_opcodeOf hmask)

/-- Settles O1, row by row of the opcode map. -/
theorem decodeOfEncode : Obligations.DecodeOfEncode := fun _ => decode_encode

/-- Settles O2: the row of a decoded word rebuilds the word from its fields, its other bits being zero. -/
theorem encodeOfDecode : Obligations.EncodeOfDecode := fun _ _ h =>
  ⟨encode_of_decode h, wellFormed_of_decode h⟩

/-! ## The illegal words -/

theorem Format.exists_iff {p : Format → Prop} :
    (∃ f, p f) ↔ p .reg3 ∨ p .reg4 ∨ p .reg2 ∨ p .reg1 ∨ p .cmp2 ∨ p .imm2 ∨ p .imm1 := by
  constructor
  · rintro ⟨f, h⟩
    cases f <;> simp only [h, true_or, or_true]
  · rintro (h | h | h | h | h | h | h) <;> exact ⟨_, h⟩

/-- The tests the decoder makes once the opcode has selected a row (R55). -/
theorem decode_error_iff_of_commandAt {w : Word} {f : Format} {i : Instr}
    (h : commandAt w (opcodeOf w) = some (f, i)) :
    (∃ c, decode w = .error c) ↔ w &&& f.mask ≠ BitVec.ofNat 32 (opcodeOf w * 2 ^ 24) ∨
      i.equalDestinations = true ∨ i.zeroByteCount = true := by
  simp only [decode, h]
  split_ifs <;> simp_all

/-- No opcode stands in the lists of two formats (R54). -/
theorem Format.eq_of_mem_opcodes {op : Nat} {f g : Format} (hf : op ∈ f.opcodes) (hg : op ∈ g.opcodes) : f = g := by
  obtain ⟨i, hi⟩ := commandAt_of_mem 0 hf
  obtain ⟨j, hj⟩ := commandAt_of_mem 0 hg
  cases hi.symm.trans hj
  rfl

/-- The four classes of illegal words (R56). -/
theorem decode_error_iff (w : Word) :
    (∃ c, decode w = .error c) ↔
      (¬∃ f : Format, opcodeOf w ∈ f.opcodes) ∨
      (∃ f : Format, opcodeOf w ∈ f.opcodes ∧ w &&& f.mask ≠ BitVec.ofNat 32 (opcodeOf w * 2 ^ 24)) ∨
      (opcodeOf w ∈ [0x52, 0x56] ∧ rdOf w = reOf w) ∨ (opcodeOf w ∈ [0x74, 0x75] ∧ immOf w = 0) := by
  by_cases hassigned : ∃ f : Format, opcodeOf w ∈ f.opcodes
  · obtain ⟨f, hf⟩ := hassigned
    obtain ⟨i, hrow⟩ := commandAt_of_mem w hf
    have hmask : (∃ g : Format, opcodeOf w ∈ g.opcodes ∧
        w &&& g.mask ≠ BitVec.ofNat 32 (opcodeOf w * 2 ^ 24)) ↔
        w &&& f.mask ≠ BitVec.ofNat 32 (opcodeOf w * 2 ^ 24) :=
      ⟨fun ⟨_, hg, hne⟩ => Format.eq_of_mem_opcodes hg hf ▸ hne, fun hne => ⟨f, hf, hne⟩⟩
    have hno : ¬¬∃ f : Format, opcodeOf w ∈ f.opcodes := not_not.mpr ⟨f, hf⟩
    have hfields := rowAt_of_commandAt hrow
    rw [decode_error_iff_of_commandAt hrow, or_iff_right hno, hmask, hfields.equalDestinations,
      hfields.zeroByteCount]
  · have hrow : commandAt w (opcodeOf w) = none := by
      rw [Option.eq_none_iff_forall_ne_some]
      exact fun ⟨f, _⟩ h => hassigned ⟨f, (rowAt_of_commandAt h).mem⟩
    exact iff_of_true ⟨.unassignedOpcode, by simp only [decode, hrow]⟩ (.inl hassigned)

/-! ### The same in the numbers of R51 and R54 -/

theorem toNat_extractLsb' (w : Word) (lo len : Nat) : (w.extractLsb' lo len).toNat = bits w lo len := by
  rw [BitVec.extractLsb'_toNat, Nat.shiftRight_eq_div_pow, bits]

theorem extractLsb'_eq_iff_regAt_eq (w : Word) (lo lo' : Nat) :
    w.extractLsb' lo 4 = w.extractLsb' lo' 4 ↔ regAt w lo = regAt w lo' := by
  rw [← BitVec.toNat_inj, toNat_extractLsb', toNat_extractLsb', Fin.ext_iff, val_regAt, val_regAt]

theorem extractLsb'_eq_immOf (w : Word) : w.extractLsb' 0 16 = immOf w :=
  (immOf_eq (by simp)).symm

theorem ofNat_shiftLeft_opcode (op : Nat) :
    BitVec.ofNat 32 op <<< 24 = BitVec.ofNat 32 (op * 2 ^ 24) := by
  apply BitVec.eq_of_toNat_eq
  simp only [BitVec.toNat_shiftLeft, BitVec.toNat_ofNat, Nat.shiftLeft_eq, Nat.mod_mul_mod]

/-- Settles O3: the four classes, the formats written out. -/
theorem illegalWordsAreThoseOfTheProcedure : Obligations.IllegalWordsAreThoseOfTheProcedure := by
  intro w
  simp only [decode_error_iff, opcodeOf_eq, Format.exists_iff, extractLsb'_eq_immOf,
    extractLsb'_eq_iff_regAt_eq, ofNat_shiftLeft_opcode, List.mem_append, or_assoc]
  rfl

end Sys2Proof

/-! ## The pseudo-instructions (R59) -/

namespace Sys2Proof.Machine

/-- LIU at any width: the constant fits, so it is not truncated (spec/46_convert_construct.md R132). -/
theorem exec_liu (rd : Reg) (imm : Imm16) (s : State) :
    ∃ t, exec (.liu rd imm) s = .next t ∧ t.uReg rd = imm.toNat ∧ Frame [rd] s t := by
  refine ⟨_, rfl, ?_, frame_setReg s rd _⟩
  have hwidth := width_bits_ge s.width
  have hlt : imm.toNat < 2 ^ s.width.bits :=
    imm.isLt.trans_le (Nat.pow_le_pow_right (by decide) (by omega))
  simp [zext_eq_setWidth, Nat.mod_eq_of_lt hlt]

/-- LIS at any width: the sign extension keeps the signed value (R133). -/
theorem exec_lis (rd : Reg) (imm : Imm16) (s : State) :
    ∃ t, exec (.lis rd imm) s = .next t ∧ t.sReg rd = imm.toInt ∧ Frame [rd] s t := by
  refine ⟨_, rfl, ?_, frame_setReg s rd _⟩
  have hwidth := width_bits_ge s.width
  simp [sext_eq_signExtend, BitVec.toInt_signExtend_of_le (show 16 ≤ s.width.bits by omega)]

theorem expand_li_of_nonneg (rd : Reg) {k : Int} (hlo : 0 ≤ k) (hhi : k ≤ 65535) :
    (Pseudo.li rd k).expand = some (.liu rd (BitVec.ofInt 16 k)) :=
  if_pos ⟨hlo, hhi⟩

theorem expand_li_of_neg (rd : Reg) {k : Int} (hlo : -32768 ≤ k) (hhi : k ≤ -1) :
    (Pseudo.li rd k).expand = some (.lis rd (BitVec.ofInt 16 (k + 65536))) :=
  (if_neg (by omega)).trans (if_pos ⟨hlo, hhi⟩)

theorem toNat_ofInt_sixteen {k : Int} (hlo : 0 ≤ k) (hhi : k ≤ 65535) :
    ((BitVec.ofInt 16 k).toNat : Int) = k := by
  rw [BitVec.toNat_ofInt]
  omega

/-- The pattern of a negative constant, k + 2^16, is read back as `k` in the signed view. -/
theorem toInt_ofInt_add_sixteen {k : Int} (hlo : -32768 ≤ k) (hhi : k ≤ -1) :
    (BitVec.ofInt 16 (k + 65536)).toInt = k := by
  rw [BitVec.toInt_ofInt, Int.bmod_def]
  omega

/-- −1 in the signed view is the largest number in the unsigned view (spec/00_scope.md R5). -/
theorem State.uReg_of_sReg_eq_neg_one {s : State} {r : Reg} (h : s.sReg r = -1) :
    s.uReg r = 2 ^ s.width.bits - 1 := by
  have hones : s.block.reg r = BitVec.allOnes s.width.bits :=
    BitVec.eq_of_toInt_eq (h.trans (by rw [BitVec.toInt_allOnes, if_pos (width_bits_pos s.width)]))
  rw [State.uReg, hones, uval, BitVec.toNat_allOnes]

/-- Settles O5: LIU loads the constants from 0 on, LIS the negative ones, of which SETONES loads −1. -/
theorem pseudoInstructionsExpand : Obligations.PseudoInstructionsExpand := by
  refine ⟨fun s rd k hlo hhi => ?_, fun s rd k hlo hhi => ?_, fun s rd => ?_⟩
  · obtain ⟨t, hexec, hval, hframe⟩ := exec_liu rd (BitVec.ofInt 16 k) s
    have himm := toNat_ofInt_sixteen hlo hhi
    exact ⟨_, t, expand_li_of_nonneg rd hlo hhi, himm, hexec, by rw [hval, himm], hframe⟩
  · obtain ⟨t, hexec, hval, hframe⟩ := exec_lis rd (BitVec.ofInt 16 (k + 65536)) s
    exact ⟨_, t, expand_li_of_neg rd hlo hhi, toNat_ofInt_sixteen (by omega) (by omega), hexec,
      hval.trans (toInt_ofInt_add_sixteen hlo hhi), hframe⟩
  · obtain ⟨t, hexec, hval, hframe⟩ := exec_lis rd 0xFFFF s
    have hneg : t.sReg rd = -1 := hval.trans (by decide)
    refine ⟨t, rfl, hexec, ?_, hneg, hframe⟩
    rw [State.uReg_of_sReg_eq_neg_one hneg, hframe.regs.width]

end Sys2Proof.Machine

/-! ## Bitwise commands (spec/40_bitwise.md R70 to R73)

Each command writes one value to `rd`, so its frame is `frame_setReg`; what is left is a law of that value. -/

namespace Sys2Proof.Machine

variable {n : Nat}

theorem Block.reg_setReg_self (b : Block n) (d : Reg) (v : BitVec n) : (b.setReg d v).reg d = v := by
  rw [Block.reg_setReg, if_pos rfl]

theorem State.bitAt_setReg_self (s : State) (d : Reg) (v : BitVec s.width.bits) (i : Nat) :
    (s.withBlock (s.block.setReg d v)).bitAt d i = v.getLsbD i := by
  rw [State.bitAt_withBlock, Block.reg_setReg_self]

theorem State.uReg_setReg_self (s : State) (d : Reg) (v : BitVec s.width.bits) :
    (s.withBlock (s.block.setReg d v)).uReg d = v.toNat := by
  rw [State.uReg_withBlock, Block.reg_setReg_self]

theorem State.wordOf_setReg_self (s : State) (d : Reg) (v : BitVec s.width.bits) (i : Nat) :
    wordOf ((s.withBlock (s.block.setReg d v)).block.reg d) i = wordOf v i :=
  congrArg (wordOf · i) (s.block.reg_setReg_self d v)

/-- AND word by word, as the document computes it (R70). -/
theorem wordOf_and (a b : BitVec n) (i : Nat) : wordOf (a &&& b) i = wordOf a i &&& wordOf b i :=
  BitVec.extractLsb'_and

/-- Settles O22: the bits of the value written to `rd` are the connective of the source bits, and nothing but
`rd` is written. -/
theorem bitwiseCommands : Obligations.BitwiseCommands := by
  intro s rd ra rb
  refine ⟨⟨rfl, _, rfl, frame_setReg s rd _, fun i => ?and_bits, fun i => ?and_words⟩,
    ⟨rfl, _, rfl, frame_setReg s rd _, fun i => ?or_bits⟩,
    ⟨rfl, _, rfl, frame_setReg s rd _, fun i => ?xor_bits, fun hab => ?xor_self⟩,
    ⟨rfl, _, rfl, frame_setReg s rd _, fun i hi => ?not_bits, ?not_value⟩⟩
  case and_bits => exact (s.bitAt_setReg_self rd _ i).trans BitVec.getLsbD_and
  case and_words => exact (s.wordOf_setReg_self rd _ i).trans (wordOf_and _ _ i)
  case or_bits => exact (s.bitAt_setReg_self rd _ i).trans BitVec.getLsbD_or
  case xor_bits => exact (s.bitAt_setReg_self rd _ i).trans BitVec.getLsbD_xor
  case xor_self => rw [State.uReg_setReg_self, hab, BitVec.xor_self, BitVec.toNat_zero]
  case not_bits =>
    rw [State.bitAt_setReg_self, BitVec.getLsbD_not, decide_eq_true hi, Bool.true_and, State.bitAt]
  case not_value => exact (s.uReg_setReg_self rd _).trans BitVec.toNat_not

end Sys2Proof.Machine

/-! ## Shift commands (spec/41_shift.md R80 to R89)

The three shift functions are the shifts of bit vectors, by any amount, so their bits, their unsigned and
their signed values are facts of the library. The commands and the word-level forms rest on that. -/

namespace Sys2Proof.Machine

variable {n : Nat}

/-! ### The shift functions (R80) -/

theorem toNat_shiftLeft (a : BitVec n) (s : Nat) :
    (shiftLeft a s).toNat = if s < n then a.toNat * 2 ^ s % 2 ^ n else 0 := by
  rw [shiftLeft]
  split
  · exact toNat_trunc_natCast ..
  · exact BitVec.toNat_zero

theorem toNat_shiftRight (a : BitVec n) (s : Nat) :
    (shiftRight a s).toNat = if s < n then a.toNat / 2 ^ s else 0 := by
  rw [shiftRight]
  split
  · rw [toNat_trunc_natCast, Nat.mod_eq_of_lt ((Nat.div_le_self ..).trans_lt a.isLt)]
  · exact BitVec.toNat_zero

/-- An amount of N or more shifts every bit out. -/
theorem shiftLeft_eq_shl (a : BitVec n) (s : Nat) : shiftLeft a s = a <<< s := by
  by_cases h : s < n
  · apply BitVec.eq_of_toNat_eq
    rw [toNat_shiftLeft, if_pos h, BitVec.toNat_shiftLeft, Nat.shiftLeft_eq]
  · rw [shiftLeft, if_neg h, BitVec.shiftLeft_eq_zero (Nat.le_of_not_lt h)]; rfl

theorem shiftRight_eq_ushr (a : BitVec n) (s : Nat) : shiftRight a s = a >>> s := by
  by_cases h : s < n
  · apply BitVec.eq_of_toNat_eq
    rw [toNat_shiftRight, if_pos h, BitVec.toNat_ushiftRight, Nat.shiftRight_eq_div_pow]
  · rw [shiftRight, if_neg h, BitVec.ushiftRight_eq_zero (Nat.le_of_not_lt h)]; rfl

theorem getLsbD_onesHigh {i : Nat} (v : Nat) (hi : i < n) :
    (onesHigh n v).getLsbD i = decide (n - v ≤ i) := by
  have hfactor : 2 ^ n - 2 ^ (n - v) = (2 ^ (n - (n - v)) - 1) * 2 ^ (n - v) := by
    rw [Nat.sub_one_mul, ← pow_add, Nat.sub_add_cancel (Nat.sub_le ..)]
  rw [onesHigh, trunc_natCast, BitVec.getLsbD_ofNat, decide_eq_true hi, Bool.true_and, hfactor,
    Nat.testBit_mul_two_pow, Nat.testBit_two_pow_sub_one, ← Bool.decide_and, decide_eq_decide]
  omega

/-- The bits that a negative value gets from `ones_high` are those its logical shift left empty. -/
theorem shiftArith_eq_sshiftRight (a : BitVec n) (s : Nat) : shiftArith a s = a.sshiftRight s := by
  rw [shiftArith, signBit_eq_msb, shiftRight_eq_ushr]
  split
  case isTrue hneg =>
    apply BitVec.eq_of_getLsbD_eq
    intro i hi
    rw [BitVec.getLsbD_or, BitVec.getLsbD_ushiftRight, getLsbD_onesHigh _ hi,
      BitVec.getLsbD_sshiftRight, hneg]
    by_cases hin : s + i < n
    · simp [hin, hi, show ¬n - min s n ≤ i by omega]
    · simp [hin, hi, show n - min s n ≤ i by omega]
  case isFalse hpos => exact (BitVec.sshiftRight_eq_of_msb_false (Bool.eq_false_of_not_eq_true hpos)).symm

theorem getLsbD_shiftLeft {i : Nat} (a : BitVec n) (s : Nat) (hi : i < n) :
    (shiftLeft a s).getLsbD i = (decide (s ≤ i) && a.getLsbD (i - s)) := by
  rw [shiftLeft_eq_shl, BitVec.getLsbD_shiftLeft, decide_eq_true hi, Bool.true_and, ← decide_not,
    decide_eq_decide.mpr Nat.not_lt]

theorem getLsbD_shiftRight (a : BitVec n) (s i : Nat) :
    (shiftRight a s).getLsbD i = a.getLsbD (i + s) := by
  rw [shiftRight_eq_ushr, BitVec.getLsbD_ushiftRight, Nat.add_comm]

theorem getLsbD_shiftArith {i : Nat} (a : BitVec n) (s : Nat) (hi : i < n) :
    (shiftArith a s).getLsbD i = if i + s ≤ n - 1 then a.getLsbD (i + s) else a.getLsbD (n - 1) := by
  rw [shiftArith_eq_sshiftRight, BitVec.getLsbD_sshiftRight, BitVec.msb_eq_getLsbD_last,
    decide_eq_false (Nat.not_le.mpr hi), Bool.not_false, Bool.true_and, Nat.add_comm s i]
  exact if_congr (by omega) rfl rfl

/-- Settles O23: the three functions, by their arithmetic and bit by bit. -/
theorem shiftFunctionsAreThoseOfTheRule : Obligations.ShiftFunctionsAreThoseOfTheRule := fun _ a s =>
  ⟨toNat_shiftLeft a s, toNat_shiftRight a s, fun v _ _ hi => getLsbD_onesHigh v hi, rfl,
    fun _ hi => getLsbD_shiftLeft a s hi, fun i _ => getLsbD_shiftRight a s i,
    fun _ hi => getLsbD_shiftArith a s hi⟩

/-! ### The commands (R81 to R86, R89) -/

/-- Settles O24: each command writes its shift function by the whole of `rb` to `rd`. -/
theorem registerShifts : Obligations.RegisterShifts := fun s rd _ _ =>
  ⟨⟨rfl, _, rfl, frame_setReg s rd _, fun i hi =>
      (s.bitAt_setReg_self rd _ i).trans (getLsbD_shiftLeft _ _ hi)⟩,
    ⟨rfl, _, rfl, frame_setReg s rd _, fun i _ =>
      (s.bitAt_setReg_self rd _ i).trans (getLsbD_shiftRight _ _ i)⟩,
    ⟨rfl, _, rfl, frame_setReg s rd _, fun i hi =>
      (s.bitAt_setReg_self rd _ i).trans (getLsbD_shiftArith _ _ hi)⟩⟩

/-- The product modulo 2^N covers the amounts from N on, where it is 0. -/
theorem toNat_shiftLeft_eq_mod (a : BitVec n) (s : Nat) :
    (shiftLeft a s).toNat = a.toNat * 2 ^ s % 2 ^ n := by
  rw [shiftLeft_eq_shl, BitVec.toNat_shiftLeft, Nat.shiftLeft_eq]

/-- The floor quotient covers the amounts from N on, where it is 0. -/
theorem toNat_shiftRight_eq_div (a : BitVec n) (s : Nat) :
    (shiftRight a s).toNat = a.toNat / 2 ^ s := by
  rw [shiftRight_eq_ushr, BitVec.toNat_ushiftRight, Nat.shiftRight_eq_div_pow]

/-- Settles O25: each command writes its shift function by U(imm16) to `rd`. -/
theorem immediateShifts : Obligations.ImmediateShifts := fun s rd _ _ =>
  ⟨⟨rfl, _, rfl, frame_setReg s rd _, (s.uReg_setReg_self rd _).trans (toNat_shiftLeft_eq_mod ..)⟩,
    ⟨rfl, _, rfl, frame_setReg s rd _, (s.uReg_setReg_self rd _).trans (toNat_shiftRight_eq_div ..)⟩,
    ⟨rfl, _, rfl, frame_setReg s rd _, fun i hi =>
      (s.bitAt_setReg_self rd _ i).trans (getLsbD_shiftArith _ _ hi)⟩⟩

/-- SHLI by the outcome it is known to have, as two commands in a row need it (R84). -/
theorem uReg_of_exec_shli {s t : State} {rd ra : Reg} {imm : Imm16} (h : exec (.shli rd ra imm) s = .next t) :
    t.uReg rd = s.uReg ra * 2 ^ imm.toNat % 2 ^ s.width.bits := by
  cases h
  exact (s.uReg_setReg_self rd _).trans (toNat_shiftLeft_eq_mod ..)

/-- SHRI by the outcome it is known to have (R85). -/
theorem uReg_of_exec_shri {s t : State} {rd ra : Reg} {imm : Imm16} (h : exec (.shri rd ra imm) s = .next t) :
    t.uReg rd = s.uReg ra / 2 ^ imm.toNat := by
  cases h
  exact (s.uReg_setReg_self rd _).trans (toNat_shiftRight_eq_div ..)

/-- Settles O26: a common factor 2^s of the product and the modulus cancels. -/
theorem shiftLeftThenRightKeepsTheLowBits : Obligations.ShiftLeftThenRightKeepsTheLowBits := by
  intro s t u rd ra imm hlt hleft hright
  have hmod : 2 ^ s.width.bits = 2 ^ (s.width.bits - imm.toNat) * 2 ^ imm.toNat := by
    rw [← pow_add, Nat.sub_add_cancel hlt.le]
  rw [uReg_of_exec_shri hright, uReg_of_exec_shli hleft, hmod, Nat.mul_mod_mul_right,
    Nat.mul_div_cancel _ (Nat.two_pow_pos _)]

/-! ### The word-level shifts (R87) -/

/-- The bits of a number given by its words are those of the words. -/
theorem testBit_ofWords (ds : List Word) (i : Nat) :
    (ofWords ds).testBit i = (ds.getD (i / 32) 0).getLsbD (i % 32) := by
  induction ds generalizing i with
  | nil => simp [ofWords]
  | cons d ds ih =>
    rw [ofWords, Nat.add_comm, Nat.testBit_two_pow_mul_add _ d.isLt]
    split
    case isTrue hlow => simp [BitVec.testBit_toNat, Nat.div_eq_of_lt hlow, Nat.mod_eq_of_lt hlow]
    case isFalse hhigh =>
      have hdiv : i / 32 = (i - 32) / 32 + 1 := by omega
      have hmod : i % 32 = (i - 32) % 32 := by omega
      rw [ih, hdiv, hmod, List.getD_cons_succ]

/-- A value is built from its W words (spec/10_state.md R10). -/
theorem fromWords_eq_of_wordOf {w : Width} {v : BitVec w.bits} {f : Nat → Word}
    (h : ∀ k < w.words, f k = wordOf v k) :
    fromWords w.bits ((List.range (w.bits / 32)).map f) = v := by
  apply BitVec.eq_of_getLsbD_eq
  intro i hi
  have hk : i / 32 < w.words := by simp only [Width.bits] at hi; omega
  have hword : ((List.range w.words).map f).getD (i / 32) 0 = f (i / 32) := by
    simp [List.getD_eq_getElem?_getD, hk]
  rw [fromWords, BitVec.getLsbD_ofNat, testBit_ofWords, width_bits_div_word, hword, h _ hk, getLsbD_wordOf,
    Nat.div_add_mod]
  simp [hi, Nat.mod_lt]

/-- `a[p]` with `a[p] = 0` for every p outside 0 ≤ p < N: the bits that the words of R87 are cut from. -/
def bitAtInt (a : BitVec n) (p : Int) : Bool := decide (0 ≤ p) && a.getLsbD p.toNat

theorem bitAtInt_of_neg (a : BitVec n) {p : Int} (h : p < 0) : bitAtInt a p = false := by
  rw [bitAtInt, decide_eq_false (Int.not_le.mpr h), Bool.false_and]

theorem bitAtInt_natCast (a : BitVec n) (i : Nat) : bitAtInt a i = a.getLsbD i := by
  rw [bitAtInt, decide_eq_true (Int.natCast_nonneg i), Bool.true_and, Int.toNat_natCast]

theorem getLsbD_wordAtInt (a : BitVec n) (m : Int) {j : Nat} (hj : j < 32) :
    (wordAtInt a m).getLsbD j = bitAtInt a (32 * m + j) := by
  rw [wordAtInt]
  split
  case isTrue h => rw [bitAtInt_of_neg a (by omega)]; exact BitVec.getLsbD_zero
  case isFalse h =>
    rw [getLsbD_wordOf, decide_eq_true hj, Bool.true_and, ← bitAtInt_natCast]
    congr 1
    omega

/-- Two neighbouring words shifted against each other hold 32 neighbouring bits of the value, from any bit
position on. -/
theorem getLsbD_funnel (a : BitVec n) (m : Int) {b j : Nat} (hb : b ≤ 32) (hj : j < 32) :
    (wordAtInt a m <<< b ||| wordAtInt a (m - 1) >>> (32 - b)).getLsbD j = bitAtInt a (32 * m + j - b) := by
  rw [BitVec.getLsbD_or, BitVec.getLsbD_shiftLeft, BitVec.getLsbD_ushiftRight, decide_eq_true hj,
    Bool.true_and]
  by_cases hlow : j < b
  · rw [decide_eq_true hlow, Bool.not_true, Bool.false_and, Bool.false_or, getLsbD_wordAtInt _ _ (by omega)]
    congr 1
    omega
  · rw [decide_eq_false hlow, Bool.not_false, Bool.true_and, BitVec.getLsbD_of_ge _ (32 - b + j) (by omega),
      Bool.or_false, getLsbD_wordAtInt _ _ (by omega)]
    congr 1
    omega

theorem getLsbD_wordOf_shiftLeft (a : BitVec n) (s : Nat) {k j : Nat} (hj : j < 32) (hin : 32 * k + j < n) :
    (wordOf (shiftLeft a s) k).getLsbD j = bitAtInt a (32 * k + j - s) := by
  rw [getLsbD_wordOf, decide_eq_true hj, Bool.true_and, getLsbD_shiftLeft a s hin]
  by_cases h : s ≤ 32 * k + j
  · rw [decide_eq_true h, Bool.true_and, ← bitAtInt_natCast]
    congr 1
    omega
  · rw [decide_eq_false h, Bool.false_and, bitAtInt_of_neg a (by omega)]

theorem getLsbD_wordOf_shiftRight (a : BitVec n) (s : Nat) {k j : Nat} (hj : j < 32) :
    (wordOf (shiftRight a s) k).getLsbD j = bitAtInt a (32 * k + j + s) := by
  rw [getLsbD_wordOf, decide_eq_true hj, Bool.true_and, getLsbD_shiftRight, ← bitAtInt_natCast]
  rfl

/-- The word indices of R87 are the first naturals, read as integers. -/
theorem map_intCast_range (f : Int → Word) (count : Nat) :
    ((do let k ← List.range count; pure (k : Int)) : List Int).map f =
      (List.range count).map fun k : Nat => f k :=
  (congrArg (List.map f) (List.flatMap_pure_eq_map ..)).trans List.map_map

/-- The left shift at the word level needs no bound on the amount. -/
theorem wordShiftLeft_eq_shiftLeft {w : Width} (a : BitVec w.bits) (s : Nat) :
    wordShiftLeft a s = shiftLeft a s := by
  rw [wordShiftLeft, map_intCast_range]
  refine fromWords_eq_of_wordOf fun k hk => BitVec.eq_of_getLsbD_eq fun j hj => ?_
  rw [getLsbD_wordOf_shiftLeft a s hj (by simp only [Width.bits]; omega)]
  split
  case isTrue hbo =>
    rw [getLsbD_wordAtInt _ _ hj]
    congr 1
    omega
  case isFalse hbo =>
    rw [getLsbD_funnel _ _ (by omega) hj]
    congr 1
    omega

theorem wordShiftRight_eq_shiftRight {w : Width} (a : BitVec w.bits) (s : Nat) :
    wordShiftRight a s = shiftRight a s := by
  rw [wordShiftRight, map_intCast_range]
  refine fromWords_eq_of_wordOf fun k hk => BitVec.eq_of_getLsbD_eq fun j hj => ?_
  rw [getLsbD_wordOf_shiftRight a s hj]
  split
  case isTrue hbo =>
    rw [getLsbD_wordAtInt _ _ hj]
    congr 1
    omega
  case isFalse hbo =>
    have hfunnel := getLsbD_funnel a (k + (s / 32 : Nat) + 1) (Nat.sub_le 32 (s % 32)) hj
    rw [add_sub_cancel_right, Nat.sub_sub_self (by omega)] at hfunnel
    rw [BitVec.or_comm, hfunnel]
    congr 1
    omega

theorem toInt_shiftArith (a : BitVec n) (s : Nat) : (shiftArith a s).toInt = a.toInt / 2 ^ s := by
  rw [shiftArith_eq_sshiftRight, BitVec.toInt_sshiftRight, Int.shiftRight_eq_div_pow, Nat.cast_pow,
    Nat.cast_ofNat]

/-- Settles O27: the words of the shifted value are the funnels of R87, bit by bit, and the arithmetic shift
is the library's, whose signed value is the floor quotient. -/
theorem wordShiftsAgree : Obligations.WordShiftsAgree := fun _ a s =>
  ⟨fun _ => ⟨wordShiftLeft_eq_shiftLeft a s, wordShiftRight_eq_shiftRight a s⟩, toInt_shiftArith a s⟩

end Sys2Proof.Machine

/-! ## Add, subtract, increment, decrement, negate (spec/42_addsub.md R90 to R97)

The commands are the ring operations of bit vectors, and so are their word-level forms: the words of each
form are, modulo 2^32 per word, those of the sum or difference with the carry that comes in. -/

namespace Sys2Proof.Machine

variable {n : Nat}

/-! ### The commands as operations of bit vectors -/

/-- The command `mk rd ra rb` writes `op` of its two sources to `rd` and does nothing else. -/
def Computes (mk : Reg → Reg → Reg → Instr) (op : ∀ n, BitVec n → BitVec n → BitVec n) : Prop :=
  ∀ (s : State) (rd ra rb : Reg), exec (mk rd ra rb) s =
    .next (s.withBlock (s.block.setReg rd (op _ (s.block.reg ra) (s.block.reg rb))))

theorem computes_add : Computes .add fun _ => (· + ·) := fun s rd ra rb =>
  congrArg (fun v => done s (s.block.setReg rd v)) (trunc_add (s.block.reg ra) (s.block.reg rb))

theorem computes_sub : Computes .sub fun _ => (· - ·) := fun s rd ra rb =>
  congrArg (fun v => done s (s.block.setReg rd v)) (trunc_sub (s.block.reg ra) (s.block.reg rb))

theorem computes_mulu : Computes .mulu fun _ => (· * ·) := fun s rd ra rb =>
  congrArg (fun v => done s (s.block.setReg rd v)) (mulU_eq_mul (s.block.reg ra) (s.block.reg rb))

theorem exec_inc (rd ra : Reg) (s : State) :
    exec (.inc rd ra) s = .next (s.withBlock (s.block.setReg rd (s.block.reg ra + 1))) :=
  congrArg (fun v => done s (s.block.setReg rd v)) (trunc_add_one (s.block.reg ra))

theorem exec_dec (rd ra : Reg) (s : State) :
    exec (.dec rd ra) s = .next (s.withBlock (s.block.setReg rd (s.block.reg ra - 1))) :=
  congrArg (fun v => done s (s.block.setReg rd v)) (trunc_sub_one (s.block.reg ra))

theorem exec_neg (rd ra : Reg) (s : State) :
    exec (.neg rd ra) s = .next (s.withBlock (s.block.setReg rd (-s.block.reg ra))) :=
  congrArg (fun v => done s (s.block.setReg rd v)) (negate_eq_neg (s.block.reg ra))

/-! ### ADD and SUB (R90, R91) -/

theorem toNat_add_eq_toInt_emod (a b : BitVec n) : ((a + b).toNat : Int) = (a.toInt + b.toInt) % 2 ^ n := by
  have hsum : trunc n (a.toInt + b.toInt) = a + b := by
    rw [trunc, BitVec.ofInt_add, BitVec.ofInt_toInt, BitVec.ofInt_toInt]
  rw [← hsum, toNat_trunc]

theorem toNat_sub_eq_emod (a b : BitVec n) : ((a - b).toNat : Int) = ((a.toNat : Int) - b.toNat) % 2 ^ n := by
  rw [← trunc_sub, toNat_trunc]

/-- The difference as the sum with the complement and one (R91). -/
theorem toNat_sub_eq_add_not_add_one (a b : BitVec n) :
    (a - b).toNat = (a.toNat + (2 ^ n - 1 - b.toNat) + 1) % 2 ^ n := by
  have hb := b.isLt
  rw [BitVec.toNat_sub]
  congr 1
  omega

/-- Settles O28: the sum and the difference written to `rd`, in the unsigned and in the signed view. -/
theorem addAndSubWrap : Obligations.AddAndSubWrap := by
  intro s rd ra rb
  refine ⟨⟨rfl, _, computes_add s rd ra rb, frame_setReg s rd _, ?sum, ?signed_sum⟩,
    ⟨rfl, _, computes_sub s rd ra rb, frame_setReg s rd _, ?difference, ?complement_form⟩⟩
  case sum => exact (s.uReg_setReg_self rd _).trans (BitVec.toNat_add ..)
  case signed_sum => rw [State.uReg_setReg_self]; exact toNat_add_eq_toInt_emod ..
  case difference => rw [State.uReg_setReg_self]; exact toNat_sub_eq_emod ..
  case complement_form => exact (s.uReg_setReg_self rd _).trans (toNat_sub_eq_add_not_add_one ..)

/-! ### The laws of R97 -/

section
variable {mk mk' : Reg → Reg → Reg → Instr} {op op' : ∀ n, BitVec n → BitVec n → BitVec n}

/-- Two commands in a row with the same destination: the second one reads its sources from the block the first
one leaves. -/
theorem Computes.uReg_twice (hmk : Computes mk op) (hmk' : Computes mk' op') {s t u : State}
    {rd ra rb ra' rb' : Reg} (hfirst : exec (mk rd ra rb) s = .next t)
    (hsecond : exec (mk' rd ra' rb') t = .next u) :
    let b := s.block.setReg rd (op _ (s.block.reg ra) (s.block.reg rb))
    u.uReg rd = (op' _ (b.reg ra') (b.reg rb')).toNat := by
  cases (hmk ..).symm.trans hfirst
  cases (hmk' ..).symm.trans hsecond
  exact State.uReg_setReg_self ..

/-- A second command that undoes the first one's operation gives its first operand back, unless `rd`
overwrote the second. -/
theorem Computes.undo (hmk : Computes mk op) (hmk' : Computes mk' op')
    (hundo : ∀ {n : Nat} (a b : BitVec n), op' n (op n a b) b = a) {s t u : State} {rd ra rb : Reg}
    (hne : rd ≠ rb) (hfirst : exec (mk rd ra rb) s = .next t) (hsecond : exec (mk' rd rd rb) t = .next u) :
    u.uReg rd = s.uReg ra := by
  rw [hmk.uReg_twice hmk' hfirst hsecond, Block.reg_setReg_self, Block.reg_setReg, if_neg hne.symm, hundo]
  rfl

theorem Computes.comm (hmk : Computes mk op)
    (hcomm : ∀ {n : Nat} (a b : BitVec n), op n a b = op n b a) (s : State) (rd ra rb : Reg) :
    exec (mk rd ra rb) s = exec (mk rd rb ra) s := by
  rw [hmk, hmk, hcomm]

/-- The two ways to join three registers agree when `rd` overwrites neither operand of a second command. -/
theorem Computes.assoc (hmk : Computes mk op)
    (hassoc : ∀ {n : Nat} (a b c : BitVec n), op n (op n a b) c = op n a (op n b c)) {s t u t' u' : State}
    {rd ra rb rc : Reg} (hra : rd ≠ ra) (hrc : rd ≠ rc)
    (hab : exec (mk rd ra rb) s = .next t) (habc : exec (mk rd rd rc) t = .next u)
    (hbc : exec (mk rd rb rc) s = .next t') (habc' : exec (mk rd ra rd) t' = .next u') :
    u.uReg rd = u'.uReg rd := by
  rw [hmk.uReg_twice hmk hab habc, hmk.uReg_twice hmk hbc habc']
  simp only [Block.reg_setReg_self, Block.reg_setReg, if_neg hra.symm, if_neg hrc.symm, hassoc]
end

/-- Settles O31: the laws of the ring of bit vectors, carried to the commands. -/
theorem addAndSubUndoEachOther : Obligations.AddAndSubUndoEachOther :=
  ⟨fun _ _ _ _ _ _ hne => ⟨computes_add.undo computes_sub BitVec.add_sub_cancel hne,
      computes_sub.undo computes_add BitVec.sub_add_cancel hne⟩,
    fun s rd ra rb => ⟨computes_add.comm BitVec.add_comm s rd ra rb,
      computes_mulu.comm BitVec.mul_comm s rd ra rb⟩,
    fun _ _ _ _ _ _ _ _ _ hra hrc => ⟨computes_add.assoc BitVec.add_assoc hra hrc,
      computes_mulu.assoc BitVec.mul_assoc hra hrc⟩⟩

/-! ### NEG (R94) -/

theorem toNat_neg_eq_not_add_one (a : BitVec n) : (-a).toNat = (2 ^ n - 1 - a.toNat + 1) % 2 ^ n := by
  have ha := a.isLt
  rw [BitVec.toNat_neg]
  congr 1
  omega

/-- At the other values than 0, `-a` and `a` have the sum 2^N, so they are equal at its half only. -/
theorem toNat_neg_eq_self_iff (hn : 0 < n) (a : BitVec n) :
    (-a).toNat = a.toNat ↔ a.toNat = 0 ∨ a.toNat = 2 ^ (n - 1) := by
  have ha := a.isLt
  have hhalf : 2 ^ n = 2 * 2 ^ (n - 1) := by rw [← pow_succ', Nat.sub_add_cancel hn]
  rw [BitVec.toNat_neg]
  by_cases hzero : a.toNat = 0
  · simp [hzero]
  · rw [Nat.mod_eq_of_lt (by omega)]
    omega

theorem toInt_neg_of_ne_half {a : BitVec n} (hn : 0 < n) (ha : a.toNat ≠ 2 ^ (n - 1)) :
    (-a).toInt = -a.toInt := by
  refine BitVec.toInt_neg_of_ne_intMin fun h => ha ?_
  rw [h, BitVec.toNat_intMin, Nat.mod_eq_of_lt (Nat.pow_lt_pow_right (by decide) (by omega))]

/-- Settles O30: the value written to `rd` is the negation of bit vectors. -/
theorem negNegates : Obligations.NegNegates := by
  intro s rd ra
  have hpos := width_bits_pos s.width
  refine ⟨rfl, _, exec_neg rd ra s, frame_setReg s rd _, ?value, ?fixed_points, fun hne => ?signed⟩
  case value => exact (s.uReg_setReg_self rd _).trans (toNat_neg_eq_not_add_one _)
  case fixed_points =>
    rw [State.uReg_setReg_self]
    exact toNat_neg_eq_self_iff hpos _
  case signed =>
    rw [State.sReg_withBlock, Block.reg_setReg_self]
    exact toInt_neg_of_ne_half hpos hne

/-! ### The word-level forms (R92, R93, R95) -/

/-- The number that the words of `a` from word `i` on stand for. -/
def numberFrom (a : BitVec n) (i : Nat) : Nat := a.toNat / 2 ^ (32 * i)

theorem numberFrom_zero (a : BitVec n) : numberFrom a 0 = a.toNat := Nat.div_one _

theorem numberFrom_eq_wordOf_add (a : BitVec n) (i : Nat) :
    numberFrom a i = (wordOf a i).toNat + 2 ^ 32 * numberFrom a (i + 1) := by
  rw [toNat_wordOf, numberFrom, numberFrom, Nat.mul_succ, pow_add, ← Nat.div_div_eq_div_mul,
    Nat.mod_add_div]

/-- One more word at the low end: it is the low 32 bits of the number, and the other words are those of the
rest `z`. -/
theorem ofWords_cons_modEq {d : Word} {ds : List Word} {y z : Int} {count : Nat}
    (hy : y = d.toNat + 2 ^ 32 * z) (h : (ofWords ds : Int) ≡ z [ZMOD 2 ^ (32 * count)]) :
    (ofWords (d :: ds) : Int) ≡ y [ZMOD 2 ^ (32 * (count + 1))] := by
  rw [hy, ofWords, Nat.mul_succ, Nat.add_comm (32 * count), pow_add]
  push_cast
  exact (h.mul_left' (c := 2 ^ 32)).add_left _

/-- W words that are congruent to a number modulo 2^N make the value of that number. -/
theorem fromWords_eq_trunc {w : Width} {ds : List Word} {z : Int}
    (h : (ofWords ds : Int) ≡ z [ZMOD 2 ^ (32 * w.words)]) : fromWords w.bits ds = trunc w.bits z := by
  apply BitVec.eq_of_toNat_eq
  rw [fromWords, ← trunc_natCast, ← Int.natCast_inj, toNat_trunc, toNat_trunc]
  exact h

theorem toNat_decide (p : Prop) [Decidable p] : (decide p).toNat = if p then 1 else 0 :=
  Bool.cond_decide ..

/-- The test of R95 for a carry out of a word: a sum below its first operand, or not above it if a carry came
in. -/
theorem word_add_carry (x y : Word) (c : Bool) :
    let s := x + y + BitVec.ofNat 32 c.toNat
    x.toNat + y.toNat + c.toNat =
      s.toNat + 2 ^ 32 * (if c then decide (s ≤ x) else decide (s < x)).toNat := by
  cases c with
  | false => simp only [Bool.toNat_false, Bool.false_eq_true, if_false, toNat_decide]; split <;> bv_omega
  | true => simp only [Bool.toNat_true, if_true, toNat_decide]; split <;> bv_omega

/-- The test of R95 for a borrow out of a word. -/
theorem word_sub_borrow (x y : Word) (c : Bool) :
    let d := x - y - BitVec.ofNat 32 c.toNat
    x.toNat + 2 ^ 32 * (if c then decide (d ≥ x) else decide (d > x)).toNat =
      d.toNat + y.toNat + c.toNat := by
  cases c with
  | false => simp only [Bool.toNat_false, Bool.false_eq_true, if_false, toNat_decide]; split <;> bv_omega
  | true => simp only [Bool.toNat_true, if_true, toNat_decide]; split <;> bv_omega

/-- The words of the ripple adder from word `i` on, with the carry into it. -/
theorem ofWords_rippleAddWords (a b : BitVec n) (count i : Nat) (c : Bool) :
    (ofWords (rippleAddWords a b count i c) : Int) ≡
      numberFrom a i + numberFrom b i + c.toNat [ZMOD 2 ^ (32 * count)] := by
  induction count generalizing i c with
  | zero => exact Int.modEq_one
  | succ count ih =>
    have hcarry := word_add_carry (wordOf a i) (wordOf b i) c
    refine ofWords_cons_modEq ?_ (ih (i + 1) _)
    rw [numberFrom_eq_wordOf_add a i, numberFrom_eq_wordOf_add b i]
    push_cast
    linarith

theorem ofWords_rippleSubWords (a b : BitVec n) (count i : Nat) (c : Bool) :
    (ofWords (rippleSubWords a b count i c) : Int) ≡
      numberFrom a i - numberFrom b i - c.toNat [ZMOD 2 ^ (32 * count)] := by
  induction count generalizing i c with
  | zero => exact Int.modEq_one
  | succ count ih =>
    have hborrow := word_sub_borrow (wordOf a i) (wordOf b i) c
    refine ofWords_cons_modEq ?_ (ih (i + 1) _)
    rw [numberFrom_eq_wordOf_add a i, numberFrom_eq_wordOf_add b i]
    push_cast
    linarith

theorem fromWords_rippleAddWords {w : Width} (a b : BitVec w.bits) (c : Bool) :
    fromWords w.bits (rippleAddWords a b (w.bits / 32) 0 c) = trunc w.bits (a.toNat + b.toNat + c.toNat) := by
  rw [width_bits_div_word, fromWords_eq_trunc (ofWords_rippleAddWords ..), numberFrom_zero, numberFrom_zero]

theorem fromWords_rippleSubWords {w : Width} (a b : BitVec w.bits) (c : Bool) :
    fromWords w.bits (rippleSubWords a b (w.bits / 32) 0 c) = trunc w.bits (a.toNat - b.toNat - c.toNat) := by
  rw [width_bits_div_word, fromWords_eq_trunc (ofWords_rippleSubWords ..), numberFrom_zero, numberFrom_zero]

theorem rippleAdd_eq_add {w : Width} (a b : BitVec w.bits) : rippleAdd a b = a + b := by
  rw [rippleAdd, fromWords_rippleAddWords, ← trunc_add]
  simp

theorem rippleSub_eq_sub {w : Width} (a b : BitVec w.bits) : rippleSub a b = a - b := by
  rw [rippleSub, fromWords_rippleSubWords, ← trunc_sub]
  simp

/-- Settles O32: by induction on the words still to come, with the carry or borrow into the first of them. -/
theorem wordArithmeticAgrees : Obligations.WordArithmeticAgrees := fun _ a b =>
  ⟨rippleAdd_eq_add a b, rippleSub_eq_sub a b⟩

theorem wordOf_zero_value (i : Nat) : wordOf 0#n i = 0#32 := BitVec.extractLsb'_zero

/-- INC goes on to the next word exactly when the ripple adder carries out of the word (R92). -/
theorem incWords_eq_rippleAddWords (a : BitVec n) (count i : Nat) (go : Bool) :
    incWords a count i go = rippleAddWords a 0 count i go := by
  induction count generalizing i go with
  | zero => rfl
  | succ count ih =>
    have hwrap (x : Word) : decide (x + 1#32 ≤ x) = (x + 1#32 == 0#32) := decide_eq_decide.mpr (by bv_omega)
    cases go <;> simp [incWords, rippleAddWords, wordOf_zero_value, ih, hwrap]

theorem decWords_eq_rippleSubWords (a : BitVec n) (count i : Nat) (go : Bool) :
    decWords a count i go = rippleSubWords a 0 count i go := by
  induction count generalizing i go with
  | zero => rfl
  | succ count ih =>
    have hwrap (x : Word) : decide (x ≤ x - 1#32) = (x - 1#32 == 0xFFFFFFFF#32) :=
      decide_eq_decide.mpr (by bv_omega)
    cases go <;> simp [decWords, rippleSubWords, wordOf_zero_value, ih, hwrap]

theorem wordInc_eq_add_one {w : Width} (a : BitVec w.bits) : wordInc a = a + 1 := by
  rw [wordInc, incWords_eq_rippleAddWords, fromWords_rippleAddWords, ← trunc_add_one]
  simp

theorem wordDec_eq_sub_one {w : Width} (a : BitVec w.bits) : wordDec a = a - 1 := by
  rw [wordDec, decWords_eq_rippleSubWords, fromWords_rippleSubWords, ← trunc_sub_one]
  simp

/-! ### INC and DEC (R92, R93) -/

theorem toNat_add_one_wrap (a : BitVec n) :
    (a + 1).toNat = if a.toNat = 2 ^ n - 1 then 0 else a.toNat + 1 := by
  have ha := a.isLt
  rw [← trunc_add_one, ← Nat.cast_succ, toNat_trunc_natCast]
  split
  case isTrue hmax => rw [hmax, Nat.succ_eq_add_one, Nat.sub_add_cancel (by omega), Nat.mod_self]
  case isFalse hmax => exact Nat.mod_eq_of_lt (by omega)

theorem toNat_sub_one_wrap (hn : 0 < n) (a : BitVec n) :
    (a - 1).toNat = if a.toNat = 0 then 2 ^ n - 1 else a.toNat - 1 := by
  have ha := a.isLt
  have hone : (1 : BitVec n).toNat = 1 := BitVec.toNat_one hn
  split
  case isTrue hzero =>
    rw [BitVec.toNat_sub, hone, hzero]
    exact Nat.mod_eq_of_lt (by omega)
  case isFalse hzero =>
    rw [BitVec.toNat_sub_of_le (BitVec.le_def.mpr (by omega)), hone]

/-- Settles O29: the word-level forms are the ripple adder and subtractor of 0 with a carry or borrow in. -/
theorem incAndDecWrap : Obligations.IncAndDecWrap := by
  intro s rd ra
  refine ⟨⟨rfl, _, exec_inc rd ra s, frame_setReg s rd _, ?inc_value, ?inc_words⟩,
    ⟨rfl, _, exec_dec rd ra s, frame_setReg s rd _, ?dec_value, ?dec_words⟩⟩
  case inc_value => exact (s.uReg_setReg_self rd _).trans (toNat_add_one_wrap _)
  case inc_words => rw [State.uReg_setReg_self, wordInc_eq_add_one]
  case dec_value => exact (s.uReg_setReg_self rd _).trans (toNat_sub_one_wrap (width_bits_pos _) _)
  case dec_words => rw [State.uReg_setReg_self, wordDec_eq_sub_one]

end Sys2Proof.Machine

/-! ## Multiply (spec/43_multiply.md R100 to R104)

Both commands compute the product of bit vectors: for MULS the negations before and after the unsigned product
cancel. -/

namespace Sys2Proof.Machine

variable {n : Nat}

/-! ### MULS as the product of bit vectors (R101) -/

theorem magnitude_of_neg {a : BitVec n} (h : signBit a = true) : magnitude a = -a := by
  rw [magnitude, if_pos h, negate_eq_neg]

theorem magnitude_of_nonneg {a : BitVec n} (h : signBit a = false) : magnitude a = a := by
  rw [magnitude, h]; rfl

/-- A product of magnitudes is negated back exactly when one of the two operands was negated (R101). -/
theorem mulS_eq_mul (a b : BitVec n) : mulS a b = a * b := by
  rw [mulS, mulU_eq_mul, negate_eq_neg]
  cases ha : signBit a <;> cases hb : signBit b
  case false.false => rw [magnitude_of_nonneg ha, magnitude_of_nonneg hb]; rfl
  case false.true =>
    rw [magnitude_of_nonneg ha, magnitude_of_neg hb, BitVec.mul_neg, BitVec.neg_neg]; rfl
  case true.false =>
    rw [magnitude_of_neg ha, magnitude_of_nonneg hb, BitVec.neg_mul, BitVec.neg_neg]; rfl
  case true.true => rw [magnitude_of_neg ha, magnitude_of_neg hb, BitVec.neg_mul_neg]; rfl

theorem computes_muls : Computes .muls fun _ => (· * ·) := fun s rd ra rb =>
  congrArg (fun v => done s (s.block.setReg rd v)) (mulS_eq_mul (s.block.reg ra) (s.block.reg rb))

/-- Settles O34: both commands compute the product of bit vectors, which has the laws. -/
theorem multiplicationLaws : Obligations.MultiplicationLaws := by
  refine ⟨fun w a b c => ?_,
    fun s rd ra rb => (computes_muls s rd ra rb).trans (computes_mulu s rd ra rb).symm⟩
  simp only [mulU_eq_mul, mulS_eq_mul]
  have hcomm := BitVec.mul_comm a b
  have hassoc := BitVec.mul_assoc a b c
  have hdistrib : a * (b + c) = a * b + a * c := BitVec.mul_add
  exact ⟨hcomm, hassoc, hdistrib, hcomm, hassoc, hdistrib⟩

/-! ### The values of the products (R100, R101) -/

/-- The pattern of R101 in numbers: the product of the magnitudes, negated when the signs differ. -/
theorem toNat_mulS (a b : BitVec n) :
    (mulS a b).toNat =
      let p := a.toInt.natAbs * b.toInt.natAbs % 2 ^ n
      if signBit a = signBit b then p else (2 ^ n - p) % 2 ^ n := by
  have hp : (mulU (magnitude a) (magnitude b)).toNat = a.toInt.natAbs * b.toInt.natAbs % 2 ^ n := by
    rw [mulU_eq_mul, BitVec.toNat_mul, toNat_magnitude, toNat_magnitude]
  rw [mulS, negate_eq_neg, apply_ite BitVec.toNat, BitVec.toNat_neg, hp]
  by_cases hsigns : signBit a = signBit b <;> simp [hsigns]

theorem toNat_mul_eq_toInt_emod (a b : BitVec n) : ((a * b).toNat : Int) = a.toInt * b.toInt % 2 ^ n := by
  have hproduct : trunc n (a.toInt * b.toInt) = a * b := by
    rw [trunc, BitVec.ofInt_mul, BitVec.ofInt_toInt, BitVec.ofInt_toInt]
  rw [← hproduct, toNat_trunc]

/-- The signed reading of the product is the true product exactly when that is a signed N-bit number. -/
theorem toInt_mul_eq_iff (hn : 0 < n) (a b : BitVec n) :
    (a * b).toInt = a.toInt * b.toInt ↔
      -(2 ^ (n - 1)) ≤ a.toInt * b.toInt ∧ a.toInt * b.toInt ≤ 2 ^ (n - 1) - 1 := by
  constructor
  case mp =>
    intro h
    rw [← h]
    exact ⟨BitVec.le_toInt _, Int.le_sub_one_of_lt BitVec.toInt_lt⟩
  case mpr =>
    rintro ⟨hlo, hhi⟩
    have hhalf : ((2 ^ n : Nat) : Int) = 2 * 2 ^ (n - 1) := by
      rw [← pow_succ', Nat.sub_add_cancel hn, Nat.cast_pow, Nat.cast_ofNat]
    rw [BitVec.toInt_mul]
    exact Int.bmod_eq_of_le_mul_two (by omega) (by omega)

/-- Settles O33: MULU in the unsigned view; MULS by its pattern, and in the signed view by its product. -/
theorem multiplyGivesTheLowBits : Obligations.MultiplyGivesTheLowBits := by
  intro s rd ra rb
  refine ⟨⟨rfl, _, computes_mulu s rd ra rb, frame_setReg s rd _, ?product⟩,
    ⟨rfl, _, rfl, frame_setReg s rd _, ?pattern, ?congruent, ?fits⟩⟩
  case product => exact (s.uReg_setReg_self rd _).trans (BitVec.toNat_mul ..)
  case pattern => exact (s.uReg_setReg_self rd _).trans (toNat_mulS ..)
  case congruent =>
    rw [State.uReg_setReg_self, mulS_eq_mul]
    exact toNat_mul_eq_toInt_emod ..
  case fits =>
    rw [State.sReg_withBlock, Block.reg_setReg_self, mulS_eq_mul]
    exact toInt_mul_eq_iff (width_bits_pos s.width) ..

/-! ### Shift and add (R102) -/

/-- One multiplier bit adds the multiplicand shifted to its position, or nothing. -/
theorem shiftAddLoop_succ (a b : BitVec n) (k : Nat) :
    shiftAddLoop a b (k + 1) = shiftAddLoop a b k + a * (b &&& BitVec.twoPow n k) := by
  rw [shiftAddLoop, BitVec.and_twoPow]
  split
  case isTrue hbit =>
    rw [Nat.cast_add, trunc_add, shiftLeft_eq_shl, BitVec.mul_twoPow_eq_shiftLeft]
  case isFalse hbit => rw [BitVec.mul_zero, BitVec.add_zero]

/-- After k multiplier bits the accumulator is the product with the low k bits of the multiplier. -/
theorem shiftAddLoop_eq_mul_low_bits (a b : BitVec n) (k : Nat) :
    shiftAddLoop a b k = a * (b.setWidth k).setWidth n := by
  induction k with
  | zero => simp [shiftAddLoop, BitVec.eq_nil (b.setWidth 0)]
  | succ k ih =>
    rw [shiftAddLoop_succ, ih, ← BitVec.mul_add,
      BitVec.setWidth_setWidth_succ_eq_setWidth_setWidth_add_twoPow]

/-- Settles O35: the low N bits of the multiplier are the whole of it. -/
theorem shiftAndAddAgrees : Obligations.ShiftAndAddAgrees := fun w a b => by
  rw [shiftAddMul, shiftAddLoop_eq_mul_low_bits, BitVec.setWidth_eq, BitVec.setWidth_eq, mulU_eq_mul]

end Sys2Proof.Machine

/-! ## Divide and remainder (spec/44_divide.md R110 to R122)

The pairs of quotient and remainder are the unsigned and the signed division of bit vectors. Each command writes
the parts of a pair, unless its divisor is zero. -/

namespace Sys2Proof.Machine

variable {n : Nat}

/-! ### The pair of quotient and remainder (R110, R121) -/

theorem udivrem_eq_udiv_umod (a b : BitVec n) : udivrem a b = (a / b, a % b) := by
  rw [udivrem, trunc_natCast, trunc_natCast, BitVec.udiv_def, BitVec.umod_def]

theorem toNat_udivrem_fst (a b : BitVec n) : (udivrem a b).1.toNat = a.toNat / b.toNat := by
  rw [udivrem_eq_udiv_umod, BitVec.toNat_udiv]

theorem toNat_udivrem_snd (a b : BitVec n) : (udivrem a b).2.toNat = a.toNat % b.toNat := by
  rw [udivrem_eq_udiv_umod, BitVec.toNat_umod]

/-- The negations before and after the unsigned division of the magnitudes are those by which bit vectors are
divided in the signed view. -/
theorem sdivrem_eq_sdiv_srem (a b : BitVec n) : sdivrem a b = (a.sdiv b, a.srem b) := by
  simp only [sdivrem, udivrem_eq_udiv_umod, negate_eq_neg]
  rw [BitVec.sdiv_eq, BitVec.srem_eq, ← signBit_eq_msb, ← signBit_eq_msb]
  cases ha : signBit a <;> cases hb : signBit b
  case false.false => rw [magnitude_of_nonneg ha, magnitude_of_nonneg hb]; rfl
  case false.true => rw [magnitude_of_nonneg ha, magnitude_of_neg hb]; rfl
  case true.false => rw [magnitude_of_neg ha, magnitude_of_nonneg hb]; rfl
  case true.true => rw [magnitude_of_neg ha, magnitude_of_neg hb]; rfl

/-- The quotient of the magnitudes, negated when the signs differ. -/
theorem toNat_sdivrem_fst (a b : BitVec n) :
    (sdivrem a b).1.toNat =
      let uq := a.toInt.natAbs / b.toInt.natAbs
      if signBit a = signBit b then uq else (2 ^ n - uq) % 2 ^ n := by
  have huq : (udivrem (magnitude a) (magnitude b)).1.toNat = a.toInt.natAbs / b.toInt.natAbs := by
    rw [toNat_udivrem_fst, toNat_magnitude, toNat_magnitude]
  simp only [sdivrem, negate_eq_neg, apply_ite BitVec.toNat, BitVec.toNat_neg, huq]
  by_cases hsigns : signBit a = signBit b <;> simp [hsigns]

/-- The remainder of the magnitudes, negated when the dividend is negative. -/
theorem toNat_sdivrem_snd (a b : BitVec n) :
    (sdivrem a b).2.toNat =
      let ur := a.toInt.natAbs % b.toInt.natAbs
      if signBit a then (2 ^ n - ur) % 2 ^ n else ur := by
  have hur : (udivrem (magnitude a) (magnitude b)).2.toNat = a.toInt.natAbs % b.toInt.natAbs := by
    rw [toNat_udivrem_snd, toNat_magnitude, toNat_magnitude]
  simp only [sdivrem, negate_eq_neg, apply_ite BitVec.toNat, BitVec.toNat_neg, hur]

/-- Rounding toward zero, except for the one quotient that does not fit. -/
theorem toInt_sdivrem_fst (hn : 0 < n) {a b : BitVec n} (hfits : ¬(a.toInt = -(2 ^ (n - 1)) ∧ b.toInt = -1)) :
    (sdivrem a b).1.toInt = a.toInt.tdiv b.toInt := by
  rw [sdivrem_eq_sdiv_srem]
  refine BitVec.toInt_sdiv_of_ne_or_ne a b (not_and_or.mp ?_)
  rintro ⟨rfl, rfl⟩
  refine hfits ⟨BitVec.toInt_intMin_of_pos hn, ?_⟩
  rw [BitVec.neg_one_eq_allOnes, BitVec.toInt_allOnes, if_pos hn]

theorem toInt_sdivrem_snd (a b : BitVec n) : (sdivrem a b).2.toInt = a.toInt.tmod b.toInt := by
  rw [sdivrem_eq_sdiv_srem, BitVec.toInt_srem]

/-! ### The commands (R111 to R117, R122) -/

/-- Two destinations have to differ (R116). -/
@[simp] theorem wellFormed_divremu {rd re ra rb : Reg} :
    (Instr.divremu rd re ra rb).wellFormed = true ↔ rd ≠ re := by
  simp [Instr.wellFormed, Instr.equalDestinations, Instr.zeroByteCount]
@[simp] theorem wellFormed_divrems {rd re ra rb : Reg} :
    (Instr.divrems rd re ra rb).wellFormed = true ↔ rd ≠ re := by
  simp [Instr.wellFormed, Instr.equalDestinations, Instr.zeroByteCount]

/-- The test for a zero divisor comes before everything but the legality of the command (R122). -/
theorem exec_of_zero_divisor {i : Instr} {s : State} {rb : Reg} (hwf : i.wellFormed = true)
    (hrb : divisor i = some rb) (hzero : s.uReg rb = 0) :
    exec i s = .next (s.withBlock (s.block.raise .divisionByZero (encode i))) := by
  cases i with
  | divu | remu | divs | rems =>
    cases hrb
    exact unlessZero_of_eq _ _ hzero
  | divremu rd re | divrems rd re =>
    cases hrb
    have hne : rd ≠ re := by simpa using hwf
    exact (if_neg hne).trans (unlessZero_of_eq _ _ hzero)
  | _ => cases hrb

theorem raised_of_zero_divisor {i : Instr} {s : State} {rb : Reg} (hwf : i.wellFormed = true)
    (hrb : divisor i = some rb) (hzero : s.uReg rb = 0) :
    ∃ t, exec i s = .next t ∧ Raised .divisionByZero (encode i) s t :=
  ⟨_, exec_of_zero_divisor hwf hrb hzero, raised_raise s _ _⟩

/-- Settles O38: the six commands share the test of the divisor, and code 1 is that of DivisionByZero. -/
theorem divisionByZeroFaults : Obligations.DivisionByZeroFaults := by
  intro s rd re ra rb hzero
  have hraise : ∀ i, i.wellFormed = true → divisor i = some rb →
      ∃ t, exec i s = .next t ∧ t.block.fcode.number = 1 ∧ Raised .divisionByZero (encode i) s t := by
    intro i hwf hrb
    obtain ⟨t, hexec, hraised⟩ := raised_of_zero_divisor hwf hrb hzero
    exact ⟨t, hexec, by rw [hraised.fcode]; rfl, hraised⟩
  constructor
  · intro i hi
    fin_cases hi <;> exact hraise _ rfl rfl
  · intro hne i hi
    fin_cases hi
    · exact hraise _ (wellFormed_divremu.mpr hne) rfl
    · exact hraise _ (wellFormed_divrems.mpr hne) rfl

section
variable {s : State} {rb : Reg} (hrb : s.uReg rb ≠ 0) {rd re : Reg} (hne : rd ≠ re) (ra : Reg)
include hrb

theorem exec_divu : exec (.divu rd ra rb) s =
    .next (s.withBlock (s.block.setReg rd (udivrem (s.block.reg ra) (s.block.reg rb)).1)) :=
  unlessZero_of_ne _ _ hrb
theorem exec_remu : exec (.remu rd ra rb) s =
    .next (s.withBlock (s.block.setReg rd (udivrem (s.block.reg ra) (s.block.reg rb)).2)) :=
  unlessZero_of_ne _ _ hrb
theorem exec_divs : exec (.divs rd ra rb) s =
    .next (s.withBlock (s.block.setReg rd (sdivrem (s.block.reg ra) (s.block.reg rb)).1)) :=
  unlessZero_of_ne _ _ hrb
theorem exec_rems : exec (.rems rd ra rb) s =
    .next (s.withBlock (s.block.setReg rd (sdivrem (s.block.reg ra) (s.block.reg rb)).2)) :=
  unlessZero_of_ne _ _ hrb

include hne

theorem exec_divremu : exec (.divremu rd re ra rb) s =
    .next (s.withBlock ((s.block.setReg rd (udivrem (s.block.reg ra) (s.block.reg rb)).1).setReg re
      (udivrem (s.block.reg ra) (s.block.reg rb)).2)) :=
  (if_neg hne).trans (unlessZero_of_ne _ _ hrb)
theorem exec_divrems : exec (.divrems rd re ra rb) s =
    .next (s.withBlock ((s.block.setReg rd (sdivrem (s.block.reg ra) (s.block.reg rb)).1).setReg re
      (sdivrem (s.block.reg ra) (s.block.reg rb)).2)) :=
  (if_neg hne).trans (unlessZero_of_ne _ _ hrb)
end

/-- The first of two writes stands when the second goes to another register. -/
theorem Block.reg_setReg_setReg_fst (b : Block n) {d e : Reg} (hne : d ≠ e) (v u : BitVec n) :
    ((b.setReg d v).setReg e u).reg d = v := by
  rw [Block.reg_setReg, if_neg hne, Block.reg_setReg_self]

/-- Settles O36: the parts of the unsigned pair are the floor quotient and the remainder. -/
theorem unsignedDivision : Obligations.UnsignedDivision := by
  intro s rd re ra rb
  refine ⟨
    ⟨rfl, raised_of_zero_divisor rfl rfl, fun hrb => ⟨_, exec_divu hrb ra, frame_setReg .., ?divu⟩⟩,
    ⟨rfl, raised_of_zero_divisor rfl rfl, fun hrb => ⟨_, exec_remu hrb ra, frame_setReg .., ?remu⟩⟩,
    ⟨rfl, fun hne => ⟨raised_of_zero_divisor (wellFormed_divremu.mpr hne) rfl,
      fun hrb => ⟨_, exec_divremu hrb hne ra, frame_setReg_setReg .., ?divremu_q, ?divremu_r⟩⟩⟩⟩
  case divu => exact (s.uReg_setReg_self rd _).trans (toNat_udivrem_fst ..)
  case remu => exact (s.uReg_setReg_self rd _).trans (toNat_udivrem_snd ..)
  case divremu_q =>
    rw [State.uReg_withBlock, Block.reg_setReg_setReg_fst _ hne]
    exact toNat_udivrem_fst ..
  case divremu_r =>
    rw [State.uReg_withBlock, Block.reg_setReg_self]
    exact toNat_udivrem_snd ..

/-- Settles O37: the parts of the signed pair, by the magnitudes and by the signed values. -/
theorem signedDivision : Obligations.SignedDivision := by
  intro s rd re ra rb N negative fits uq ur quotient remainder
  have hquotient : ∀ (c : Block N) (r : Reg), c.reg r = (sdivrem (s.block.reg ra) (s.block.reg rb)).1 →
      quotient (s.withBlock c) r := fun c r h =>
    ⟨(congrArg BitVec.toNat h).trans (toNat_sdivrem_fst ..), fun hfits =>
      (congrArg BitVec.toInt h).trans (toInt_sdivrem_fst (width_bits_pos s.width) hfits)⟩
  have hremainder : ∀ (c : Block N) (r : Reg), c.reg r = (sdivrem (s.block.reg ra) (s.block.reg rb)).2 →
      remainder (s.withBlock c) r := fun c r h =>
    ⟨(congrArg BitVec.toNat h).trans (toNat_sdivrem_snd ..), fun _ =>
      (congrArg BitVec.toInt h).trans (toInt_sdivrem_snd ..)⟩
  refine ⟨
    ⟨rfl, raised_of_zero_divisor rfl rfl, fun hrb => ⟨_, exec_divs hrb ra, frame_setReg .., ?divs⟩⟩,
    ⟨rfl, raised_of_zero_divisor rfl rfl, fun hrb => ⟨_, exec_rems hrb ra, frame_setReg .., ?rems⟩⟩,
    ⟨rfl, fun hne => ⟨raised_of_zero_divisor (wellFormed_divrems.mpr hne) rfl,
      fun hrb => ⟨_, exec_divrems hrb hne ra, frame_setReg_setReg .., ?divrems_q, ?divrems_r⟩⟩⟩⟩
  case divs => exact hquotient _ rd (Block.reg_setReg_self ..)
  case rems => exact hremainder _ rd (Block.reg_setReg_self ..)
  case divrems_q => exact hquotient _ rd (Block.reg_setReg_setReg_fst _ hne ..)
  case divrems_r => exact hremainder _ re (Block.reg_setReg_self ..)

/-! ### The division identity (R120, R121) -/

theorem udiv_mul_add_umod (a b : BitVec n) : a / b * b + a % b = a := by
  apply BitVec.eq_of_toNat_eq
  rw [BitVec.toNat_add, BitVec.toNat_mul, BitVec.toNat_udiv, BitVec.toNat_umod, Nat.mod_add_mod,
    Nat.div_add_mod', Nat.mod_eq_of_lt a.isLt]

/-- The unsigned identity of the magnitudes, with the signs put back. -/
theorem sdiv_mul_add_srem (a b : BitVec n) : a.sdiv b * b + a.srem b = a := by
  have hneg (x y : BitVec n) (h : x + y = -a) : -x + -y = a := by
    rw [← BitVec.sub_eq_add_neg, ← BitVec.neg_add, h, BitVec.neg_neg]
  rw [BitVec.sdiv_eq, BitVec.srem_eq]
  cases a.msb <;> cases b.msb <;> simp only
  case false.false => exact udiv_mul_add_umod a b
  case false.true => rw [BitVec.neg_mul, ← BitVec.mul_neg]; exact udiv_mul_add_umod a (-b)
  case true.false => rw [BitVec.neg_mul]; exact hneg _ _ (udiv_mul_add_umod (-a) b)
  case true.true =>
    rw [← BitVec.neg_neg (x := b), BitVec.mul_neg, BitVec.neg_neg]
    exact hneg _ _ (udiv_mul_add_umod (-a) (-b))

theorem minValue_eq_intMin (n : Nat) : minValue n = BitVec.intMin n := by
  apply BitVec.eq_of_toNat_eq
  rw [minValue, toNat_trunc_natCast, BitVec.toNat_intMin]

theorem srem_ones (hn : 0 < n) (a : BitVec n) : a.srem (ones n) = 0 := by
  rw [ones_eq_allOnes, ← BitVec.toInt_inj, BitVec.toInt_srem, BitVec.toInt_allOnes, if_pos hn, Int.tmod_neg,
    Int.tmod_one]
  exact BitVec.toInt_zero.symm

/-- Settles O39: the identities of bit vectors, with the product of MULS; the overflow case is the one quotient
that does not fit. -/
theorem divisionIdentity : Obligations.DivisionIdentity := by
  refine ⟨fun w a b _ => ⟨?unsigned, ?signed⟩, fun w => ?overflow⟩
  case unsigned =>
    rw [toNat_udivrem_fst, toNat_udivrem_snd, Nat.div_add_mod', Nat.mod_eq_of_lt a.isLt]
  case signed => rw [mulS_eq_mul, sdivrem_eq_sdiv_srem, sdiv_mul_add_srem]
  case overflow =>
    rw [sdivrem_eq_sdiv_srem, srem_ones (width_bits_pos w), minValue_eq_intMin, ones_eq_allOnes,
      ← BitVec.neg_one_eq_allOnes, BitVec.intMin_sdiv_neg_one]

/-! ### The restoring division (R118) -/

/-- The highest set bit of a nonzero value is its logarithm (spec/00_scope.md R6). -/
theorem highestBelow_eq_log2 {a : BitVec n} (ha : a.toNat ≠ 0) : highestBelow a n = some a.toNat.log2 := by
  have hspec := highestBelow_spec a n
  have hlog : a.toNat.log2 < n := (Nat.log2_lt ha).mpr a.isLt
  have hbit : a.getLsbD a.toNat.log2 = true := Nat.testBit_log2 ha
  cases hh : highestBelow a n with
  | none =>
    rw [hh] at hspec
    exact absurd (hspec _ hlog) (by simp [hbit])
  | some i =>
    rw [hh] at hspec
    obtain ⟨-, hi, hrest⟩ := hspec
    have hle : i ≤ a.toNat.log2 := (Nat.le_log2 ha).mpr (Nat.ge_two_pow_of_testBit hi)
    congr 1
    by_contra hne
    simp [hrest _ (by omega) hlog] at hbit

/-- Subtracting the divisor shifted left by `k` takes 2^k off the quotient and leaves the remainder. -/
theorem udiv_umod_sub_shifted {r b d : BitVec n} {k : Nat} (hb : 0 < b.toNat) (hd : d.toNat = b.toNat * 2 ^ k)
    (hle : d.toNat ≤ r.toNat) :
    BitVec.twoPow n k + (r - d) / b = r / b ∧ (r - d) % b = r % b := by
  have hsub : (r - d).toNat = r.toNat - d.toNat := BitVec.toNat_sub_of_le (BitVec.le_def.mpr hle)
  have hr : r.toNat = b.toNat * 2 ^ k + (r - d).toNat := by omega
  have hk : k < n := by
    rw [← Nat.pow_lt_pow_iff_right (a := 2) (by decide)]
    calc 2 ^ k ≤ b.toNat * 2 ^ k := Nat.le_mul_of_pos_left _ hb
      _ < 2 ^ n := by have := r.isLt; omega
  constructor <;> apply BitVec.eq_of_toNat_eq
  · have hquot : r.toNat / b.toNat = 2 ^ k + (r - d).toNat / b.toNat := by rw [hr, Nat.mul_add_div hb]
    rw [BitVec.toNat_add, BitVec.toNat_twoPow_of_lt hk, BitVec.toNat_udiv, BitVec.toNat_udiv, ← hquot]
    exact Nat.mod_eq_of_lt ((Nat.div_le_self ..).trans_lt r.isLt)
  · rw [BitVec.toNat_umod, BitVec.toNat_umod, hr, Nat.mul_add_mod]

theorem udiv_umod_of_lt {a b : BitVec n} (h : a.toNat < b.toNat) : a / b = 0 ∧ a % b = a :=
  ⟨BitVec.udiv_eq_zero_iff_eq_zero_or_lt.mpr (.inr h), BitVec.umod_eq_of_lt h⟩

/-- Setting a bit that is not set adds its power of two. -/
theorem or_shiftLeft_one {q : BitVec n} {k : Nat} (h : q.getLsbD k = false) :
    q ||| shiftLeft 1 k = q + BitVec.twoPow n k := by
  rw [shiftLeft_eq_shl, BitVec.ofNat_eq_ofNat, ← BitVec.twoPow_eq, BitVec.add_eq_or_of_and_eq_zero]
  rw [BitVec.and_twoPow, h]
  rfl

/-- With `k` steps to come the shifted divisor stands at bit k−1 of the quotient, the remainder lies below what
bit k would take off it, and the low k bits of the quotient are not yet set. The loop adds the quotient of the
remainder. -/
theorem restoringLoop_eq {b : BitVec n} (hb : 0 < b.toNat) (k : Nat) {d q r : BitVec n}
    (hd : d.toNat = b.toNat * 2 ^ k / 2) (hr : r.toNat < b.toNat * 2 ^ k)
    (hq : ∀ i < k, q.getLsbD i = false) : restoringLoop k d q r = (q + r / b, r % b) := by
  induction k generalizing d q r with
  | zero =>
    obtain ⟨hquot, hrem⟩ := udiv_umod_of_lt (hr.trans_eq (Nat.mul_one _))
    rw [restoringLoop, hquot, hrem, BitVec.ofNat_eq_ofNat, BitVec.add_zero]
  | succ k ih =>
    rw [pow_succ, ← Nat.mul_assoc] at hd hr
    rw [Nat.mul_div_cancel _ two_pos] at hd
    have hhalf : (shiftRight d 1).toNat = b.toNat * 2 ^ k / 2 := by rw [toNat_shiftRight_eq_div, hd, pow_one]
    rw [restoringLoop]
    split
    case isTrue hle =>
      obtain ⟨hquot, hrem⟩ := udiv_umod_sub_shifted hb hd hle
      have hbelow : (r - d).toNat < b.toNat * 2 ^ k := by
        rw [BitVec.toNat_sub_of_le (BitVec.le_def.mpr hle)]
        omega
      have hlow : ∀ i < k, (q ||| shiftLeft 1 k).getLsbD i = false := fun i hi => by
        rw [BitVec.getLsbD_or, hq i (by omega), shiftLeft_eq_shl, BitVec.getLsbD_shiftLeft]
        simp [hi]
      rw [trunc_sub, ih hhalf hbelow hlow, or_shiftLeft_one (hq k k.lt_succ_self), BitVec.add_assoc, hquot, hrem]
    case isFalse hgt =>
      exact ih hhalf (hd ▸ Nat.lt_of_not_le hgt) fun i hi => hq i (by omega)

/-- Aligning the highest bits: the shifted divisor has the length of the dividend, and its double exceeds it. -/
theorem aligned_divisor_bounds {a b : Nat} (hb : b ≠ 0) (hle : b ≤ a) :
    b * 2 ^ (a.log2 - b.log2) < 2 ^ (a.log2 + 1) ∧ a < b * 2 ^ (a.log2 - b.log2 + 1) := by
  have hlog : b.log2 ≤ a.log2 := (Nat.le_log2 (by omega)).mpr ((Nat.log2_self_le hb).trans hle)
  constructor
  · calc b * 2 ^ (a.log2 - b.log2) < 2 ^ (b.log2 + 1) * 2 ^ (a.log2 - b.log2) :=
          Nat.mul_lt_mul_of_pos_right Nat.lt_log2_self (Nat.two_pow_pos _)
      _ = 2 ^ (a.log2 + 1) := by rw [← pow_add]; congr 1; omega
  · calc a < 2 ^ (a.log2 + 1) := Nat.lt_log2_self
      _ = 2 ^ b.log2 * 2 ^ (a.log2 - b.log2 + 1) := by rw [← pow_add]; congr 1; omega
      _ ≤ b * 2 ^ (a.log2 - b.log2 + 1) := Nat.mul_le_mul_right _ (Nat.log2_self_le hb)

theorem restoringDiv_eq_udivrem {a b : BitVec n} (hb : b.toNat ≠ 0) : restoringDiv a b = udivrem a b := by
  rw [udivrem_eq_udiv_umod, restoringDiv]
  split
  case isTrue hlt =>
    obtain ⟨hquot, hrem⟩ := udiv_umod_of_lt hlt
    rw [hquot, hrem]
  case isFalse hge =>
    have hle : b.toNat ≤ a.toNat := Nat.le_of_not_lt hge
    have ha : a.toNat ≠ 0 := by omega
    obtain ⟨hfits, hbelow⟩ := aligned_divisor_bounds hb hle
    have hn : 2 ^ (a.toNat.log2 + 1) ≤ 2 ^ n := Nat.pow_le_pow_right two_pos ((Nat.log2_lt ha).mpr a.isLt)
    have hshifted : (shiftLeft b (a.toNat.log2 - b.toNat.log2)).toNat =
        b.toNat * 2 ^ (a.toNat.log2 - b.toNat.log2 + 1) / 2 := by
      rw [toNat_shiftLeft_eq_mod, Nat.mod_eq_of_lt (hfits.trans_le hn), pow_succ, ← Nat.mul_assoc,
        Nat.mul_div_cancel _ two_pos]
    rw [highestBelow_eq_log2 ha, highestBelow_eq_log2 hb, Option.getD_some, Option.getD_some]
    refine (restoringLoop_eq (Nat.pos_of_ne_zero hb) _ hshifted hbelow fun i _ => BitVec.getLsbD_zero).trans ?_
    rw [BitVec.zero_add]

/-! ### The small-divisor path (R118) -/

/-- Long division, one digit `y` to the base `B`. -/
theorem long_division_digit {dv : Nat} (hdv : 0 < dv) (x y B : Nat) :
    x / dv * B + (x % dv * B + y) / dv = (x * B + y) / dv ∧ (x % dv * B + y) % dv = (x * B + y) % dv := by
  have hx : x * B + y = dv * (x / dv * B) + (x % dv * B + y) := by
    conv_lhs => rw [← Nat.div_add_mod x dv]
    ring
  rw [hx, Nat.mul_add_div hdv, Nat.mul_add_mod]
  exact ⟨rfl, rfl⟩

/-- The two half-word steps divide a whole word. -/
theorem smallDivLoop_succ (a : BitVec n) {dv : Nat} (hdv : 0 < dv) (i rem : Nat) :
    smallDivLoop a dv (i + 1) rem =
      let x := rem * 2 ^ 32 + (wordOf a i).toNat
      let rest := smallDivLoop a dv i (x % dv)
      (x / dv :: rest.1, rest.2) := by
  rw [smallDivLoop, uval]
  generalize (wordOf a i).toNat = y
  have hword : (rem * 2 ^ 16 + y / 2 ^ 16) * 2 ^ 16 + y % 2 ^ 16 = rem * 2 ^ 32 + y := by omega
  obtain ⟨hquot, hrem⟩ := long_division_digit hdv (rem * 2 ^ 16 + y / 2 ^ 16) (y % 2 ^ 16) (2 ^ 16)
  rw [hword] at hquot hrem
  rw [hquot, hrem]

theorem ofWords_concat (ds : List Word) (d : Word) :
    ofWords (ds ++ [d]) = ofWords ds + 2 ^ (32 * ds.length) * d.toNat := by
  induction ds with
  | nil => simp [ofWords]
  | cons e ds ih =>
    rw [List.cons_append, ofWords, ofWords, ih, List.length_cons, Nat.mul_succ, pow_add]
    ring

/-- The value of quotient words given the most significant first. -/
theorem ofWords_reverse_cons {x : Nat} (hx : x < 2 ^ 32) (qs : List Nat) :
    ofWords ((x :: qs).reverse.map (BitVec.ofNat 32)) =
      x * 2 ^ (32 * qs.length) + ofWords (qs.reverse.map (BitVec.ofNat 32)) := by
  rw [List.reverse_cons, List.map_append, List.map_singleton, ofWords_concat, BitVec.toNat_ofNat,
    Nat.mod_eq_of_lt hx, List.length_map, List.length_reverse]
  ring

/-- The loop divides the number that the remainder carried in and the `count` low words stand for. -/
theorem smallDivLoop_eq (a : BitVec n) {dv : Nat} (count : Nat) {rem : Nat} (hrem : rem < dv) :
    let y := rem * 2 ^ (32 * count) + a.toNat % 2 ^ (32 * count)
    let out := smallDivLoop a dv count rem
    out.1.length = count ∧ ofWords (out.1.reverse.map (BitVec.ofNat 32)) = y / dv ∧ out.2 = y % dv := by
  have hdv : 0 < dv := by omega
  induction count generalizing rem with
  | zero =>
    intro y out
    have hy : y = rem := by simp [y, Nat.mod_one]
    exact ⟨rfl, by rw [hy, Nat.div_eq_of_lt hrem]; rfl, by rw [hy, Nat.mod_eq_of_lt hrem]; rfl⟩
  | succ i ih =>
    have hw := (wordOf a i).isLt
    obtain ⟨hlen, hquot, hrest⟩ := ih (Nat.mod_lt (rem * 2 ^ 32 + (wordOf a i).toNat) hdv)
    have hdigit : (rem * 2 ^ 32 + (wordOf a i).toNat) / dv < 2 ^ 32 := Nat.div_lt_of_lt_mul (by omega)
    obtain ⟨hstep, hstep'⟩ := long_division_digit hdv (rem * 2 ^ 32 + (wordOf a i).toNat)
      (a.toNat % 2 ^ (32 * i)) (2 ^ (32 * i))
    have hy : rem * 2 ^ (32 * (i + 1)) + a.toNat % 2 ^ (32 * (i + 1)) =
        (rem * 2 ^ 32 + (wordOf a i).toNat) * 2 ^ (32 * i) + a.toNat % 2 ^ (32 * i) := by
      rw [Nat.mul_succ, pow_add, Nat.mod_mul, toNat_wordOf]
      ring
    simp only [smallDivLoop_succ a hdv, hy]
    refine ⟨by rw [List.length_cons, hlen], ?_, by rw [hrest, hstep']⟩
    rw [ofWords_reverse_cons hdigit, hlen, hquot, hstep]

theorem smallDiv_eq_udivrem {w : Width} {a b : BitVec w.bits} (hb : b.toNat ≠ 0) :
    smallDiv a b = udivrem a b := by
  obtain ⟨-, hquot, hrem⟩ := smallDivLoop_eq a (w.bits / 32) (Nat.pos_of_ne_zero hb)
  have ha : a.toNat < 2 ^ (32 * (w.bits / 32)) := by rw [width_bits_div_word]; exact a.isLt
  rw [Nat.zero_mul, Nat.zero_add, Nat.mod_eq_of_lt ha] at hquot hrem
  rw [smallDiv, udivrem, trunc_natCast, trunc_natCast, ← hquot, ← hrem]
  rfl

/-- Settles O40: the restoring division by its invariant, the small-divisor path as long division with the digits
being words. -/
theorem referenceDivisionsAgree : Obligations.ReferenceDivisionsAgree := fun _ _ _ hb =>
  ⟨restoringDiv_eq_udivrem hb, fun _ => smallDiv_eq_udivrem hb⟩

/-! ### Illegal forms of legal opcodes (R116; spec/30_encoding.md R55, R56) -/

/-- A block that is not faulted raises IllegalCommand for an illegal word (spec/60_exceptions.md R162). -/
theorem issue_of_decode_error {w : Word} {s : State} {c : Illegal} (hf : s.block.fcode = .none)
    (hw : decode w = .error c) : issue w s = .next (s.withBlock (s.block.raise .illegalCommand w)) := by
  rcases issue_cases w s with ⟨hfault, -⟩ | ⟨-, i, hi, -⟩ | ⟨-, -, -, h⟩
  · exact absurd hf hfault
  · cases hi.symm.trans hw
  · exact h

/-- The fields that the test of the two destinations reads (R51). -/
theorem fields_reg4 {op : Nat} (hop : op < 256) (rd ra rb re : Reg) :
    opcodeOf (reg4 op rd ra rb re) = op ∧ rdOf (reg4 op rd ra rb re) = rd ∧
      reOf (reg4 op rd ra rb re) = re := by
  have hw := toNat_reg4 op hop rd ra rb re
  exact ⟨by rw [opcodeOf_eq]; omega, regAt_eq (by omega), regAt_eq (by omega)⟩

theorem decode_equal_destinations {op : Nat} (hop : op ∈ [0x52, 0x56]) (rd ra rb : Reg) :
    ∃ c, decode (reg4 op rd ra rb rd) = .error c := by
  have hlt : op < 256 := by fin_cases hop <;> decide
  obtain ⟨hopcode, hrd, hre⟩ := fields_reg4 hlt rd ra rb rd
  rw [decode_error_iff, hopcode, hrd, hre]
  exact .inr (.inr (.inl ⟨hop, rfl⟩))

/-- The fields that the test of the byte count reads (R51). -/
theorem fields_imm2 {op : Nat} (hop : op < 256) (rd ra : Reg) (imm : Imm16) :
    opcodeOf (imm2 op rd ra imm) = op ∧ immOf (imm2 op rd ra imm) = imm := by
  have hw := toNat_imm2 op hop rd ra imm
  have hlt := imm.isLt
  exact ⟨by rw [opcodeOf_eq]; omega, immOf_eq (by omega)⟩

theorem decode_zero_byteCount {op : Nat} (hop : op ∈ [0x74, 0x75]) (rd ra : Reg) :
    ∃ c, decode (imm2 op rd ra 0) = .error c := by
  have hlt : op < 256 := by fin_cases hop <;> decide
  obtain ⟨hopcode, himm⟩ := fields_imm2 hlt rd ra 0
  rw [decode_error_iff, hopcode, himm]
  exact .inr (.inr (.inr ⟨hop, rfl⟩))

/-- Settles O6: the decoder rejects the four words, without a look at the registers. -/
theorem illegalFormsOfLegalOpcodes : Obligations.IllegalFormsOfLegalOpcodes := by
  intro s rd ra rb rest hf w hw hp
  have hillegal : ∃ c, decode w = .error c := by
    fin_cases hw
    · exact decode_equal_destinations (by decide) rd ra rb
    · exact decode_equal_destinations (by decide) rd ra rb
    · exact decode_zero_byteCount (by decide) rd ra
    · exact decode_zero_byteCount (by decide) rd ra
  obtain ⟨c, hc⟩ := hillegal
  exact ⟨_, (step_cons hp).trans (issue_of_decode_error hf hc), raised_raise ..⟩

end Sys2Proof.Machine

/-! ## Compare (spec/45_compare.md R125 to R127)

Both compares give the flags of a linear order, of the unsigned and of the signed values, and so does the
word-level compare. The algorithms agree because a strictly increasing function keeps those flags. -/

namespace Sys2Proof.Machine

variable {n : Nat}

/-! ### The flags of a linear order -/

section
variable {α β : Type} [LinearOrder α] [LinearOrder β] {x y : α}

/-- The pair (EQ, LT) of two values of a linear order. -/
def orderFlags (x y : α) : Bool × Bool := (decide (x = y), decide (x < y))

theorem orderFlags_of_lt (h : x < y) : orderFlags x y = (false, true) :=
  Prod.ext (decide_eq_false h.ne) (decide_eq_true h)

theorem orderFlags_of_gt (h : y < x) : orderFlags x y = (false, false) :=
  Prod.ext (decide_eq_false h.ne') (decide_eq_false h.not_gt)

theorem orderFlags_ne_both (x y : α) : orderFlags x y ≠ (true, true) := fun h =>
  (of_decide_eq_true (congrArg Prod.snd h)).ne (of_decide_eq_true (congrArg Prod.fst h))

theorem orderFlags_strictMono {f : α → β} (hf : StrictMono f) (x y : α) :
    orderFlags (f x) (f y) = orderFlags x y :=
  Prod.ext (decide_eq_decide.mpr hf.injective.eq_iff) (decide_eq_decide.mpr hf.lt_iff_lt)
end

theorem compareU_eq_orderFlags (a b : BitVec n) : compareU a b = orderFlags a.toNat b.toNat :=
  Prod.ext (beq_eq_decide ..) rfl

theorem compareS_eq_orderFlags (a b : BitVec n) : compareS a b = orderFlags a.toInt b.toInt :=
  Prod.ext (beq_eq_decide ..) rfl

/-! ### The word-level compare (R125) -/

/-- The low words of a value, the most significant of them split off. -/
theorem toNat_mod_words_succ (a : BitVec n) (i : Nat) :
    a.toNat % 2 ^ (32 * (i + 1)) = 2 ^ (32 * i) * (wordOf a i).toNat + a.toNat % 2 ^ (32 * i) := by
  rw [toNat_wordOf, Nat.mul_succ, pow_add, Nat.mod_mul, Nat.add_comm]

/-- The higher digit decides the order, whatever the lower ones are. -/
theorem mul_add_lt_of_digit_lt {B x y r : Nat} (s : Nat) (hr : r < B) (h : x < y) :
    B * x + r < B * y + s :=
  calc B * x + r < B * x + B := Nat.add_lt_add_left hr _
    _ = B * (x + 1) := (Nat.mul_succ ..).symm
    _ ≤ B * y := Nat.mul_le_mul_left B h
    _ ≤ B * y + s := Nat.le_add_right ..

theorem wordCompare_eq_orderFlags (a b : BitVec n) (count : Nat) :
    wordCompare a b count = orderFlags (a.toNat % 2 ^ (32 * count)) (b.toNat % 2 ^ (32 * count)) := by
  induction count with
  | zero => simp [wordCompare, orderFlags, Nat.mod_one]
  | succ i ih =>
    have hlow (v : BitVec n) : v.toNat % 2 ^ (32 * i) < 2 ^ (32 * i) := Nat.mod_lt _ (Nat.two_pow_pos _)
    rw [wordCompare, toNat_mod_words_succ, toNat_mod_words_succ]
    split
    case isTrue hne =>
      rcases Nat.lt_or_gt_of_ne (mt BitVec.eq_of_toNat_eq hne) with h | h
      · rw [orderFlags_of_lt (mul_add_lt_of_digit_lt _ (hlow a) h), decide_eq_true (BitVec.lt_def.mpr h)]
      · rw [orderFlags_of_gt (mul_add_lt_of_digit_lt _ (hlow b) h),
          decide_eq_false (mt BitVec.lt_def.mp h.not_gt)]
    case isFalse heq =>
      rw [ih, not_not.mp heq]
      exact (orderFlags_strictMono (add_right_strictMono (a := 2 ^ (32 * i) * (wordOf b i).toNat)) _ _).symm

/-- All W words are the whole value. -/
theorem wordCompare_eq_compareU {w : Width} (a b : BitVec w.bits) :
    wordCompare a b w.words = compareU a b := by
  rw [wordCompare_eq_orderFlags, ← Width.bits, Nat.mod_eq_of_lt a.isLt, Nat.mod_eq_of_lt b.isLt,
    compareU_eq_orderFlags]

/-! ### The commands (R125, R126) -/

/-- A write of the flags is the whole effect of a compare. -/
theorem frame_setFlags (s : State) (f : Bool × Bool) :
    SameRegs [] s (s.withBlock (s.block.setFlags f)) ∧ SameFault s (s.withBlock (s.block.setFlags f)) ∧
      SameHost s (s.withBlock (s.block.setFlags f)) :=
  ⟨.withBlock fun r _ => s.block.reg_setFlags f r, ⟨rfl, rfl⟩, ⟨rfl, rfl⟩⟩

/-- Settles O41: each compare writes the flags of its order, and the word-level compare finds those of CMPU. -/
theorem comparesWriteBothFlags : Obligations.ComparesWriteBothFlags := by
  intro s ra rb
  constructor
  · obtain ⟨hregs, hfault, hhost⟩ := frame_setFlags s (compareU (s.block.reg ra) (s.block.reg rb))
    have hflags : FlagsCompare (s.uReg ra) (s.uReg rb) _ := flagsCompare_of_cmpu rfl
    exact ⟨rfl, _, rfl, hregs, hfault, hhost, hflags.eqFlag, hflags.ltFlag,
      (wordCompare_eq_compareU ..).symm⟩
  · obtain ⟨hregs, hfault, hhost⟩ := frame_setFlags s (compareS (s.block.reg ra) (s.block.reg rb))
    have hflags : FlagsCompare (s.sReg ra) (s.sReg rb) _ := flagsCompare_of_cmps rfl
    exact ⟨rfl, _, rfl, hregs, hfault, hhost, hflags.eqFlag, hflags.ltFlag⟩

/-! ### The signed compare by inverted sign bits (R126) -/

/-- A clear bit above all others is set by inverting it. -/
theorem xor_two_pow_of_lt {x k : Nat} (hx : x < 2 ^ k) : x ^^^ 2 ^ k = x + 2 ^ k := by
  have hdiv : (x ^^^ 2 ^ k) / 2 ^ k = 1 := by
    rw [Nat.xor_div_two_pow, Nat.div_eq_of_lt hx, Nat.div_self (Nat.two_pow_pos k), Nat.zero_xor]
  have hmod : (x ^^^ 2 ^ k) % 2 ^ k = x := by
    rw [Nat.xor_mod_two_pow, Nat.mod_eq_of_lt hx, Nat.mod_self, Nat.xor_zero]
  rw [← Nat.mod_add_div (x ^^^ 2 ^ k) (2 ^ k), hdiv, hmod, Nat.mul_one]

/-- A set bit above all others is cleared by inverting it. -/
theorem add_two_pow_xor_of_lt {x k : Nat} (hx : x < 2 ^ k) : (x + 2 ^ k) ^^^ 2 ^ k = x := by
  rw [← xor_two_pow_of_lt hx, Nat.xor_assoc, Nat.xor_self, Nat.xor_zero]

/-- The inverted sign bit moves the signed order to the unsigned one: U(v ^ 2^(N−1)) = S(v) + 2^(N−1). -/
theorem toNat_flipSign (hn : 0 < n) (v : BitVec n) :
    ((flipSign v).toNat : Int) = v.toInt + 2 ^ (n - 1) := by
  have hdouble : 2 ^ n = 2 ^ (n - 1) + 2 ^ (n - 1) := (Nat.two_pow_pred_add_two_pow_pred hn).symm
  have hhalf : 2 ^ (n - 1) < 2 ^ n := Nat.two_pow_pred_lt_two_pow hn
  have hcast : ((2 ^ (n - 1) : Nat) : Int) = 2 ^ (n - 1) := by simp
  have hlt := v.isLt
  rw [flipSign, BitVec.toNat_xor, BitVec.toNat_ofNat, Nat.mod_eq_of_lt hhalf, BitVec.toInt_eq_toNat_cond,
    ← hcast]
  split
  case isTrue hpos => rw [xor_two_pow_of_lt (by omega), Nat.cast_add]
  case isFalse hneg =>
    obtain ⟨r, hr⟩ := Nat.exists_eq_add_of_le' (show 2 ^ (n - 1) ≤ v.toNat by omega)
    rw [hr, add_two_pow_xor_of_lt (by omega)]
    omega

theorem compareU_flipSign (hn : 0 < n) (a b : BitVec n) :
    compareU (flipSign a) (flipSign b) = compareS a b := by
  rw [compareU_eq_orderFlags, ← orderFlags_strictMono (Nat.strictMono_cast (α := Int)), toNat_flipSign hn,
    toNat_flipSign hn, compareS_eq_orderFlags]
  exact orderFlags_strictMono (add_left_strictMono (a := (2 : Int) ^ (n - 1))) _ _

/-- Two values are equal exactly when their unsigned, or their signed, readings are. -/
theorem compareS_fst_eq_compareU_fst (a b : BitVec n) : (compareS a b).1 = (compareU a b).1 := by
  rw [compareS_eq_orderFlags, compareU_eq_orderFlags]
  exact decide_eq_decide.mpr (BitVec.toInt_inj.trans BitVec.toNat_inj.symm)

/-- EQ and LT are never both set (R127). -/
theorem compareU_ne_both (a b : BitVec n) : compareU a b ≠ (true, true) :=
  compareU_eq_orderFlags a b ▸ orderFlags_ne_both _ _

theorem compareS_ne_both (a b : BitVec n) : compareS a b ≠ (true, true) :=
  compareS_eq_orderFlags a b ▸ orderFlags_ne_both _ _

/-- Settles O43: adding 2^(N−1) to both values keeps their order, and a linear order never answers both flags. -/
theorem wordComparesAgree : Obligations.WordComparesAgree := fun w a b =>
  have hpos := width_bits_pos w
  ⟨compareU_flipSign hpos a b, (wordCompare_eq_compareU ..).trans (compareU_flipSign hpos a b),
    toNat_flipSign hpos a, compareS_fst_eq_compareU_fst a b,
    compareU_ne_both a b, compareS_ne_both a b⟩

/-! ### What changes the flags (R127) -/

/-- What an Issue can do to EQ and LT: only a compare that a block without a fault runs can change them. -/
theorem issue_flags {w : Word} {s t : State} (h : issue w s = .next t) :
    SameFlags s t ∨ (s.block.fcode = .none ∧ ∃ i, decode w = .ok i ∧ isCompare i = true) := by
  rcases issue_cases w s with ⟨-, hdrop⟩ | ⟨hf, i, hi, hexec⟩ | ⟨-, c, -, hraise⟩
  · cases hdrop.symm.trans h
    exact .inl (.refl s)
  · obtain ⟨t', ht', -, -, hflags, -⟩ := exec_writesOnlyNamed i s
    cases (hexec.trans ht').symm.trans h
    cases hc : isCompare i with
    | true => exact .inr ⟨hf, i, hi, hc⟩
    | false => exact .inl (hflags hc)
  · cases hraise.symm.trans h
    exact .inl (raised_raise s _ w).flags

/-- What a transaction can do to EQ and LT. -/
theorem transact_flags {tr : Transaction} {s t : State} (h : transact tr s = .next t) :
    SameFlags s t ∨ (∃ draw, tr = .reset draw) ∨
    (s.block.fcode = .none ∧ ∃ w i, tr = .issue w ∧ decode w = .ok i ∧ isCompare i = true) := by
  cases tr with
  | issue w => exact (issue_flags h).imp_right fun ⟨hf, i, hi, hc⟩ => .inr ⟨hf, w, i, rfl, hi, hc⟩
  | reset draw => exact .inr (.inl ⟨draw, rfl⟩)
  | wrElem | rdElem | rdStatus | rdFcmd | clrFault => cases h; exact .inl ⟨rfl, rfl⟩

/-- Settles O54: an idle step changes nothing, and any other is one transaction. -/
theorem flagsChangeOnlyByCompareAndReset : Obligations.FlagsChangeOnlyByCompareAndReset := by
  intro s t h
  rcases step_cases h with ⟨-, rfl⟩ | ⟨tr, rest, hp, htr⟩
  · exact .inl (.refl t)
  · rcases transact_flags htr with ⟨heq, hlt⟩ | ⟨draw, rfl⟩ | ⟨hf, w, i, rfl, hi, hc⟩
    · exact .inl ⟨heq, hlt⟩
    · exact .inr (.inl ⟨draw, rest, hp⟩)
    · exact .inr (.inr ⟨hf, w, rest, i, hp, hi, hc⟩)

end Sys2Proof.Machine

/-! ## Construction, extension and conversion (spec/46_convert_construct.md R130 to R140)

The commands write one value to `rd`; the extensions are those of bit vectors, known byte by byte. A host's
conversion is a run of writes to one register with CLR before it or EXTS after it, so its effect is one write
of the value that these leave. -/

namespace Sys2Proof.Machine

variable {n : Nat}

/-! ### Constants and moves (R130 to R133) -/

theorem getLsbD_sext {m i : Nat} (v : BitVec m) (hi : i < n) :
    (sext n v).getLsbD i = if i < m then v.getLsbD i else v.getLsbD (m - 1) := by
  rw [sext_eq_signExtend, BitVec.getLsbD_signExtend, decide_eq_true hi, Bool.true_and,
    BitVec.msb_eq_getLsbD_last]

/-- Settles O44: the value that each command writes to `rd`. -/
theorem constantsAndMoves : Obligations.ConstantsAndMoves := by
  intro s rd ra imm
  refine ⟨⟨rfl, _, rfl, frame_setReg s rd _, ?clr⟩, ⟨rfl, _, rfl, frame_setReg s rd _, ?mov⟩,
    ⟨rfl, ?liu⟩, ⟨rfl, ?lis⟩⟩
  case clr => exact (s.uReg_setReg_self rd _).trans BitVec.toNat_zero
  case mov => exact s.uReg_setReg_self rd _
  case liu =>
    obtain ⟨t, hexec, hval, hframe⟩ := exec_liu rd imm s
    exact ⟨t, hexec, hframe, hval⟩
  case lis =>
    obtain ⟨t, hexec, hval, hframe⟩ := exec_lis rd imm s
    cases hexec
    have hwidth := width_bits_ge s.width
    refine ⟨_, rfl, hframe, hval, fun i hi => ?_, fun i hlo hi => ?_⟩
    · rw [State.bitAt_setReg_self, getLsbD_sext _ (by omega), if_pos hi]
    · rw [State.bitAt_setReg_self, getLsbD_sext _ hi, if_neg (by omega)]

/-! ### The bounds (R136, R137) -/

theorem maxValue_eq_intMax (n : Nat) : maxValue n = BitVec.intMax n := by
  apply BitVec.eq_of_toNat_eq
  have hle : 2 ^ (n - 1) ≤ 2 ^ n := Nat.pow_le_pow_right (by decide) (Nat.sub_le n 1)
  have hpos := Nat.two_pow_pos n
  rw [maxValue, toNat_trunc_natCast, BitVec.toNat_intMax, Nat.mod_eq_of_lt (by omega)]

theorem minValue_sub_one (n : Nat) : minValue n - 1 = maxValue n := by
  have hpos := Nat.two_pow_pos (n - 1)
  rw [minValue, maxValue, trunc, trunc, Nat.cast_sub hpos, Int.sub_eq_add_neg, BitVec.ofInt_add,
    BitVec.ofInt_neg, ← BitVec.sub_eq_add_neg]
  simp

theorem Block.setReg_setReg (b : Block n) (d : Reg) (v u : BitVec n) :
    (b.setReg d v).setReg d u = b.setReg d u := by
  simp only [Block.setReg, Vector.set_set]

/-- A command on a register that was just written, its source and its destination. -/
theorem Block.setReg_reg_setReg (b : Block n) (d : Reg) (v : BitVec n) (f : BitVec n → BitVec n) :
    (b.setReg d v).setReg d (f ((b.setReg d v).reg d)) = b.setReg d (f v) := by
  rw [Block.reg_setReg_self, Block.setReg_setReg]

/-- Settles O46: the two bounds bit by bit, and the maximum as the minimum less one. -/
theorem boundsCommands : Obligations.BoundsCommands := by
  intro s rd
  have hpos := width_bits_pos s.width
  refine ⟨⟨rfl, _, rfl, frame_setReg s rd _, fun i => ?min_bits, ?min_value⟩,
    ⟨rfl, _, _, rfl, frame_setReg s rd _, fun i => ?max_bits, ?max_value, rfl, ?dec⟩⟩
  case min_bits =>
    rw [State.bitAt_setReg_self, minValue_eq_intMin, BitVec.getLsbD_intMin, decide_eq_decide]
    omega
  case min_value =>
    rw [State.sReg_withBlock, Block.reg_setReg_self, minValue_eq_intMin, BitVec.toInt_intMin_of_pos hpos]
  case max_bits =>
    rw [State.bitAt_setReg_self, maxValue_eq_intMax, BitVec.getLsbD_intMax, decide_eq_decide]
    omega
  case max_value => rw [State.uReg_setReg_self, maxValue_eq_intMax, BitVec.toNat_intMax]
  case dec =>
    have hblock := s.block.setReg_reg_setReg rd (minValue _) (· - 1)
    rw [minValue_sub_one] at hblock
    exact (exec_dec rd rd _).trans (congrArg (done s) hblock)

/-! ### The bytes of an extension -/

theorem eq_of_bytes_eq {w : Width} {u v : BitVec w.bits} (h : ∀ p < w.bytes, byteOf u p = byteOf v p) :
    u = v := by
  revert u v
  rw [← width_eight_mul_bytes w]
  exact fun h => eq_of_byteOf_eq h

theorem byteOf_zero_value (p : Nat) : byteOf 0#n p = 0#8 := BitVec.extractLsb'_zero

theorem byteOf_setWidth {m p : Nat} (v : BitVec n) (hp : 8 * p + 8 ≤ m) :
    byteOf (v.setWidth m) p = byteOf v p := by
  apply BitVec.eq_of_getLsbD_eq
  intro i hi
  rw [getLsbD_byteOf, getLsbD_byteOf, BitVec.getLsbD_setWidth, decide_eq_true (by omega : 8 * p + i < m),
    Bool.true_and]

/-- A byte beyond the value has no bit set. -/
theorem byteOf_of_ge {p : Nat} (v : BitVec n) (hp : n ≤ 8 * p) : byteOf v p = 0#8 := by
  apply BitVec.eq_of_getLsbD_eq
  intro i hi
  rw [getLsbD_byteOf, BitVec.getLsbD_of_ge _ _ (by omega), Bool.and_false, BitVec.getLsbD_zero]

/-- The byte that a sign extension repeats (R135; spec/20_memory.md R36). -/
def signByte (sign : Bool) : Byte := if sign then 0xFF else 0x00

theorem getLsbD_signByte {i : Nat} (sign : Bool) (hi : i < 8) : (signByte sign).getLsbD i = sign := by
  revert i
  cases sign <;> decide

theorem byteOf_signExtend {m c p : Nat} (v : BitVec n) (hn : n = 8 * c) (hp : 8 * p + 8 ≤ m) :
    byteOf (v.signExtend m) p = if p < c then byteOf v p else signByte v.msb := by
  apply BitVec.eq_of_getLsbD_eq
  intro i hi
  rw [getLsbD_byteOf, BitVec.getLsbD_signExtend, decide_eq_true hi,
    decide_eq_true (by omega : 8 * p + i < m), Bool.true_and, Bool.true_and]
  split
  case isTrue hin => rw [if_pos (by omega), getLsbD_byteOf, decide_eq_true hi, Bool.true_and]
  case isFalse hout => rw [if_neg (by omega), getLsbD_signByte _ hi]

theorem byteOf_low_bytes (a : BitVec n) {m p : Nat} (hp : p < m) :
    byteOf (a.extractLsb' 0 (8 * m)) p = byteOf a p := by
  apply BitVec.eq_of_getLsbD_eq
  intro i hi
  rw [getLsbD_byteOf, getLsbD_byteOf, BitVec.getLsbD_extractLsb', Nat.zero_add,
    decide_eq_true (by omega : 8 * p + i < 8 * m), Bool.true_and]

theorem byteOf_extendZero (a : BitVec n) (nb : Nat) {p : Nat} (hp : p < n / 8) :
    byteOf (extendZero a nb) p = if p < min nb (n / 8) then byteOf a p else 0x00 := by
  rw [extendZero, zext_eq_setWidth, byteOf_setWidth _ (by omega)]
  split
  case isTrue hlow => exact byteOf_low_bytes a hlow
  case isFalse hhigh => exact byteOf_of_ge _ (by omega)

/-- The sign of the low bytes is the highest bit of the highest of them. -/
theorem msb_low_bytes (a : BitVec n) {m : Nat} (hm : 0 < m) :
    (a.extractLsb' 0 (8 * m)).msb = a.getLsbD (8 * m - 1) := by
  rw [BitVec.msb_eq_getLsbD_last, BitVec.getLsbD_extractLsb', Nat.zero_add,
    decide_eq_true (by omega : 8 * m - 1 < 8 * m), Bool.true_and]

theorem byteOf_extendSign (a : BitVec n) {nb p : Nat} (hnb : 0 < nb) (hp : p < n / 8) :
    byteOf (extendSign a nb) p =
      if p < min nb (n / 8) then byteOf a p else signByte (a.getLsbD (8 * min nb (n / 8) - 1)) := by
  rw [extendSign, sext_eq_signExtend, byteOf_signExtend _ rfl (by omega), msb_low_bytes a (by omega)]
  split
  case isTrue hlow => exact byteOf_low_bytes a hlow
  case isFalse => rfl

/-! ### EXTZ and EXTS (R134, R135) -/

theorem State.byteAt_setReg_self (s : State) (d : Reg) (v : BitVec s.width.bits) {p : Nat}
    (hp : p < s.width.bytes) : (s.withBlock (s.block.setReg d v)).byteAt d p = some (byteOf v p) := by
  rw [State.byteAt_withBlock, Block.byteAt, Block.reg_setReg_self, width_bits_div_eight, if_pos hp]

theorem State.byteAt_of_lt (s : State) (r : Reg) {p : Nat} (hp : p < s.width.bytes) :
    s.byteAt r p = some (byteOf (s.block.reg r) p) := by
  rw [State.byteAt, Block.byteAt, width_bits_div_eight, if_pos hp]

theorem exec_extz (rd ra : Reg) {imm : Imm16} (h : imm ≠ 0) (s : State) :
    exec (.extz rd ra imm) s =
      .next (s.withBlock (s.block.setReg rd (extendZero (s.block.reg ra) imm.toNat))) := if_neg h

theorem exec_exts (rd ra : Reg) {imm : Imm16} (h : imm ≠ 0) (s : State) :
    exec (.exts rd ra imm) s =
      .next (s.withBlock (s.block.setReg rd (extendSign (s.block.reg ra) imm.toNat))) := if_neg h

/-- EXTS of a register that was just written, in place. -/
theorem exec_exts_setReg (s : State) (r : Reg) {imm : Imm16} (h : imm ≠ 0) (x : BitVec s.width.bits) :
    exec (.exts r r imm) (s.withBlock (s.block.setReg r x)) =
      .next (s.withBlock (s.block.setReg r (extendSign x imm.toNat))) :=
  (exec_exts r r h _).trans
    (congrArg (done s) (s.block.setReg_reg_setReg r x (extendSign · imm.toNat)))

/-- Settles O45: the value written to `rd` byte by byte, which for a byte count of NB or more is the source. -/
theorem extensionsFromAByteCount : Obligations.ExtensionsFromAByteCount := by
  intro s rd ra imm himm m
  have hm : m = min imm.toNat (s.width.bits / 8) := by rw [width_bits_div_eight]
  have hpos : 0 < imm.toNat := Nat.pos_of_ne_zero fun h => himm (BitVec.eq_of_toNat_eq h)
  refine ⟨⟨rfl, _, exec_extz rd ra himm s, frame_setReg s rd _, fun p hp => ?zero⟩,
    ⟨rfl, _, exec_exts rd ra himm s, frame_setReg s rd _, fun p hp => ?sign⟩⟩
  case zero =>
    rw [State.byteAt_setReg_self _ _ _ hp, byteOf_extendZero _ _ (by rwa [width_bits_div_eight]), ← hm,
      State.byteAt_of_lt _ _ hp, apply_ite some]
  case sign =>
    rw [State.byteAt_setReg_self _ _ _ hp, byteOf_extendSign _ hpos (by rwa [width_bits_div_eight]), ← hm,
      State.byteAt_of_lt _ _ hp, apply_ite some]
    rfl

/-! ### Reading a native integer (R140) -/

/-- With fill ZERO, the value extended by zeros or its low bits. -/
theorem memRead_start_zero {w : Width} (b : Block w.bits) (r : Reg) (count : Nat) :
    b.memRead r 0 count .zero = (b.reg r).setWidth (8 * count) := by
  apply eq_of_byteOf_eq
  intro j hj
  rw [Block.byteOf_memRead _ _ _ _ hj, Block.getD_byteAt, byteOf_setWidth _ (by omega), Nat.zero_add,
    width_bits_div_eight]
  split
  case isTrue => rfl
  case isFalse hout => exact (byteOf_of_ge _ (by rw [← width_eight_mul_bytes]; omega)).symm

/-- With fill SIGN, the value extended by its sign or its low bits. -/
theorem memRead_start_sign {w : Width} (b : Block w.bits) (r : Reg) (count : Nat) :
    b.memRead r 0 count .sign = (b.reg r).signExtend (8 * count) := by
  apply eq_of_byteOf_eq
  intro j hj
  rw [Block.byteOf_memRead _ _ _ _ hj, Block.getD_byteAt,
    byteOf_signExtend _ (width_eight_mul_bytes w).symm (by omega), Nat.zero_add, width_bits_div_eight,
    Block.fillByte, signBit_eq_msb]
  rfl

/-- Settles O20: the element read is an extension of the register, or its truncation. -/
theorem nativeReadConversion : Obligations.NativeReadConversion := by
  intro s r e fill rest hp
  have hstart : 0 * e.bytes = 0 := Nat.zero_mul _
  refine ⟨s.block.memRead r (0 * e.bytes) e.bytes fill, step_cons hp, fun hle => ?low, fun hlt => ?whole⟩
  case low =>
    rw [hstart]
    cases fill with
    | zero => rw [memRead_start_zero]; exact BitVec.toNat_setWidth ..
    | sign =>
      rw [memRead_start_sign, BitVec.signExtend_eq_setWidth_of_le _ hle]
      exact BitVec.toNat_setWidth ..
  case whole =>
    rw [hstart]
    cases fill with
    | zero => rw [memRead_start_zero]; exact BitVec.toNat_setWidth_of_le hlt.le
    | sign => rw [memRead_start_sign]; exact BitVec.toInt_signExtend_of_le hlt.le

/-! ### The transactions of a conversion (R138, R139) -/

/-- The value of a register after the elements `vs` were written to it from element `k` on. -/
def putArray (x : BitVec n) (e : ElemWidth) : Nat → List (BitVec e.bits) → BitVec n
  | _, [] => x
  | k, v :: vs => putArray (putBytes x (k * e.bytes) v e.bytes) e (k + 1) vs

theorem Block.setReg_reg (b : Block n) (d : Reg) : b.setReg d (b.reg d) = b := by
  simp only [Block.setReg, Block.reg, Fin.getElem_fin, Vector.set_getElem_self]

/-- A legal command issued to a block that is not faulted is the next step of a run. -/
theorem run_issueOf {s t : State} {i : Instr} {rest : List Transaction} (hf : s.block.fcode = .none)
    (hwf : i.wellFormed = true) (hp : s.pending = issueOf i :: rest)
    (h : exec i { s with pending := rest } = .next t) (k : Nat) :
    Host.Core.run Sys2Proof.core (k + 1) s = Host.Core.run Sys2Proof.core k t :=
  have hissue : issue (encode i) { s with pending := rest } = exec i { s with pending := rest } :=
    issue_of_decode hf (decode_encode hwf)
  run_succ ((step_cons hp).trans (hissue.trans h)) k

theorem run_writeArray (w : Width) (b : Block w.bits) (r : Reg) (e : ElemWidth) (i : Nat)
    (vs : List (BitVec e.bits)) (rest : List Transaction) (replies : List Reply) (k : Nat) :
    Host.Core.run Sys2Proof.core (k + vs.length) ⟨w, b, writeArray r e i vs ++ rest, replies⟩ =
      Host.Core.run Sys2Proof.core k ⟨w, b.setReg r (putArray (b.reg r) e i vs), rest, replies⟩ := by
  induction vs generalizing b i with
  | nil => rw [putArray, Block.setReg_reg]; rfl
  | cons v vs ih =>
    rw [putArray, List.length_cons, ← Nat.add_assoc, writeArray, List.cons_append, run_wrElem, ih,
      Block.reg_memWrite, if_pos rfl, Block.memWrite, Block.setReg_setReg]

section
variable {s : State} {r : Reg} {e : ElemWidth} {vs : List (BitVec e.bits)} {rest : List Transaction}

/-- CLR, then the writes of an array. -/
theorem run_importArray (hf : s.block.fcode = .none) (hp : s.pending = importArray r e vs ++ rest) :
    Host.Core.run Sys2Proof.core (vs.length + 1) s =
      .next (State.withBlock { s with pending := rest } (s.block.setReg r (putArray 0 e 0 vs))) := by
  have harray := run_writeArray s.width (s.block.setReg r 0) r e 0 vs rest s.replies 0
  rw [Block.setReg_reg_setReg _ r 0 (putArray · e 0 vs), Nat.zero_add] at harray
  exact (run_issueOf hf rfl hp rfl _).trans harray

/-- The writes of an array, then EXTS from `nb` bytes. -/
theorem run_writeArray_exts {nb : Nat} (hf : s.block.fcode = .none) (hpos : 0 < nb) (hlt : nb < 2 ^ 16)
    (hp : s.pending = writeArray r e 0 vs ++ issueOf (.exts r r (BitVec.ofNat 16 nb)) :: rest) :
    Host.Core.run Sys2Proof.core (vs.length + 1) s =
      .next (State.withBlock { s with pending := rest }
        (s.block.setReg r (extendSign (putArray (s.block.reg r) e 0 vs) nb))) := by
  have himm : (BitVec.ofNat 16 nb).toNat = nb := Nat.mod_eq_of_lt hlt
  have hne : BitVec.ofNat 16 nb ≠ 0 := fun h => hpos.ne (by rw [← himm, h]; rfl)
  have hwf : (Instr.exts r r (BitVec.ofNat 16 nb)).wellFormed = true := by
    simpa [Instr.wellFormed, Instr.equalDestinations, Instr.zeroByteCount] using hne
  have harray := run_writeArray s.width s.block r e 0 vs (issueOf (.exts r r (BitVec.ofNat 16 nb)) :: rest)
    s.replies 1
  have hexts := exec_exts_setReg { s with pending := rest } r hne (putArray (s.block.reg r) e 0 vs)
  rw [himm] at hexts
  rw [← hp, Nat.add_comm] at harray
  exact harray.trans (run_issueOf
    (s := ⟨s.width, s.block.setReg r (putArray (s.block.reg r) e 0 vs), _, s.replies⟩) hf hwf rfl hexts 0)
end

/-! ### The values of a conversion (R138, R139) -/

theorem ElemWidth.bytes_pos (e : ElemWidth) : 0 < e.bytes := by cases e <;> decide
theorem ElemWidth.bytes_le (e : ElemWidth) : e.bytes ≤ 8 := by cases e <;> decide

/-- The bytes of the elements written are theirs, the others are kept. -/
theorem byteOf_putArray (x : BitVec n) (e : ElemWidth) (k : Nat) (vs : List (BitVec e.bits)) {q : Nat}
    (hq : q < n / 8) :
    byteOf (putArray x e k vs) q =
      if k ≤ q / e.bytes then (vs[q / e.bytes - k]?).elim (byteOf x q) (byteOf · (q % e.bytes))
      else byteOf x q := by
  have hpos := e.bytes_pos
  induction vs generalizing x k with
  | nil => simp [putArray]
  | cons v vs ih =>
    have hin : k * e.bytes ≤ q ∧ q < k * e.bytes + e.bytes ↔ q / e.bytes = k := by
      rw [Nat.div_eq_iff hpos]
      omega
    rw [putArray, ih, byteOf_putBytes _ _ _ _ hq, if_congr hin rfl rfl]
    rcases Nat.lt_trichotomy (q / e.bytes) k with hlt | heq | hgt
    · rw [if_neg (by omega), if_neg (by omega), if_neg (by omega)]
    · have hoff : q - k * e.bytes = q % e.bytes := by
        rw [← heq, Nat.mul_comm, Nat.mod_eq_sub_mul_div]
      rw [if_neg (by omega), if_pos heq, if_pos heq.ge, heq, Nat.sub_self, hoff]
      rfl
    · obtain ⟨d, hd⟩ := Nat.exists_eq_add_of_lt hgt
      have hidx : k + d + 1 - k = d + 1 := by omega
      have hidx' : k + d + 1 - (k + 1) = d := by omega
      rw [if_pos (Nat.succ_le_of_lt hgt), if_neg hgt.ne', if_pos hgt.le, hd, hidx, hidx', List.getElem?_cons_succ]

theorem byteOf_putArray_start (x : BitVec n) (e : ElemWidth) (vs : List (BitVec e.bits)) {q : Nat}
    (hq : q < n / 8) :
    byteOf (putArray x e 0 vs) q =
      (vs[q / e.bytes]?).elim (byteOf x q) (byteOf · (q % e.bytes)) :=
  (byteOf_putArray x e 0 vs hq).trans (if_pos (Nat.zero_le _))

theorem putArray_zero_singleton {w : Width} (e : ElemWidth) (v : BitVec e.bits) :
    putArray (0 : BitVec w.bits) e 0 [v] = v.setWidth w.bits := by
  apply eq_of_bytes_eq
  intro p hp
  have hbits := width_eight_mul_bytes w
  rw [putArray, putArray, byteOf_putBytes _ _ _ _ (by rwa [width_bits_div_eight]),
    byteOf_setWidth _ (by omega), Nat.zero_mul, Nat.sub_zero]
  split
  case isTrue => rfl
  case isFalse hout =>
    have hge : e.bits ≤ 8 * p := by show 8 * e.bytes ≤ 8 * p; omega
    rw [byteOf_of_ge v hge]
    exact byteOf_zero_value p

/-- A value of `nb` bytes whose bytes stand at the low end of a register is sign-extended, or truncated to the
register, by EXTS from `nb` bytes. -/
theorem extendSign_eq_signExtend {w : Width} {m nb : Nat} {x : BitVec w.bits} {v : BitVec m} (hm : m = 8 * nb)
    (hnb : 0 < nb) (hbytes : ∀ p < min nb w.bytes, byteOf x p = byteOf v p) :
    extendSign x nb = v.signExtend w.bits := by
  apply eq_of_bytes_eq
  intro p hp
  have hbits := width_eight_mul_bytes w
  rw [byteOf_extendSign _ hnb (by rwa [width_bits_div_eight]), width_bits_div_eight,
    byteOf_signExtend _ hm (by omega)]
  by_cases hlow : p < nb
  · rw [if_pos hlow, if_pos (by omega), hbytes p (by omega)]
  · have hmin : min nb w.bytes = nb := by omega
    have htop := congrArg (BitVec.getLsbD · 7) (hbytes (nb - 1) (by omega))
    have hbit : 8 * (nb - 1) + 7 = m - 1 := by omega
    simp only [getLsbD_byteOf, hbit, Nat.reduceLT, decide_true, Bool.true_and] at htop
    rw [if_neg hlow, if_neg (by omega), hmin, ← hm, htop, BitVec.msb_eq_getLsbD_last]

theorem toNat_extendSign_eq_emod {w : Width} {m nb : Nat} {x : BitVec w.bits} {v : BitVec m} (hm : m = 8 * nb)
    (hnb : 0 < nb) (hbytes : ∀ p < min nb w.bytes, byteOf x p = byteOf v p) :
    ((extendSign x nb).toNat : Int) = v.toInt % 2 ^ w.bits := by
  rw [extendSign_eq_signExtend hm hnb hbytes]
  exact toNat_trunc w.bits v.toInt

/-- The bytes of a number given by its words are those of the words. -/
theorem byteOf_ofNat_ofWords (ws : List Word) {p : Nat} (hp : p < 4 * ws.length) :
    byteOf (BitVec.ofNat (32 * ws.length) (ofWords ws)) p = byteOf (ws.getD (p / 4) 0) (p % 4) := by
  apply BitVec.eq_of_getLsbD_eq
  intro i hi
  have hdiv : (8 * p + i) / 32 = p / 4 := by omega
  have hmod : (8 * p + i) % 32 = 8 * (p % 4) + i := by omega
  rw [getLsbD_byteOf, getLsbD_byteOf, BitVec.getLsbD_ofNat, testBit_ofWords, hdiv, hmod,
    decide_eq_true (by omega : 8 * p + i < 32 * ws.length), Bool.true_and]

theorem byteOf_putArray_words (x : BitVec n) (ws : List Word) {p : Nat} (hp : p < 4 * ws.length)
    (hin : p < n / 8) :
    byteOf (putArray x .w32 0 ws) p = byteOf (BitVec.ofNat (32 * ws.length) (ofWords ws)) p := by
  have hword : ws[p / 4]? = some ws[p / 4] := List.getElem?_eq_getElem (by omega)
  calc byteOf (putArray x .w32 0 ws) p = (ws[p / 4]?).elim (byteOf x p) (byteOf · (p % 4)) :=
        byteOf_putArray_start x .w32 ws hin
    _ = byteOf (ws.getD (p / 4) 0) (p % 4) := by rw [List.getD_eq_getElem?_getD, hword]; rfl
    _ = _ := (byteOf_ofNat_ofWords ws hp).symm

/-- Settles O18: a native integer is an array of one element. -/
theorem nativeConstructionSequences : Obligations.NativeConstructionSequences := by
  intro s r e v rest hf
  have hpos := e.bytes_pos
  have hle := e.bytes_le
  refine ⟨fun hp => ⟨_, run_importArray (vs := [v]) hf hp, frame_setReg _ r _, ?unsigned⟩,
    fun hp => ⟨_, run_writeArray_exts (vs := [v]) hf hpos (by omega) hp, frame_setReg _ r _, ?signed⟩⟩
  case unsigned =>
    rw [putArray_zero_singleton]
    exact (State.uReg_setReg_self _ r _).trans (BitVec.toNat_setWidth ..)
  case signed =>
    refine (congrArg Nat.cast (State.uReg_setReg_self _ r _)).trans ?_
    refine toNat_extendSign_eq_emod rfl hpos fun p hp => ?_
    have hlow : p < e.bytes := by omega
    rw [byteOf_putArray_start _ _ _ (by rw [width_bits_div_eight]; omega), Nat.div_eq_of_lt hlow,
      Nat.mod_eq_of_lt hlow]
    rfl

/-- Settles O19: the array stands byte by byte in the cleared register, and the words of a signed value at the
low end of the register that EXTS extends. -/
theorem arrayImportSequences : Obligations.ArrayImportSequences := by
  refine ⟨fun s r e vs rest hf hp => ⟨_, run_importArray hf hp, frame_setReg _ r _, fun p hin => ?array⟩,
    fun s r ws rest hf hne hfit hp => ?widen⟩
  case array =>
    refine (State.byteAt_setReg_self _ r _ hin).trans (congrArg some ?_)
    rw [byteOf_putArray_start _ _ _ (by rwa [width_bits_div_eight])]
    cases vs[p / e.bytes]? with
    | none => exact byteOf_zero_value p
    | some v => rfl
  case widen =>
    have hpos : 0 < ws.length := List.length_pos_iff.mpr hne
    have hle := s.width.le
    rw [widenSigned, List.append_assoc] at hp
    refine ⟨_, run_writeArray_exts hf (by omega) (by omega) hp, frame_setReg _ r _, ?_⟩
    refine (congrArg Nat.cast (State.uReg_setReg_self _ r _)).trans ?_
    exact toNat_extendSign_eq_emod (by omega) (by omega) fun p hin =>
      byteOf_putArray_words _ ws (by omega) (by rw [width_bits_div_eight]; omega)

end Sys2Proof.Machine

/-! ## Rotate and bit scan (spec/47_derived_bitops.md R145 to R149)

The rotation is that of bit vectors, its word-level form the same bit by bit. The bit scans look at the number
that the low bits of the source stand for, whose logarithm is the index of its highest bit. -/

namespace Sys2Proof.Machine

variable {n : Nat}

/-! ### Rotation (R145, R146) -/

theorem rotateRight_eq_bitVec_rotateRight (a : BitVec n) (k : Nat) : rotateRight a k = a.rotateRight k := by
  rw [rotateRight, BitVec.rotateRight_def]
  split
  case isTrue h => rw [h, BitVec.ushiftRight_zero, Nat.sub_zero, BitVec.shiftLeft_eq_zero le_rfl, BitVec.or_zero]
  case isFalse => rw [shiftRight_eq_ushr, shiftLeft_eq_shl]

/-- Bit `i` of a rotated value is the source bit `k` positions further, counted around the end. -/
theorem getLsbD_rotateRight {i : Nat} (a : BitVec n) (k : Nat) (hi : i < n) :
    (rotateRight a k).getLsbD i = a.getLsbD ((i + k % n) % n) := by
  have hk : k % n < n := Nat.mod_lt _ (by omega)
  rw [rotateRight_eq_bitVec_rotateRight, BitVec.getLsbD_rotateRight]
  generalize k % n = r at hk
  by_cases hin : i < n - r
  · rw [decide_eq_true hin, cond_true, Nat.mod_eq_of_lt (by omega), Nat.add_comm]
  · have hwrap : (i + r) % n = i - (n - r) := by
      rw [Nat.mod_eq_sub_mod (by omega), Nat.mod_eq_of_lt (by omega)]
      omega
    rw [decide_eq_false hin, cond_false, decide_eq_true hi, Bool.true_and, hwrap]

/-- Settles O47: both commands write the rotation to `rd`. -/
theorem rotations : Obligations.Rotations := fun s rd _ _ _ =>
  ⟨⟨rfl, _, rfl, frame_setReg s rd _, fun i hi =>
      (s.bitAt_setReg_self rd _ i).trans (getLsbD_rotateRight _ _ hi)⟩,
    ⟨rfl, _, rfl, frame_setReg s rd _, fun i hi =>
      (s.bitAt_setReg_self rd _ i).trans (getLsbD_rotateRight _ _ hi)⟩⟩

/-! ### The word-level rotation (R149) -/

/-- Bit `j` of word `m` of `a`, the words counted around the end. -/
theorem getLsbD_wordOf_mod {w : Width} (a : BitVec w.bits) (m : Nat) {j : Nat} (hj : j < 32) :
    (wordOf a (m % w.words)).getLsbD j = a.getLsbD ((32 * m + j) % w.bits) := by
  have hindex : 32 * (m % w.words) + j = (32 * m + j) % w.bits := by
    have hdiv : (32 * m + j) / 32 = m := by omega
    have hmod : (32 * m + j) % 32 = j := by omega
    rw [Width.bits, Nat.mod_mul, hdiv, hmod, Nat.add_comm]
  rw [getLsbD_wordOf, decide_eq_true hj, Bool.true_and, hindex]

/-- Two words next to each other around the end, shifted against each other, hold 32 bits next to each other
around the end. -/
theorem getLsbD_window {w : Width} (a : BitVec w.bits) (m : Nat) {b j : Nat} (hb : b < 32) (hj : j < 32) :
    (wordOf a (m % w.words) >>> b ||| wordOf a ((m + 1) % w.words) <<< (32 - b)).getLsbD j =
      a.getLsbD ((32 * m + j + b) % w.bits) := by
  rw [BitVec.getLsbD_or, BitVec.getLsbD_ushiftRight, BitVec.getLsbD_shiftLeft, decide_eq_true hj,
    Bool.true_and]
  by_cases hlow : j < 32 - b
  · rw [decide_eq_true hlow, Bool.not_true, Bool.false_and, Bool.or_false, getLsbD_wordOf_mod _ _ (by omega)]
    congr 2
    omega
  · rw [decide_eq_false hlow, Bool.not_false, Bool.true_and, BitVec.getLsbD_of_ge _ (b + j) (by omega),
      Bool.false_or, getLsbD_wordOf_mod _ _ (by omega)]
    congr 2
    omega

theorem wordRotate_eq_rotateRight {w : Width} (a : BitVec w.bits) {r : Nat} (hr : r < w.bits) :
    wordRotate a r = rotateRight a r := by
  refine fromWords_eq_of_wordOf fun k hk => BitVec.eq_of_getLsbD_eq fun j hj => ?_
  have hin : 32 * k + j < w.bits := by simp only [Width.bits]; omega
  rw [getLsbD_wordOf, decide_eq_true hj, Bool.true_and, getLsbD_rotateRight a r hin, Nat.mod_eq_of_lt hr,
    width_bits_div_word]
  split
  case isTrue hbo =>
    rw [getLsbD_wordOf_mod _ _ hj]
    congr 2
    omega
  case isFalse hbo =>
    rw [getLsbD_window _ _ (Nat.mod_lt _ (by decide)) hj]
    congr 2
    omega

/-! ### The highest bit (R147) -/

/-- The logarithm of a number is found in its highest nonzero digit. -/
theorem log2_two_pow_mul_add {k x r : Nat} (hx : x ≠ 0) (hr : r < 2 ^ k) :
    (2 ^ k * x + r).log2 = k + x.log2 := by
  have hpos := Nat.two_pow_pos k
  have hne : 2 ^ k * x + r ≠ 0 := by
    have := Nat.mul_pos hpos (Nat.pos_of_ne_zero hx)
    omega
  refine (Nat.log2_eq_iff hne).mpr ⟨?_, ?_⟩
  · calc 2 ^ (k + x.log2) = 2 ^ k * 2 ^ x.log2 := pow_add ..
      _ ≤ 2 ^ k * x := Nat.mul_le_mul_left _ (Nat.log2_self_le hx)
      _ ≤ 2 ^ k * x + r := Nat.le_add_right ..
  · calc 2 ^ k * x + r < 2 ^ k * (x + 1) := by rw [Nat.mul_succ]; omega
      _ ≤ 2 ^ k * 2 ^ (x.log2 + 1) := Nat.mul_le_mul_left _ Nat.lt_log2_self
      _ = 2 ^ (k + x.log2 + 1) := by rw [← pow_add, Nat.add_assoc]

/-- Of the low `k` bits of a value, the highest set one is the logarithm of the number they stand for. -/
theorem highestBelow_eq (a : BitVec n) (k : Nat) :
    highestBelow a k = if a.toNat % 2 ^ k = 0 then none else some (a.toNat % 2 ^ k).log2 := by
  induction k with
  | zero => simp [highestBelow, Nat.mod_one]
  | succ k ih =>
    have hlow : a.toNat % 2 ^ k < 2 ^ k := Nat.mod_lt _ (Nat.two_pow_pos k)
    have hsplit : a.toNat % 2 ^ (k + 1) = 2 ^ k * (a.getLsbD k).toNat + a.toNat % 2 ^ k := by
      rw [Nat.mod_pow_succ, Nat.add_comm, ← BitVec.testBit_toNat, Nat.toNat_testBit]
    rw [highestBelow, hsplit]
    split
    case isTrue hbit =>
      rw [hbit, Bool.toNat_true, log2_two_pow_mul_add one_ne_zero hlow, if_neg (by omega)]
      rfl
    case isFalse hbit =>
      rw [Bool.eq_false_of_not_eq_true hbit, Bool.toNat_false, Nat.mul_zero, Nat.zero_add, ih]

theorem highestBelow_of_zero {a : BitVec n} (ha : a.toNat = 0) (k : Nat) : highestBelow a k = none := by
  rw [highestBelow_eq, ha, Nat.zero_mod, if_pos rfl]

/-- The probes `ks` find the highest bit of every nonzero number of at most `k` bits. -/
def FindsHighest (ks : List Nat) (k : Nat) : Prop :=
  ∀ x, x ≠ 0 → x < 2 ^ k → probeHighest ks x = x.log2

theorem findsHighest_nil : FindsHighest [] 1 := by
  intro x hx hlt
  obtain rfl : x = 1 := by omega
  rfl

/-- One probe halves the number of bits. -/
theorem FindsHighest.cons {ks : List Nat} {k : Nat} (h : FindsHighest ks k) : FindsHighest (k :: ks) (k + k) := by
  intro x hx hlt
  rw [probeHighest]
  split
  case isTrue hle =>
    have hne : x / 2 ^ k ≠ 0 := (Nat.div_pos hle (Nat.two_pow_pos k)).ne'
    rw [h _ hne (Nat.div_lt_of_lt_mul (by rwa [← pow_add])),
      ← log2_two_pow_mul_add hne (Nat.mod_lt x (Nat.two_pow_pos k)), Nat.div_add_mod]
  case isFalse hgt => exact h x hx (Nat.lt_of_not_le hgt)

theorem findsHighest_word : FindsHighest [16, 8, 4, 2, 1] 32 :=
  findsHighest_nil.cons.cons.cons.cons.cons

/-- The scan of the `count` low words is the scan of their bits. -/
theorem wordHighest_eq_highestBelow (a : BitVec n) (count : Nat) :
    wordHighest a count = highestBelow a (32 * count) := by
  induction count with
  | zero => rfl
  | succ i ih =>
    have hlow : a.toNat % 2 ^ (32 * i) < 2 ^ (32 * i) := Nat.mod_lt _ (Nat.two_pow_pos _)
    rw [wordHighest, highestBelow_eq, toNat_mod_words_succ]
    split
    case isTrue hword =>
      have hne : (wordOf a i).toNat ≠ 0 := fun h => hword (BitVec.eq_of_toNat_eq h)
      have hpos := Nat.mul_pos (Nat.two_pow_pos (32 * i)) (Nat.pos_of_ne_zero hne)
      rw [if_neg (by omega), log2_two_pow_mul_add hne hlow, findsHighest_word _ hne (wordOf a i).isLt]
    case isFalse hword =>
      rw [not_not.mp hword, ih, highestBelow_eq]
      simp

/-- Settles O48: the windows of R149 bit by bit, and the probes halving by halving. -/
theorem wordRotationAndProbeScanAgree : Obligations.WordRotationAndProbeScanAgree := fun w a =>
  ⟨fun r => by
      rw [wordRotate_eq_rotateRight a (Nat.mod_lt r (width_bits_pos w)), rotateRight_eq_bitVec_rotateRight,
        rotateRight_eq_bitVec_rotateRight, BitVec.rotateRight_mod_eq_rotateRight],
    wordHighest_eq_highestBelow a w.words⟩

/-! ### FHB and FLB (R147, R148) -/

theorem toNat_indexOrOnes_none (n : Nat) : (indexOrOnes n none).toNat = 2 ^ n - 1 := by
  rw [indexOrOnes, ones_eq_allOnes, BitVec.toNat_allOnes]

/-- A bit index fits in the register. -/
theorem toNat_indexOrOnes_some {i : Nat} (hi : i < n) : (indexOrOnes n (some i)).toNat = i := by
  rw [indexOrOnes, toNat_trunc_natCast, Nat.mod_eq_of_lt (hi.trans Nat.lt_two_pow_self)]

/-- No bit above the logarithm is set. -/
theorem getLsbD_of_log2_lt {a : BitVec n} {i : Nat} (h : a.toNat.log2 < i) : a.getLsbD i = false :=
  Nat.testBit_lt_two_pow (Nat.lt_log2_self.trans_le (Nat.pow_le_pow_right two_pos h))

theorem lowestBelow_of_zero {a : BitVec n} (ha : a.toNat = 0) (k : Nat) : lowestBelow a k = none := by
  have hspec := lowestBelow_spec a k
  cases h : lowestBelow a k with
  | none => rfl
  | some i =>
    rw [h, BitVec.eq_of_toNat_eq (ha.trans BitVec.toNat_zero.symm)] at hspec
    simp at hspec

/-- A nonzero value has a lowest set bit. -/
theorem lowestBelow_of_ne_zero {a : BitVec n} (ha : a.toNat ≠ 0) :
    ∃ i < n, lowestBelow a n = some i ∧ a.getLsbD i = true ∧ ∀ j < i, a.getLsbD j = false := by
  have hspec := lowestBelow_spec a n
  cases h : lowestBelow a n with
  | none =>
    rw [h] at hspec
    have hbit : a.getLsbD a.toNat.log2 = true := Nat.testBit_log2 ha
    exact absurd (hspec _ ((Nat.log2_lt ha).mpr a.isLt)) (by simp [hbit])
  | some i =>
    rw [h] at hspec
    obtain ⟨hlt, hbit, hbelow⟩ := hspec
    exact ⟨i, hlt, rfl, hbit, hbelow⟩

/-- FHB leaves all ones for zero (R147). -/
theorem toNat_fhb_of_zero {a : BitVec n} (ha : a.toNat = 0) :
    (indexOrOnes n (highestBelow a n)).toNat = 2 ^ n - 1 := by
  rw [highestBelow_of_zero ha, toNat_indexOrOnes_none]

theorem toNat_fhb_of_ne_zero {a : BitVec n} (ha : a.toNat ≠ 0) :
    (indexOrOnes n (highestBelow a n)).toNat = a.toNat.log2 := by
  rw [highestBelow_eq_log2 ha, toNat_indexOrOnes_some ((Nat.log2_lt ha).mpr a.isLt)]

theorem toNat_flb_of_zero {a : BitVec n} (ha : a.toNat = 0) :
    (indexOrOnes n (lowestBelow a n)).toNat = 2 ^ n - 1 := by
  rw [lowestBelow_of_zero ha, toNat_indexOrOnes_none]

/-- FLB finds the set bit below which there is none (R148). -/
theorem flb_of_ne_zero {a : BitVec n} (ha : a.toNat ≠ 0) :
    let i := (indexOrOnes n (lowestBelow a n)).toNat
    a.getLsbD i = true ∧ ∀ j < i, a.getLsbD j = false := by
  obtain ⟨i, hlt, hsome, hbit, hbelow⟩ := lowestBelow_of_ne_zero ha
  rw [hsome, toNat_indexOrOnes_some hlt]
  exact ⟨hbit, hbelow⟩

/-- Settles O49: the index that each scan writes to `rd`. -/
theorem bitScans : Obligations.BitScans := by
  intro s rd ra
  refine ⟨⟨rfl, _, rfl, frame_setReg s rd _, fun hzero => ?fhb_zero, fun hne => ?fhb⟩,
    ⟨rfl, _, rfl, frame_setReg s rd _, fun hzero => ?flb_zero, fun hne => ?flb⟩⟩
  case fhb_zero => exact (s.uReg_setReg_self rd _).trans (toNat_fhb_of_zero hzero)
  case fhb =>
    have hlog := (s.uReg_setReg_self rd _).trans (toNat_fhb_of_ne_zero hne)
    rw [hlog, wordHighest_eq_highestBelow]
    exact ⟨Nat.testBit_log2 hne, fun i => getLsbD_of_log2_lt, rfl, highestBelow_eq_log2 hne⟩
  case flb_zero => exact (s.uReg_setReg_self rd _).trans (toNat_flb_of_zero hzero)
  case flb => exact s.uReg_setReg_self rd _ ▸ flb_of_ne_zero hne

end Sys2Proof.Machine

/-! ## Derived math left to the host (spec/47_derived_bitops.md R150 to R152)

The effect of a host's sequence is composed from the effects of its commands: what each writes, and that the
rest of the state is framed. -/

namespace Sys2Proof.Machine

variable {n : Nat}

/-! ### Frames of sequences -/

theorem SameRegs.trans {ds : List Reg} {s t u : State} (h : SameRegs ds s t) (h' : SameRegs ds t u) :
    SameRegs ds s u where
  width := h'.width.trans h.width
  regs r hr := (h'.regs r hr).trans (h.regs r hr)
  bytes r p hr := (h'.bytes r p hr).trans (h.bytes r p hr)

theorem SameFault.trans {s t u : State} (h : SameFault s t) (h' : SameFault t u) : SameFault s u :=
  ⟨h'.fcode.trans h.fcode, h'.fcmd.trans h.fcmd⟩

theorem Frame.trans {ds : List Reg} {s t u : State} (h : Frame ds s t) (h' : Frame ds t u) : Frame ds s u where
  regs := h.regs.trans h'.regs
  flags := ⟨h'.flags.eqFlag.trans h.flags.eqFlag, h'.flags.ltFlag.trans h.flags.ltFlag⟩
  fault := h.fault.trans h'.fault
  host := ⟨h'.host.pending.trans h.host.pending, h'.host.replies.trans h.host.replies⟩

theorem Frame.mono {ds es : List Reg} {s t : State} (h : Frame ds s t) (hsub : ds ⊆ es) : Frame es s t :=
  ⟨h.regs.mono hsub, h.flags, h.fault, h.host⟩

/-- A frame does not depend on what the host is about to present. -/
theorem Frame.withPending {ds : List Reg} {s t : State} (h : Frame ds s t) (ts : List Transaction) :
    Frame ds { s with pending := ts } { t with pending := ts } :=
  ⟨⟨h.regs.width, h.regs.regs, h.regs.bytes⟩, ⟨h.flags.eqFlag, h.flags.ltFlag⟩,
    ⟨h.fault.fcode, h.fault.fcmd⟩, ⟨rfl, h.host.replies⟩⟩

/-! ### The one-bit test (R152) -/

/-- FHB and FLB give the same number exactly for zero and for a power of two. -/
theorem fhb_eq_flb_iff (a : BitVec n) :
    (indexOrOnes n (highestBelow a n)).toNat = (indexOrOnes n (lowestBelow a n)).toNat ↔
      a.toNat = 0 ∨ ∃ k < n, a.toNat = 2 ^ k := by
  by_cases hzero : a.toNat = 0
  · rw [toNat_fhb_of_zero hzero, toNat_flb_of_zero hzero]
    exact iff_of_true rfl (.inl hzero)
  · obtain ⟨hbit, hbelow⟩ := flb_of_ne_zero hzero
    rw [toNat_fhb_of_ne_zero hzero, or_iff_right hzero]
    constructor
    case mp =>
      intro heq
      rw [← heq] at hbit hbelow
      refine ⟨a.toNat.log2, (Nat.log2_lt hzero).mpr a.isLt, Nat.eq_of_testBit_eq fun j => ?_⟩
      rw [Nat.testBit_two_pow, BitVec.testBit_toNat]
      rcases Nat.lt_trichotomy j a.toNat.log2 with hlt | rfl | hgt
      · rw [hbelow j hlt, decide_eq_false hlt.ne']
      · rw [hbit, decide_eq_true rfl]
      · rw [getLsbD_of_log2_lt hgt, decide_eq_false hgt.ne]
    case mpr =>
      rintro ⟨k, -, hk⟩
      rw [← BitVec.testBit_toNat, hk, Nat.testBit_two_pow, decide_eq_true_iff] at hbit
      rw [hk, Nat.log2_two_pow, hbit]

/-- The block after the one-bit test, command by command. -/
def Block.oneBitTested (b : Block n) : Block n :=
  let b1 := b.setReg 2 (indexOrOnes n (highestBelow (b.reg 1) n))
  let b2 := b1.setReg 3 (indexOrOnes n (lowestBelow (b1.reg 1) n))
  b2.setFlags (compareU (b2.reg 2) (b2.reg 3))

/-- `run_issueOf` for a state given by its parts. -/
theorem run_command (i : Instr) {w : Width} (b : Block w.bits) {b' : Block w.bits} {rest : List Transaction}
    {replies : List Reply} (hf : b.fcode = .none) (hwf : i.wellFormed = true)
    (h : exec i ⟨w, b, rest, replies⟩ = .next ⟨w, b', rest, replies⟩) {k : Nat} :
    Host.Core.run Sys2Proof.core (k + 1) ⟨w, b, issueOf i :: rest, replies⟩ =
      Host.Core.run Sys2Proof.core k ⟨w, b', rest, replies⟩ :=
  run_issueOf hf hwf rfl h k

theorem run_oneBitTest {w : Width} {b : Block w.bits} (hf : b.fcode = .none) (rest : List Transaction)
    (replies : List Reply) :
    Host.Core.run Sys2Proof.core 3 ⟨w, b, oneBitTest ++ rest, replies⟩ =
      .next ⟨w, b.oneBitTested, rest, replies⟩ := by
  refine (run_command (.fhb 2 1) b hf rfl rfl).trans ?_
  refine (run_command (.flb 3 1) (b.setReg 2 _) hf rfl rfl).trans ?_
  exact run_command (.cmpu 2 3) ((b.setReg 2 _).setReg 3 _) hf rfl rfl

/-- Blocks that agree outside `ds` give states that do, whatever the host's side is. -/
theorem sameRegs_of_reg {ds : List Reg} {w : Width} {b c : Block w.bits} {ps ps' : List Transaction}
    {rs rs' : List Reply} (h : ∀ r, r ∉ ds → c.reg r = b.reg r) :
    SameRegs ds ⟨w, b, ps, rs⟩ ⟨w, c, ps', rs'⟩ where
  width := rfl
  regs r hr := congrArg BitVec.toNat (h r hr)
  bytes r p hr := Block.byteAt_congr (h r hr) p

theorem Block.reg_oneBitTested (b : Block n) {r : Reg} (hr : r ∉ [2, 3]) : b.oneBitTested.reg r = b.reg r := by
  simp_all [Block.oneBitTested]

theorem Block.eqFlag_oneBitTested_iff (b : Block n) :
    b.oneBitTested.eqFlag = true ↔ (b.reg 1).toNat = 0 ∨ ∃ k < n, (b.reg 1).toNat = 2 ^ k := by
  rw [← fhb_eq_flb_iff]
  simp [Block.oneBitTested, compareU]

/-! ### The factorial (R151) -/

/-- One round: the constant in x2, multiplied into x1. -/
theorem run_multiply_constant {s : State} {imm : Imm16} {rest : List Transaction} (hf : s.block.fcode = .none)
    (hp : s.pending = issueOf (.liu 2 imm) :: issueOf (.mulu 1 1 2) :: rest) (k : Nat) :
    ∃ t, Host.Core.run Sys2Proof.core (k + 2) s = Host.Core.run Sys2Proof.core k t ∧
      Frame [1, 2] { s with pending := rest } t ∧
      t.uReg 1 = s.uReg 1 * imm.toNat % 2 ^ s.width.bits := by
  obtain ⟨t, hliu, hconst, hframe⟩ := exec_liu 2 imm { s with pending := issueOf (.mulu 1 1 2) :: rest }
  have hx1 : t.uReg 1 = s.uReg 1 := hframe.regs.regs 1 (by decide)
  have hwidth : t.width = s.width := hframe.regs.width
  refine ⟨_, (run_issueOf hf rfl hp hliu (k + 1)).trans (run_issueOf (hframe.fault.fcode.trans hf) rfl
    hframe.host.pending (computes_mulu _ 1 1 2) k), ?frame, ?value⟩
  case frame =>
    exact ((hframe.withPending rest).mono (by decide)).trans ((frame_setReg _ 1 _).mono (by decide))
  case value =>
    refine (State.uReg_setReg_self _ 1 _).trans ((BitVec.toNat_mul ..).trans ?_)
    rw [← hwidth, ← hx1, ← hconst]
    rfl

/-- The rounds multiply x1 by `k`, `k`+1, …, as long as the factors fit in an immediate. -/
theorem run_factorialRounds (count : Nat) {k : Nat} {s : State} {rest : List Transaction}
    (hfit : k + count ≤ 2 ^ 16) (hf : s.block.fcode = .none)
    (hp : s.pending = factorialRounds count k ++ rest) :
    ∃ t, Host.Core.run Sys2Proof.core (factorialRounds count k).length s = .next t ∧
      Frame [1, 2] { s with pending := rest } t ∧
      t.uReg 1 = s.uReg 1 * k.ascFactorial count % 2 ^ s.width.bits := by
  induction count generalizing k s with
  | zero =>
    have hrest : s.pending = rest := hp
    refine ⟨s, rfl, hrest ▸ .refl _ s, ?_⟩
    rw [Nat.ascFactorial_zero, Nat.mul_one]
    exact (Nat.mod_eq_of_lt (s.block.reg 1).isLt).symm
  | succ count ih =>
    obtain ⟨t, hrun, hframe, hval⟩ := run_multiply_constant hf hp (factorialRounds count (k + 1)).length
    obtain ⟨u, hrun', hframe', hval'⟩ :=
      ih (by omega) (hframe.fault.fcode.trans hf) hframe.host.pending
    have hwidth : t.width = s.width := hframe.regs.width
    have himm : (BitVec.ofNat 16 k).toNat = k := Nat.mod_eq_of_lt (by omega)
    refine ⟨u, hrun.trans hrun', (hframe.withPending rest).trans hframe', ?_⟩
    rw [hval', hwidth, hval, himm, Nat.mod_mul_mod, Nat.mul_assoc, Nat.succ_ascFactorial,
      ← Nat.ascFactorial_succ]

/-- The factors 2, 3, …, m make the factorial. -/
theorem two_ascFactorial (m : Nat) : Nat.ascFactorial 2 (m - 1) = m.factorial := by
  cases m with
  | zero => rfl
  | succ m =>
    have h := Nat.factorial_mul_ascFactorial 1 m
    rwa [Nat.factorial_one, Nat.one_mul, Nat.add_comm 1 m] at h

theorem run_factorialSequence {m : Nat} {s : State} {rest : List Transaction} (hm : m ≤ 65535)
    (hf : s.block.fcode = .none) (hp : s.pending = factorialSequence m ++ rest) :
    ∃ t, Host.Core.run Sys2Proof.core (factorialSequence m).length s = .next t ∧
      Frame [1, 2] { s with pending := rest } t ∧ t.uReg 1 = m.factorial % 2 ^ s.width.bits := by
  obtain ⟨t, hliu, hone, hframe⟩ := exec_liu 1 1 { s with pending := factorialRounds (m - 1) 2 ++ rest }
  obtain ⟨u, hrun, hframe', hval⟩ := run_factorialRounds (m - 1) (by omega) (hframe.fault.fcode.trans hf)
    hframe.host.pending
  have hwidth : t.width = s.width := hframe.regs.width
  have hone' : t.uReg 1 = 1 := hone
  refine ⟨u, (run_issueOf hf rfl hp hliu _).trans hrun,
    ((hframe.withPending rest).mono (by decide)).trans hframe', ?_⟩
  rw [hval, hwidth, hone', Nat.one_mul, two_ascFactorial]

/-- Settles O59: the test by the indices it compares, the factorial by induction on the rounds. -/
theorem oneBitTestAndFactorial : Obligations.OneBitTestAndFactorial := by
  refine ⟨?one_bit, fun _ _ _ hm => run_factorialSequence hm⟩
  rintro ⟨w, b, _, replies⟩ rest hf rfl
  exact ⟨_, run_oneBitTest hf rest replies,
    sameRegs_of_reg fun _ => b.reg_oneBitTested, ⟨rfl, rfl⟩, ⟨rfl, rfl⟩,
    b.eqFlag_oneBitTested_iff⟩

/-! ### The square root (R150) -/

/-- The next estimate of Newton's iteration for the square root of `x`. -/
def newton (x g : Nat) : Nat := (x / g + g) / 2

/-- An estimate is never below the root: the mean of `g` and `x / g` is not below their geometric mean. -/
theorem sqrt_le_newton {g : Nat} (x : Nat) (hg : 0 < g) : x.sqrt ≤ newton x g := by
  have hmean : 2 * x.sqrt - g ≤ x / g := by
    rw [Nat.le_div_iff_mul_le hg]
    refine le_trans ?_ x.sqrt_le
    rcases Nat.le_total (2 * x.sqrt) g with h | h
    · rw [Nat.sub_eq_zero_of_le h, Nat.zero_mul]
      exact Nat.zero_le _
    · obtain ⟨d, hd⟩ := Nat.exists_eq_add_of_le h
      rw [hd, Nat.add_sub_cancel_left]
      nlinarith [sq_nonneg ((d : Int) - g)]
  rw [newton]
  omega

/-- Where the estimates stop to fall, the root is reached. -/
theorem le_sqrt_of_le_newton {x g : Nat} (hg : 0 < g) (h : g ≤ newton x g) : g ≤ x.sqrt := by
  rw [newton] at h
  exact Nat.le_sqrt.mpr ((Nat.le_div_iff_mul_le hg).mp (by omega))

/-- The sum in the iteration fits in N bits. -/
theorem newton_sum_lt {x g M : Nat} (hx : x < 2 * M) (hM : 4 ≤ M) (hg : 0 < g) (hroot : x.sqrt ≤ g)
    (hgM : g < M) : x / g + g < 2 * M := by
  rcases Nat.lt_or_ge 1 g with hbig | hsmall
  · have hhalf : x / g ≤ x / 2 := Nat.div_le_div_left hbig two_pos
    omega
  · obtain rfl : g = 1 := by omega
    have hx4 : x < 2 * 2 := Nat.sqrt_lt.mp (by omega)
    rw [Nat.div_one]
    omega

/-- The seed of R150 is an estimate from above. -/
theorem sqrt_le_seed {x : Nat} (hx : x ≠ 0) : x.sqrt ≤ x / 2 ^ (x.log2 / 2) := by
  have hle : 2 ^ (x.log2 / 2) ≤ x.sqrt := by
    refine Nat.le_sqrt.mpr (le_trans ?_ (Nat.log2_self_le hx))
    rw [← pow_add]
    exact Nat.pow_le_pow_right two_pos (by omega)
  rw [Nat.le_div_iff_mul_le (Nat.two_pow_pos _)]
  exact (Nat.mul_le_mul_left _ hle).trans x.sqrt_le

theorem seed_lt {x N : Nat} (hx : x ≠ 0) (hN : 3 ≤ N) (hlt : x < 2 ^ N) :
    x / 2 ^ (x.log2 / 2) < 2 ^ (N - 1) := by
  have hlog : x.log2 < N := (Nat.log2_lt hx).mpr hlt
  refine Nat.div_lt_of_lt_mul (Nat.lt_log2_self.trans_le ?_)
  rw [← pow_add]
  exact Nat.pow_le_pow_right two_pos (by omega)

/-- The block after the seed of R150, command by command. -/
def Block.sqrtSeeded (b : Block n) : Block n :=
  let b1 := b.setReg 2 (indexOrOnes n (highestBelow (b.reg 1) n))
  let b2 := b1.setReg 2 (shiftRight (b1.reg 2) 1)
  b2.setReg 3 (shiftRight (b2.reg 1) (b2.reg 2).toNat)

/-- The block after one round of R150, command by command, for a nonzero x3. -/
def Block.sqrtRounded (b : Block n) : Block n :=
  let b1 := b.setReg 4 (b.reg 1 / b.reg 3)
  let b2 := b1.setReg 4 (b1.reg 4 + b1.reg 3)
  let b3 := b2.setReg 4 (shiftRight (b2.reg 4) 1)
  b3.setFlags (compareU (b3.reg 4) (b3.reg 3))

theorem Block.reg_sqrtSeeded (b : Block n) {r : Reg} (hr : r ∉ [2, 3, 4]) : b.sqrtSeeded.reg r = b.reg r := by
  simp_all [Block.sqrtSeeded]

theorem Block.toNat_sqrtSeeded {b : Block n} (hx : (b.reg 1).toNat ≠ 0) :
    (b.sqrtSeeded.reg 3).toNat = (b.reg 1).toNat / 2 ^ ((b.reg 1).toNat.log2 / 2) := by
  simp [Block.sqrtSeeded, toNat_shiftRight_eq_div, toNat_fhb_of_ne_zero hx]

theorem Block.reg_sqrtRounded (b : Block n) {r : Reg} (hr : r ≠ 4) : b.sqrtRounded.reg r = b.reg r := by
  simp [Block.sqrtRounded, hr]

/-- Also after the estimate was moved to x3, the registers that are no scratch are kept. -/
theorem Block.reg_setReg_sqrtRounded (b : Block n) (v : BitVec n) {r : Reg} (hr : r ∉ [2, 3, 4]) :
    (b.sqrtRounded.setReg 3 v).reg r = b.reg r := by
  rw [Block.reg_setReg, if_neg (ne_of_mem_of_not_mem (by decide) hr).symm,
    b.reg_sqrtRounded (ne_of_mem_of_not_mem (by decide) hr).symm]

/-- When the sum fits, x4 holds the next estimate. -/
theorem Block.toNat_sqrtRounded {b : Block n}
    (hfit : (b.reg 1).toNat / (b.reg 3).toNat + (b.reg 3).toNat < 2 ^ n) :
    (b.sqrtRounded.reg 4).toNat = newton (b.reg 1).toNat (b.reg 3).toNat := by
  simp [Block.sqrtRounded, newton, toNat_shiftRight_eq_div, Nat.mod_eq_of_lt hfit]

theorem Block.ltFlag_sqrtRounded (b : Block n) :
    b.sqrtRounded.ltFlag = decide ((b.sqrtRounded.reg 4).toNat < (b.sqrtRounded.reg 3).toNat) := rfl

section
variable {w : Width} {b : Block w.bits} (hf : b.fcode = .none) (ps : List Transaction) (rs : List Reply)
include hf

theorem perform_sqrtSeed :
    State.perform ⟨w, b, ps, rs⟩ sqrtSeed = .next ⟨w, b.sqrtSeeded, ps, rs⟩ := by
  refine (run_command (.fhb 2 1) b hf rfl rfl).trans ?_
  refine (run_command (.shri 2 2 1) (b.setReg 2 _) hf rfl rfl).trans ?_
  exact run_command (.shr 3 1 2) ((b.setReg 2 _).setReg 2 _) hf rfl rfl

theorem perform_sqrtRound (hne : (b.reg 3).toNat ≠ 0) :
    State.perform ⟨w, b, ps, rs⟩ sqrtRound =
      .next ⟨w, b.sqrtRounded, ps, rs ++ [.status b.sqrtRounded.status]⟩ := by
  have hdiv (rest : List Transaction) : exec (.divu 4 1 3) ⟨w, b, rest, rs⟩ =
      .next ⟨w, b.setReg 4 (b.reg 1 / b.reg 3), rest, rs⟩ := by
    rw [exec_divu (s := ⟨w, b, rest, rs⟩) hne, udivrem_eq_udiv_umod]
    rfl
  refine (run_command (.divu 4 1 3) b hf rfl (hdiv _)).trans ?_
  refine (run_command (.add 4 4 3) (b.setReg 4 _) hf rfl (computes_add _ 4 4 3)).trans ?_
  refine (run_command (.shri 4 4 1) ((b.setReg 4 _).setReg 4 _) hf rfl rfl).trans ?_
  refine (run_command (.cmpu 4 3) (((b.setReg 4 _).setReg 4 _).setReg 4 _) hf rfl rfl).trans ?_
  exact run_succ rfl 0

theorem perform_mov :
    State.perform ⟨w, b, ps, rs⟩ [issueOf (.mov 3 4)] = .next ⟨w, b.setReg 3 (b.reg 4), ps, rs⟩ :=
  run_command (.mov 3 4) b hf rfl rfl
end

/-- The host reads LT from the STATUS it was given last. -/
theorem sawLess_status {w : Width} {b c : Block w.bits} (ps : List Transaction) (rs : List Reply) :
    State.sawLess ⟨w, b, ps, rs ++ [.status c.status]⟩ = c.ltFlag := by
  rw [State.sawLess, List.getLast?_concat]
  exact c.getLsbD_status_one

section
variable {fuel : Nat} {s t u : State} (hround : s.perform sqrtRound = .next t)
include hround

theorem sqrtLoop_succ_of_less (hless : t.sawLess = true)
    (hmov : t.perform [issueOf (.mov 3 4)] = .next u) : sqrtLoop (fuel + 1) s = sqrtLoop fuel u := by
  simp only [sqrtLoop, hround, hless, hmov, if_true]

theorem sqrtLoop_succ_of_not_less (hless : t.sawLess = false) : sqrtLoop (fuel + 1) s = .next t := by
  simp only [sqrtLoop, hround, hless, Bool.false_eq_true, if_false]
end

/-- The block holds an estimate of the root of `x` in x3: not below the root, and small enough for a round. -/
structure Estimates (x : Nat) (b : Block n) : Prop where
  value : (b.reg 1).toNat = x
  ne_zero : x ≠ 0
  root_le : x.sqrt ≤ (b.reg 3).toNat
  lt : (b.reg 3).toNat < 2 ^ (n - 1)

theorem Estimates.pos {x : Nat} {b : Block n} (h : Estimates x b) : 0 < (b.reg 3).toNat :=
  (Nat.sqrt_pos.mpr (Nat.pos_of_ne_zero h.ne_zero)).trans_le h.root_le

theorem estimates_sqrtSeeded {b : Block n} (hn : 3 ≤ n) (hx : (b.reg 1).toNat ≠ 0) :
    Estimates (b.reg 1).toNat b.sqrtSeeded where
  value := by rw [b.reg_sqrtSeeded (by decide)]
  ne_zero := hx
  root_le := Block.toNat_sqrtSeeded hx ▸ sqrt_le_seed hx
  lt := Block.toNat_sqrtSeeded hx ▸ seed_lt hx hn (b.reg 1).isLt

/-- A round computes the next estimate. -/
theorem Estimates.newton_eq {x : Nat} {b : Block n} (h : Estimates x b) (hn : 3 ≤ n) :
    (b.sqrtRounded.reg 4).toNat = newton x (b.reg 3).toNat := by
  have hdouble : 2 ^ n = 2 * 2 ^ (n - 1) := by rw [← pow_succ', Nat.sub_add_cancel (by omega)]
  have hfour : 2 ^ 2 ≤ 2 ^ (n - 1) := Nat.pow_le_pow_right two_pos (by omega)
  have hx := h.value ▸ (b.reg 1).isLt
  rw [← h.value]
  refine Block.toNat_sqrtRounded ?_
  rw [h.value, hdouble]
  exact newton_sum_lt (hdouble ▸ hx) hfour h.pos h.root_le h.lt

/-- A smaller estimate moved to x3 is an estimate again. -/
theorem Estimates.next {x : Nat} {b : Block n} (h : Estimates x b) (hn : 3 ≤ n)
    (hlt : newton x (b.reg 3).toNat < (b.reg 3).toNat) :
    Estimates x (b.sqrtRounded.setReg 3 (b.sqrtRounded.reg 4)) where
  value := by rw [Block.reg_setReg, if_neg (by decide), b.reg_sqrtRounded (by decide), h.value]
  ne_zero := h.ne_zero
  root_le := by
    rw [Block.reg_setReg_self, h.newton_eq hn]
    exact sqrt_le_newton x h.pos
  lt := by
    rw [Block.reg_setReg_self, h.newton_eq hn]
    exact hlt.trans h.lt

/-- `t` is `s` after the square root of `x`: the root in x3, and LT = 0. -/
structure Rooted (x : Nat) (s t : State) : Prop where
  root : t.uReg 3 = x.sqrt
  ltFlag : t.block.ltFlag = false
  regs : SameRegs [2, 3, 4] s t
  fault : SameFault s t
  pending : t.pending = s.pending

/-- What went before the loop, or in an earlier round, does not count if it wrote the scratch registers only. -/
theorem Rooted.of_sameRegs {x : Nat} {s t u : State} (h : Rooted x t u) (hregs : SameRegs [2, 3, 4] s t)
    (hfault : SameFault s t) (hpending : t.pending = s.pending) : Rooted x s u :=
  ⟨h.root, h.ltFlag, hregs.trans h.regs, hfault.trans h.fault, h.pending.trans hpending⟩

/-- The estimates fall from round to round, so more rounds than the first estimate are never made. -/
theorem sqrtLoop_ends {x : Nat} {w : Width} (ps : List Transaction) {fuel : Nat} {b : Block w.bits}
    (rs : List Reply) (hf : b.fcode = .none) (h : Estimates x b) (hfuel : (b.reg 3).toNat < fuel) :
    ∃ t, sqrtLoop fuel ⟨w, b, ps, rs⟩ = .next t ∧ Rooted x ⟨w, b, ps, rs⟩ t := by
  have hn : 3 ≤ w.bits := le_trans (by decide) (width_bits_ge w)
  induction fuel generalizing b rs with
  | zero => omega
  | succ fuel ih =>
    have hround := perform_sqrtRound hf ps rs h.pos.ne'
    have hx3 : b.sqrtRounded.reg 3 = b.reg 3 := b.reg_sqrtRounded (by decide)
    have hflag := b.ltFlag_sqrtRounded
    rw [h.newton_eq hn, hx3] at hflag
    by_cases hlt : newton x (b.reg 3).toNat < (b.reg 3).toNat
    · rw [decide_eq_true hlt] at hflag
      have hmov := perform_mov (b := b.sqrtRounded) hf ps (rs ++ [.status b.sqrtRounded.status])
      have hless : ((b.sqrtRounded.setReg 3 (b.sqrtRounded.reg 4)).reg 3).toNat < fuel := by
        rw [Block.reg_setReg_self, h.newton_eq hn]
        omega
      obtain ⟨t, hloop, hrooted⟩ := ih (b := b.sqrtRounded.setReg 3 _) _ hf (h.next hn hlt) hless
      refine ⟨t, (sqrtLoop_succ_of_less hround ((sawLess_status ..).trans hflag) hmov).trans hloop,
        hrooted.of_sameRegs (sameRegs_of_reg fun _ => b.reg_setReg_sqrtRounded _) ⟨rfl, rfl⟩ rfl⟩
    · rw [decide_eq_false hlt] at hflag
      have hroot := le_antisymm (le_sqrt_of_le_newton h.pos (Nat.le_of_not_lt hlt)) h.root_le
      refine ⟨_, sqrtLoop_succ_of_not_less hround ((sawLess_status ..).trans hflag),
        (congrArg BitVec.toNat hx3).trans hroot, hflag, sameRegs_of_reg fun _ hr => ?_, ⟨rfl, rfl⟩, rfl⟩
      exact b.reg_sqrtRounded (ne_of_mem_of_not_mem (by decide) hr).symm

/-- Settles O60: the seed is an estimate, from which the loop falls to the root. -/
theorem squareRootLoop : Obligations.SquareRootLoop := by
  rintro ⟨w, b, ps, rs⟩ hf hx
  have hn : 3 ≤ w.bits := le_trans (by decide) (width_bits_ge w)
  have hseed : Estimates (b.reg 1).toNat b.sqrtSeeded := estimates_sqrtSeeded hn hx
  refine ⟨_, (b.sqrtSeeded.reg 3).toNat + 1, perform_sqrtSeed hf ps rs, fun fuel hfuel => ?_⟩
  obtain ⟨t, hloop, hrooted⟩ := sqrtLoop_ends (b := b.sqrtSeeded) ps rs hf hseed hfuel
  obtain ⟨hroot, hlt, hregs, hfault, hpending⟩ :=
    hrooted.of_sameRegs (sameRegs_of_reg fun r => b.reg_sqrtSeeded) ⟨rfl, rfl⟩ rfl
  refine ⟨t, hloop, hlt, hregs, hfault, hpending, ?_⟩
  rw [hroot]
  exact ⟨Nat.sqrt_le _, Nat.lt_succ_sqrt _⟩

end Sys2Proof.Machine

/-! ## Exceptions (spec/60_exceptions.md R162 to R167, R175)

A transaction on a block that is not faulted can make it faulted only by an Issue, whose word is the one
recorded; a faulted block drops every Issue and is freed by ClrFault and Reset. -/

namespace Sys2Proof.Machine

variable {n : Nat}

/-- Settles O21: an idle step answers the same state, and every transaction completes. -/
theorem everyStepCompletes : Obligations.EveryStepCompletes := by
  intro s
  cases hp : s.pending with
  | nil => exact ⟨s, step_nil hp⟩
  | cons tr rest =>
    obtain ⟨t, ht⟩ := transact_completes tr { s with pending := rest }
    exact ⟨t, (step_cons hp).trans ht⟩

/-- Settles O10. -/
theorem idleBlockHoldsItsState : Obligations.IdleBlockHoldsItsState := fun _ => step_nil

/-- Settles O9: the fail-stop comes before the decoder. -/
theorem faultedBlockDropsEveryIssue : Obligations.FaultedBlockDropsEveryIssue := fun _ _ _ hp hf =>
  (step_cons hp).trans (issue_of_faulted hf)

/-- Settles O8: the step is the Issue, which raises IllegalCommand, and code 2 is that of IllegalCommand. -/
theorem stepRaisesIllegalCommand : Obligations.StepRaisesIllegalCommand := fun _ _ _ _ hp hf hw =>
  ⟨_, (step_cons hp).trans (issue_of_decode_error hf hw), rfl, raised_raise ..⟩

/-! ### Leaving the faulted condition (R167) -/

/-- ClrFault has nothing to write when both fields hold 0. -/
theorem Block.clearFault_eq_self {b : Block n} (hcode : b.fcode = .none) (hcmd : b.fcmd = 0) :
    b.clearFault = b := by
  rw [Block.clearFault, ← hcode, ← hcmd]

/-- Settles O12: the step replaces the block by `Block.clearFault`, which changes nothing when FCODE, and so by the
invariant FCMD, is 0. -/
theorem clrFaultLeavesTheFaultedCondition : Obligations.ClrFaultLeavesTheFaultedCondition := by
  refine ⟨fun s rest hp => ⟨⟨_, step_cons hp, rfl, rfl, rfl, ?regs, ⟨rfl, rfl⟩, ⟨rfl, rfl⟩⟩,
    fun hinv hf => ?no_effect⟩, fun s t hf h ht => ?only_way_out⟩
  case regs => exact ⟨rfl, fun _ _ => rfl, fun _ _ _ => rfl⟩
  case no_effect =>
    have hblock := Block.clearFault_eq_self hf (hinv.cleared hf)
    exact (step_cons hp).trans (congrArg (done { s with pending := rest }) hblock)
  case only_way_out =>
    rcases onlyClrFaultAndResetClearAFault s t hf h with ⟨hsame, -⟩ | ⟨-, -, hway⟩
    · exact absurd (hsame.symm.trans ht) hf
    · exact hway

/-! ### Taking a fault (R166) -/

theorem raised_of_exec_faults {i : Instr} {s t : State} (hf : s.block.fcode = .none)
    (h : exec i s = .next t) (ht : t.block.fcode ≠ .none) : ∃ e, Raised e (encode i) s t := by
  obtain ⟨t', ht', -, -, -, hfault⟩ := exec_writesOnlyNamed i s
  cases ht'.symm.trans h
  rcases hfault with hsame | ⟨-, -, -, hraised⟩ | ⟨-, hraised⟩
  · exact absurd (hsame.fcode.trans hf) ht
  · exact ⟨_, hraised⟩
  · exact ⟨_, hraised⟩

/-- The word that a command records is the word that was issued, because it decodes to the command. -/
theorem raised_of_issue_faults {w : Word} {s t : State} (hf : s.block.fcode = .none)
    (h : issue w s = .next t) (ht : t.block.fcode ≠ .none) : ∃ e, Raised e w s t := by
  rcases issue_cases w s with ⟨hfault, -⟩ | ⟨-, i, hi, hexec⟩ | ⟨-, c, -, hraise⟩
  · exact absurd hf hfault
  · exact encode_of_decode hi ▸ raised_of_exec_faults hf (hexec.symm.trans h) ht
  · cases hraise.symm.trans h
    exact ⟨_, raised_raise s _ w⟩

theorem raised_of_transact_faults {tr : Transaction} {s t : State} (hf : s.block.fcode = .none)
    (h : transact tr s = .next t) (ht : t.block.fcode ≠ .none) :
    ∃ w e, tr = .issue w ∧ Raised e w s t := by
  cases tr with
  | issue w =>
    obtain ⟨e, hraised⟩ := raised_of_issue_faults hf h ht
    exact ⟨w, e, rfl, hraised⟩
  | reset | clrFault => cases h; exact absurd rfl ht
  | wrElem | rdElem | rdStatus | rdFcmd => cases h; exact absurd hf ht

/-- Settles O52: an idle step does not make the block faulted, and of the transactions only an Issue does. -/
theorem faultsArePrecise : Obligations.FaultsArePrecise := by
  intro s t hf h ht
  rcases step_cases h with ⟨-, rfl⟩ | ⟨tr, rest, hp, htr⟩
  · exact absurd hf ht
  · obtain ⟨w, e, rfl, hraised⟩ := raised_of_transact_faults (s := { s with pending := rest }) hf htr ht
    exact ⟨w, rest, e, hp, hraised⟩

end Sys2Proof.Machine

/-! ## What a command reads (spec/70_reset_and_hazards.md R185; spec/10_state.md R22)

In two states that agree on its sources a command ends in the same one of its ways, with the same values. -/

namespace Sys2Proof.Machine

/-- The outcomes of the command `i` in `s` and in `s'` agree in what the command writes. -/
def SameEffect (i : Instr) (s s' : State) (o o' : Host.Outcome State Fault Refusal) : Prop :=
  ∃ t t', o = .next t ∧ o' = .next t' ∧
    (SameFault s t ↔ SameFault s' t') ∧
    (SameFault s t → (∀ r ∈ dests i, t.uReg r = t'.uReg r) ∧
      (isCompare i = true →
        t.block.eqFlag = t'.block.eqFlag ∧ t.block.ltFlag = t'.block.ltFlag))

/-- From a state without a fault, `raise` is seen in FCODE. -/
theorem not_sameFault_raise {s : State} (hs : s.block.fcode = .none) (e : Exc) (w : Word) :
    ¬SameFault s (s.withBlock (s.block.raise e w)) := by
  rintro ⟨hcode, -⟩
  have hnone : e.code = .none := hcode.trans hs
  cases e <;> cases hnone

section
variable {i : Instr} {s s' : State}

theorem sameEffect_setReg {rd : Reg} {v : BitVec s.width.bits} {v' : BitVec s'.width.bits}
    (hd : dests i = [rd]) (hi : isCompare i = false) (hv : v.toNat = v'.toNat) :
    SameEffect i s s' (done s (s.block.setReg rd v)) (done s' (s'.block.setReg rd v')) := by
  refine ⟨_, _, rfl, rfl, iff_of_true ⟨rfl, rfl⟩ ⟨rfl, rfl⟩, fun _ => ⟨fun r hr => ?_, fun hc => ?_⟩⟩
  · obtain rfl : r = rd := by simpa [hd] using hr
    rw [State.uReg_setReg_self, State.uReg_setReg_self, hv]
  · exact absurd (hi.symm.trans hc) (by decide)

theorem sameEffect_setReg_setReg {rd re : Reg} {v u : BitVec s.width.bits} {v' u' : BitVec s'.width.bits}
    (hd : dests i = [rd, re]) (hi : isCompare i = false) (hv : v.toNat = v'.toNat)
    (hu : u.toNat = u'.toNat) :
    SameEffect i s s' (done s ((s.block.setReg rd v).setReg re u))
      (done s' ((s'.block.setReg rd v').setReg re u')) := by
  refine ⟨_, _, rfl, rfl, iff_of_true ⟨rfl, rfl⟩ ⟨rfl, rfl⟩, fun _ => ⟨fun r hr => ?_, fun hc => ?_⟩⟩
  · have hr' : r = rd ∨ r = re := by simpa [hd] using hr
    simp only [State.uReg_withBlock, Block.reg_setReg]
    split_ifs
    · exact hu
    · exact hv
    · simp_all
  · exact absurd (hi.symm.trans hc) (by decide)

theorem sameEffect_setFlags {f f' : Bool × Bool} (hd : dests i = []) (hf : f = f') :
    SameEffect i s s' (done s (s.block.setFlags f)) (done s' (s'.block.setFlags f')) := by
  subst hf
  refine ⟨_, _, rfl, rfl, iff_of_true ⟨rfl, rfl⟩ ⟨rfl, rfl⟩, fun _ => ⟨fun r hr => ?_, fun _ => ⟨rfl, rfl⟩⟩⟩
  simp [hd] at hr

variable (hs : s.block.fcode = .none) (hs' : s'.block.fcode = .none)
include hs hs'

theorem sameEffect_raise (e : Exc) (w : Word) :
    SameEffect i s s' (done s (s.block.raise e w)) (done s' (s'.block.raise e w)) :=
  ⟨_, _, rfl, rfl, iff_of_false (not_sameFault_raise hs e w) (not_sameFault_raise hs' e w),
    fun h => absurd h (not_sameFault_raise hs e w)⟩

theorem sameEffect_unlessZero {rb : Reg} {b : Block s.width.bits} {b' : Block s'.width.bits} (w : Word)
    (hrb : s.uReg rb = s'.uReg rb) (hb : SameEffect i s s' (done s b) (done s' b')) :
    SameEffect i s s' (unlessZero s w rb b) (unlessZero s' w rb b') := by
  by_cases hz : s.uReg rb = 0
  · rw [unlessZero_of_eq _ _ hz, unlessZero_of_eq _ _ (hrb ▸ hz)]
    exact sameEffect_raise hs hs' _ w
  · rw [unlessZero_of_ne _ _ hz, unlessZero_of_ne _ _ (hrb ▸ hz)]
    exact hb
end

theorem exec_sameEffect {i : Instr} {w : Width} {b b' : Block w.bits} {ps ps' : List Transaction}
    {rs rs' : List Reply} (hb : b.fcode = .none) (hb' : b'.fcode = .none)
    (h : ∀ r ∈ sources i, b.reg r = b'.reg r) :
    SameEffect i ⟨w, b, ps, rs⟩ ⟨w, b', ps', rs'⟩ (exec i ⟨w, b, ps, rs⟩) (exec i ⟨w, b', ps', rs'⟩) := by
  cases i with
  | and _ ra rb | or _ ra rb | xor _ ra rb | shl _ ra rb | shr _ ra rb | sar _ ra rb | add _ ra rb
  | sub _ ra rb | mulu _ ra rb | muls _ ra rb | ror _ ra rb =>
    have hra := h ra (by simp [sources])
    have hrb := h rb (by simp [sources])
    exact sameEffect_setReg rfl rfl (by rw [hra, hrb])
  | not _ ra | shli _ ra | shri _ ra | sari _ ra | inc _ ra | dec _ ra | neg _ ra | mov _ ra | fhb _ ra
  | flb _ ra | rori _ ra =>
    have hra := h ra (by simp [sources])
    exact sameEffect_setReg rfl rfl (by rw [hra])
  | clr | liu | lis | mkmin | mkmax => exact sameEffect_setReg rfl rfl rfl
  | cmpu ra rb | cmps ra rb =>
    have hra := h ra (by simp [sources])
    have hrb := h rb (by simp [sources])
    exact sameEffect_setFlags rfl (by rw [hra, hrb])
  | extz _ ra | exts _ ra =>
    have hra := h ra (by simp [sources])
    simp only [exec, execExtz, execExts]
    split
    case isTrue => exact sameEffect_raise hb hb' _ _
    case isFalse => exact sameEffect_setReg rfl rfl (by rw [hra])
  | divu _ ra rb | remu _ ra rb | divs _ ra rb | rems _ ra rb =>
    have hra := h ra (by simp [sources])
    have hrb := h rb (by simp [sources])
    exact sameEffect_unlessZero hb hb' _ (congrArg BitVec.toNat hrb)
      (sameEffect_setReg rfl rfl (by rw [hra, hrb]))
  | divremu _ _ ra rb | divrems _ _ ra rb =>
    have hra := h ra (by simp [sources])
    have hrb := h rb (by simp [sources])
    simp only [exec, execDivremu, execDivrems]
    split
    case isTrue => exact sameEffect_raise hb hb' _ _
    case isFalse =>
      exact sameEffect_unlessZero hb hb' _ (congrArg BitVec.toNat hrb)
        (sameEffect_setReg_setReg rfl rfl (by rw [hra, hrb]) (by rw [hra, hrb]))

/-- Settles O51, command by command. -/
theorem commandsReadOnlyTheirSources : Obligations.CommandsReadOnlyTheirSources := by
  rintro i ⟨w, b, ps, rs⟩ ⟨_, b', ps', rs'⟩ t t' rfl hb hb' hsources ht ht'
  obtain ⟨u, u', hu, hu', hfault, heffect⟩ :=
    exec_sameEffect (ps := ps) (ps' := ps') (rs := rs) (rs' := rs') hb hb' fun r hr =>
      BitVec.eq_of_toNat_eq (hsources r hr)
  cases hu.symm.trans ht
  cases hu'.symm.trans ht'
  exact ⟨hfault, heffect⟩

end Sys2Proof.Machine

/-! ## Sample words (spec/30_encoding.md section 7) -/

namespace Sys2Proof

/-- Settles O4: the eight legal words are the encodings of their commands, and each of the others fails one of the
four tests. -/
theorem sampleWordsDecode : Obligations.SampleWordsDecode :=
  ⟨decode_encode (i := .and 3 1 2) rfl, decode_encode (i := .shli 2 2 33) rfl,
    decode_encode (i := .add 3 1 2) rfl, decode_encode (i := .muls 3 1 2) rfl,
    decode_encode (i := .divrems 4 5 6 7) rfl, decode_encode (i := .cmpu 1 2) rfl,
    decode_encode (i := .lis 9 0xFFF9) rfl, decode_encode (i := .fhb 3 1) rfl, rfl, rfl, rfl, rfl⟩

end Sys2Proof
